-- ==== Sys2Proof/Word.lean ====
section
/-!
DEFINITION. The bit-level types of the machine: what the spec treats as bits is a bit vector, a line level is a Bool
(R10: a level is 0 or 1; `true` as a bit is 1).
-/

namespace Sys2Proof

/-- A byte: payload byte, register selector, contrast level, framebuffer byte (R82). -/
abbrev Byte := BitVec 8

/-- A 32-bit word: `hz`, `coord` (two's complement), `char` (R82), and a Register Access word (R56). -/
abbrev Word := BitVec 32

/-- A 7-bit bus address, `addr7` (R82, R59). -/
abbrev Addr7 := BitVec 7

/-- A line level: `false` is 0 (low), `true` is 1 (high) (R10). -/
abbrev Level := Bool

end Sys2Proof
end

