-- ==== Sys2Proof/Config.lean ====
section
/-!
DEFINITION. The configuration record of R8 (what an implementation fixes) and the free values (what nothing fixes).
A free value is an opaque constant: nothing in Lean can evaluate it, so a theorem holds for every value of it.
-/

namespace Sys2Proof

/-- PAD_MODE (R8, R87): how a wire follows its output latch. -/
inductive PadMode where
  | openDrain
  | pushPull
deriving DecidableEq, Repr, Inhabited

/-- One access that a pin map prescribes (R57): a plain write of a word, or a read-modify-write of one word. The address is
a word index, so every hardware address is a multiple of 4 (R58). DESIGN CHOICE: the spec gives no width of a hardware address;
here it is 32 bits, so a word index has 30 (assumption 19). -/
inductive PinAct where
  /-- MemWrite(a, 4, v) -/
  | write (a : BitVec 30) (v : Word)
  /-- w ← MemRead(a, 4); MemWrite(a, 4, (w and keep) or set) -/
  | modify (a : BitVec 30) (keep set : Word)
deriving DecidableEq, Repr, Inhabited

/-- What the parameter PinMap gives for one line identifier (R57, R113, R116). Each level has at least one access. -/
structure PinEntry where
  /-- SETLINE to level 1: the first access and the others -/
  high     : PinAct
  highMore : List PinAct
  /-- SETLINE to level 0: the first access and the others -/
  low      : PinAct
  lowMore  : List PinAct
  /-- PINMODE: whatever the platform prescribes -/
  mode     : List PinAct
  /-- SAMPLE: the word read, and the bit of it that is this line -/
  inAddr   : BitVec 30
  inBit    : Fin 32
deriving DecidableEq, Repr, Inhabited

/-- The record CMDS of display command bytes (R96). -/
structure Cmds where
  displayOff       : Byte
  setClockDiv      : Byte
  setMultiplex     : Byte
  setDisplayOffset : Byte
  setStartLine     : Byte
  chargePump       : Byte
  setAddrMode      : Byte
  segRemap         : Byte
  comScanDir       : Byte
  setComPins       : Byte
  setContrast      : Byte
  setPrecharge     : Byte
  setVcomDetect    : Byte
  displayResume    : Byte
  normalDisplay    : Byte
  invertDisplay    : Byte
  displayOn        : Byte
  setColumnAddr    : Byte
  setPageAddr      : Byte
deriving DecidableEq, Repr

/-- The fields of INIT_PARAMS that are free to choose (R97). The others are fixed by the source (multiplex HEIGHT - 1,
offset 0, start line 0, the window) and computed where they are sent. -/
structure InitParams where
  clockDiv           : Byte
  chargePumpOn       : Byte
  addrModeHorizontal : Byte
  segRemapR          : BitVec 1
  comScanD           : BitVec 1
  comPins            : Byte
  initContrast       : Byte
  precharge          : Byte
  vcomDetect         : Byte
deriving DecidableEq, Repr

/-- The parameters of R8, one field each. -/
structure Params where
  /-- ASSUMED_CLOCK_HZ less one: the parameter is an unsigned 32-bit number, nonzero (D7); see `Params.assumedClockHz` -/
  clockLessOne   : Fin 4294967295
  /-- SPIN_ITER_CYCLES (no rule depends on it, R280) -/
  spinIterCycles : Nat
  /-- PIN_COUNT -/
  pinCount       : Nat
  /-- PinMap, entry id for line identifier id; beyond the list the entry is the free value `Config.pinEntry` -/
  pinMap         : List PinEntry
  /-- PAD_MODE -/
  padMode        : PadMode
  /-- WIDTH -/
  width          : Nat
  /-- HEIGHT -/
  height         : Nat
  /-- DISPLAY_BUS_HZ -/
  displayBusHz   : Word
  /-- POWERUP_DELAY (no rule depends on it, R280) -/
  powerupDelay   : Nat
  /-- CMDS -/
  cmds           : Cmds
  /-- INIT_PARAMS -/
  init           : InitParams
  /-- GLYPH: 95 entries of 5 bytes -/
  glyph          : List (List Byte)
  /-- PRINTABLE_LO -/
  printableLo    : Word
  /-- PRINTABLE_HI -/
  printableHi    : Word
  /-- NEWLINE -/
  newline        : Word
  /-- DISPLAY_ADDR: what a host passes to INITIALIZE -/
  displayAddr    : Addr7
deriving DecidableEq, Repr

/-- ASSUMED_CLOCK_HZ (R8): every value from 1 to 2^32-1, and no other (D7, R9). -/
def Params.assumedClockHz (c : Params) : Word := BitVec.ofNat 32 (c.clockLessOne.val + 1)

/-- OPEN parameter ASSUMED_CLOCK_HZ (D7), less one. -/
opaque Config.clockLessOne : Fin 4294967295

/-- OPEN parameter SPIN_ITER_CYCLES (D8). -/
opaque Config.spinIterCycles : Nat

/-- OPEN parameter POWERUP_DELAY (D19). -/
opaque Config.powerupDelay : Nat

/-- OPEN parameter PinMap (D10): the entry of a line identifier. -/
opaque Config.pinEntry : Nat → PinEntry

/-- OPEN parameter GLYPH (D33): byte k of entry e. -/
opaque Config.glyphByte : Nat → Nat → Byte

/-- Free value: COM_PINS for a height the table of R97 has no value for (assumption 31). -/
opaque Config.otherComPins : Nat → Byte

/-- Free value: the level of `S.scl_out` at reset (U10, R30). -/
opaque Config.resetScl : Level

/-- Free value: the level of `S.sda_out` at reset (U10, R30). -/
opaque Config.resetSda : Level

/-- Free value: framebuffer byte i at reset (U11, R34). -/
opaque Config.resetFb : Nat → Byte

/-- Free value: the level the environment contributes to SDA at the n-th volatile read (U12, D37). -/
opaque Config.envSda : Nat → Level

/-- Free value: the wire level while BM drives 1 and a device pulls 0 under push_pull, at the n-th volatile read (U13). -/
opaque Config.contention : Nat → Level

/-- Free value: the word a volatile Register Access read finds, but for the bit of the sampled line (R58). -/
opaque Config.portWord : Nat → Word

/-- CMDS at its defaults (R96, from general knowledge; assumption 24). -/
def Config.cmds : Cmds where
  displayOff       := 0xAE
  setClockDiv      := 0xD5
  setMultiplex     := 0xA8
  setDisplayOffset := 0xD3
  setStartLine     := 0x40
  chargePump       := 0x8D
  setAddrMode      := 0x20
  segRemap         := 0xA0
  comScanDir       := 0xC0
  setComPins       := 0xDA
  setContrast      := 0x81
  setPrecharge     := 0xD9
  setVcomDetect    := 0xDB
  displayResume    := 0xA4
  normalDisplay    := 0xA6
  invertDisplay    := 0xA7
  displayOn        := 0xAF
  setColumnAddr    := 0x21
  setPageAddr      := 0x22

/-- COM_PINS at its default, by HEIGHT (R97, from general knowledge; assumption 24). -/
def Config.comPins (height : Nat) : Byte :=
  if height = 64 then 0x12
  else if height = 32 then 0x02
  else Config.otherComPins height

/-- INIT_PARAMS at its defaults for a HEIGHT (R97, from general knowledge; assumption 24). -/
def Config.init (height : Nat) : InitParams where
  clockDiv           := 0x80
  chargePumpOn       := 0x14
  addrModeHorizontal := 0x00
  segRemapR          := 1
  comScanD           := 1
  comPins            := Config.comPins height
  initContrast       := 0xCF
  precharge          := 0xF1
  vcomDetect         := 0x40

/-- R8's defaults for a HEIGHT, and a free value for every OPEN parameter. -/
def Config.paramsAt (height : Nat) : Params where
  clockLessOne   := Config.clockLessOne
  spinIterCycles := Config.spinIterCycles
  pinCount       := 32
  pinMap         := []
  padMode        := .openDrain
  width          := 128
  height         := height
  displayBusHz   := 400000
  powerupDelay   := Config.powerupDelay
  cmds           := Config.cmds
  init           := Config.init height
  glyph          := (List.range 95).map fun e => (List.range 5).map (Config.glyphByte e)
  printableLo    := 0x20
  printableHi    := 0x7E
  newline        := 0x0A
  displayAddr    := 0x3C

/-- The configuration the machine has at `State.reset`: R8's defaults, HEIGHT 64 (D16) among them. No rule uses it: every rule reads the
record the state carries (assumption 6). -/
def Config.params : Params := Config.paramsAt 64

end Sys2Proof
end

