-- ==== Sys2Proof/Syntax.lean ====
section
/-!
DEFINITION. The instruction syntax: one constructor per row of spec/opcode_table.json (R105), in the table's order.
The 17 rows of format OP are the host's operations (R83); the UOP, ADDR, CTRL and CMD rows are what an operation is made
of: the micro-operations (R84) and the bytes and commands that BM and DD put on the wire (R93, R94, R96).
-/

namespace Sys2Proof

/-- The two lines of the bus (R10). -/
inductive Line where
  | scl
  | sda
deriving DecidableEq, Repr

/-- The seven formats of the opcode table (R105): each is a code space of its own. -/
inductive Format where
  | op
  | uop
  | addr
  | ctrl
  | cmd1
  | cmd2
  | cmd3
deriving DecidableEq, Repr

/-- One constructor per row of the opcode table. A line identifier is a natural number (R82 gives `0 .. PIN_COUNT-1`, and
PIN_COUNT is a parameter); every other operand has the width R82 gives it. -/
inductive Instr where
  /-- CONFIGURE, R130 -/
  | configure (clockLine dataLine : Nat) (frequency : Word)
  /-- START, R135 -/
  | start
  /-- STOP, R136 -/
  | stop
  /-- WRITE_BYTE, R137 -/
  | writeByte (b : Byte)
  /-- READ_BYTE, R139 -/
  | readByte (sendAck : Bool)
  /-- WRITE, R140 -/
  | write (address : Addr7) (payload : List Byte)
  /-- WRITE_REGISTER, R142 -/
  | writeRegister (address : Addr7) (register : Byte) (payload : List Byte)
  /-- INITIALIZE, R163: the fields of its `config` operand -/
  | initDisplay (address : Addr7) (clockLine dataLine : Nat)
  /-- CLEAR, R200 -/
  | clear
  /-- FLUSH, R167 -/
  | flush
  /-- SET_PIXEL, R202 -/
  | setPixel (x y : Word) (on : Bool)
  /-- DRAW_GLYPH, R205 -/
  | drawGlyph (x y ch : Word)
  /-- DRAW_TEXT, R208 -/
  | drawText (x y : Word) (text : List Word)
  /-- FILL_RECT, R211 -/
  | fillRect (x y w h : Word) (on : Bool)
  /-- SET_CONTRAST, R171 -/
  | setContrast (level : Byte)
  /-- SET_POWER, R172 -/
  | setPower (on : Bool)
  /-- SET_INVERTED, R173 -/
  | setInverted (on : Bool)
  /-- micro-operation SETLINE, R111 -/
  | setline (line : Line) (v : Level)
  /-- micro-operation SAMPLE (its line is always SDA), R113 -/
  | sample
  /-- micro-operation DELAY, R114 -/
  | delay
  /-- micro-operation PINMODE, R116 -/
  | pinmode (id : Nat)
  /-- micro-operation POWERUP_WAIT, R162 -/
  | powerupWait
  /-- address byte, direction 0, R93 -/
  | addrWrite (a : Addr7)
  /-- address byte, direction 1, R93 -/
  | addrRead (a : Addr7)
  /-- control prefix 0x80, R94 -/
  | ctrlCommand
  /-- control prefix 0x40, R94 -/
  | ctrlDataStream
  /-- display commands, R96: CMD1 has no parameter byte, CMD2 one, CMD3 two -/
  | cmdsDisplayOff
  | cmdsSetClockDiv (p : Byte)
  | cmdsSetMultiplex (p : Byte)
  | cmdsSetDisplayOffset (p : Byte)
  | cmdsSetStartLine (l : BitVec 6)
  | cmdsChargePump (p : Byte)
  | cmdsSetAddrMode (p : Byte)
  | cmdsSegRemap (r : BitVec 1)
  | cmdsComScanDir (d : BitVec 1)
  | cmdsSetComPins (p : Byte)
  | cmdsSetContrast (p : Byte)
  | cmdsSetPrecharge (p : Byte)
  | cmdsSetVcomDetect (p : Byte)
  | cmdsDisplayResume
  | cmdsNormalDisplay
  | cmdsInvertDisplay
  | cmdsDisplayOn
  | cmdsSetColumnAddr (p1 p2 : Byte)
  | cmdsSetPageAddr (p1 p2 : Byte)
deriving DecidableEq, Repr

end Sys2Proof
end

