-- ==== Sys2Proof/WellFormed.lean ====
section
/-!
DEFINITION. Which instruction terms are well formed, and the format (code space) of each.
Every operand but a line identifier is bounded by its type; a line identifier is a Nat and must fit the 32 bits that the
model's request packing gives it (assumption 1). That it is below PIN_COUNT depends on the configuration and is checked
where the spec checks it, in CONFIGURE (R132).
-/

namespace Sys2Proof

/-- A line identifier fits the 32-bit field of the request packing. -/
def lineFits (id : Nat) : Bool := id < 2 ^ 32

/-- The well-formedness check, one arm per constructor. -/
def Instr.wf : Instr → Bool
  | .configure c d _ => lineFits c && lineFits d
  | .start => true
  | .stop => true
  | .writeByte _ => true
  | .readByte _ => true
  | .write _ _ => true
  | .writeRegister _ _ _ => true
  | .initDisplay _ c d => lineFits c && lineFits d
  | .clear => true
  | .flush => true
  | .setPixel _ _ _ => true
  | .drawGlyph _ _ _ => true
  | .drawText _ _ _ => true
  | .fillRect _ _ _ _ _ => true
  | .setContrast _ => true
  | .setPower _ => true
  | .setInverted _ => true
  | .setline _ _ => true
  | .sample => true
  | .delay => true
  | .pinmode id => lineFits id
  | .powerupWait => true
  | .addrWrite _ => true
  | .addrRead _ => true
  | .ctrlCommand => true
  | .ctrlDataStream => true
  | .cmdsDisplayOff => true
  | .cmdsSetClockDiv _ => true
  | .cmdsSetMultiplex _ => true
  | .cmdsSetDisplayOffset _ => true
  | .cmdsSetStartLine _ => true
  | .cmdsChargePump _ => true
  | .cmdsSetAddrMode _ => true
  | .cmdsSegRemap _ => true
  | .cmdsComScanDir _ => true
  | .cmdsSetComPins _ => true
  | .cmdsSetContrast _ => true
  | .cmdsSetPrecharge _ => true
  | .cmdsSetVcomDetect _ => true
  | .cmdsDisplayResume => true
  | .cmdsNormalDisplay => true
  | .cmdsInvertDisplay => true
  | .cmdsDisplayOn => true
  | .cmdsSetColumnAddr _ _ => true
  | .cmdsSetPageAddr _ _ => true

/-- The format of the table row a constructor stands for (R105). -/
def Instr.format : Instr → Format
  | .configure _ _ _ => .op
  | .start => .op
  | .stop => .op
  | .writeByte _ => .op
  | .readByte _ => .op
  | .write _ _ => .op
  | .writeRegister _ _ _ => .op
  | .initDisplay _ _ _ => .op
  | .clear => .op
  | .flush => .op
  | .setPixel _ _ _ => .op
  | .drawGlyph _ _ _ => .op
  | .drawText _ _ _ => .op
  | .fillRect _ _ _ _ _ => .op
  | .setContrast _ => .op
  | .setPower _ => .op
  | .setInverted _ => .op
  | .setline _ _ => .uop
  | .sample => .uop
  | .delay => .uop
  | .pinmode _ => .uop
  | .powerupWait => .uop
  | .addrWrite _ => .addr
  | .addrRead _ => .addr
  | .ctrlCommand => .ctrl
  | .ctrlDataStream => .ctrl
  | .cmdsDisplayOff => .cmd1
  | .cmdsSetClockDiv _ => .cmd2
  | .cmdsSetMultiplex _ => .cmd2
  | .cmdsSetDisplayOffset _ => .cmd2
  | .cmdsSetStartLine _ => .cmd1
  | .cmdsChargePump _ => .cmd2
  | .cmdsSetAddrMode _ => .cmd2
  | .cmdsSegRemap _ => .cmd1
  | .cmdsComScanDir _ => .cmd1
  | .cmdsSetComPins _ => .cmd2
  | .cmdsSetContrast _ => .cmd2
  | .cmdsSetPrecharge _ => .cmd2
  | .cmdsSetVcomDetect _ => .cmd2
  | .cmdsDisplayResume => .cmd1
  | .cmdsNormalDisplay => .cmd1
  | .cmdsInvertDisplay => .cmd1
  | .cmdsDisplayOn => .cmd1
  | .cmdsSetColumnAddr _ _ => .cmd3
  | .cmdsSetPageAddr _ _ => .cmd3

end Sys2Proof
end

