-- ==== Sys2Proof/Decode.lean ====
section
/-!
DEFINITION. The decoder and the encoder. Codes and bit patterns are spec/opcode_table.json's (R83, R84, R93, R94, R96).
The spec defines no packing of an operation's operands (R80); the packing here is the model's own (assumption 1):
after the code byte come the operands in the order of R83; a word or line identifier is four bytes, least significant first;
an addr7, byte or level is one byte; a bool is 0x00 or 0x01; a sequence is, for each element, a mark 0x01 and the element,
and at the end a mark 0x00. There is one decoder per format, never one across formats (R105).
-/

namespace Sys2Proof

/-- Why bytes are not an instruction of a format. -/
inductive DecodeError where
  /-- the bytes end inside the instruction -/
  | truncated
  /-- the first byte is no code of the format (R85) -/
  | illegalCode (code : Byte)
  /-- a bool or level byte other than 0x00 and 0x01 -/
  | badBool (b : Byte)
  /-- a bus address byte of 128 or more (R93, U6) -/
  | badAddress (b : Byte)
  /-- a sequence mark other than 0x00 and 0x01 -/
  | badMark (b : Byte)
  /-- bytes left over after a request -/
  | trailing
deriving DecidableEq, Repr

/-- What reading from a byte list gives: a value and the bytes after it, or the reason there is none. -/
abbrev Parse (α : Type) := Except DecodeError (α × List Byte)

/-- Read a value, then go on with it and the bytes after it. -/
def followedBy {α β : Type} (p : Parse α) (k : α → List Byte → Parse β) : Parse β :=
  match p with
  | .ok (a, rest) => k a rest
  | .error e => .error e

/-! ## Operand fields -/

/-- The four bytes of a word, least significant first. -/
def wordBytes (w : Word) : List Byte :=
  [w.extractLsb' 0 8, w.extractLsb' 8 8, w.extractLsb' 16 8, w.extractLsb' 24 8]

/-- The word of four bytes, `a` least significant. -/
def wordOf (a b c d : Byte) : Word := d ++ c ++ b ++ a

/-- The byte of a bool or level (R10: `true` is 1). -/
def boolByte (b : Bool) : Byte := if b then 1 else 0

/-- The byte that names a line in SETLINE's operand. -/
def lineByte : Line → Byte
  | .scl => 0
  | .sda => 1

/-- A sequence of bytes with its marks. -/
def bytesField : List Byte → List Byte
  | [] => [0]
  | b :: bs => 1 :: b :: bytesField bs

/-- A text with its marks. -/
def textField : List Word → List Byte
  | [] => [0]
  | c :: cs => 1 :: (wordBytes c ++ textField cs)

def takeByte : List Byte → Parse Byte
  | [] => .error .truncated
  | b :: rest => .ok (b, rest)

def takeWord : List Byte → Parse Word
  | a :: b :: c :: d :: rest => .ok (wordOf a b c d, rest)
  | _ => .error .truncated

/-- A line identifier: four bytes, read as a number. -/
def takeLine (bs : List Byte) : Parse Nat :=
  followedBy (takeWord bs) fun w rest => .ok (w.toNat, rest)

/-- An addr7: one byte; 128 or more is refused, never cut to 7 bits (R93). -/
def takeAddr : List Byte → Parse Addr7
  | [] => .error .truncated
  | b :: rest => if b.toNat < 128 then .ok (b.setWidth 7, rest) else .error (.badAddress b)

def takeBool : List Byte → Parse Bool
  | [] => .error .truncated
  | b :: rest => if b = 0 then .ok (false, rest) else if b = 1 then .ok (true, rest) else .error (.badBool b)

def takeBytes : List Byte → Parse (List Byte)
  | [] => .error .truncated
  | [m] => if m = 0 then .ok ([], []) else if m = 1 then .error .truncated else .error (.badMark m)
  | m :: b :: rest =>
    if m = 0 then .ok ([], b :: rest)
    else if m = 1 then
      match takeBytes rest with
      | .ok (bs, r) => .ok (b :: bs, r)
      | .error e => .error e
    else .error (.badMark m)

def takeText : List Byte → Parse (List Word)
  | m :: a :: b :: c :: d :: rest =>
    if m = 0 then .ok ([], a :: b :: c :: d :: rest)
    else if m = 1 then
      match takeText rest with
      | .ok (cs, r) => .ok (wordOf a b c d :: cs, r)
      | .error e => .error e
    else .error (.badMark m)
  | m :: rest => if m = 0 then .ok ([], rest) else if m = 1 then .error .truncated else .error (.badMark m)
  | [] => .error .truncated

/-! ## The decoders, one per format -/

/-- Format OP (R83, R85). -/
def decodeOp (c : Byte) (bs : List Byte) : Parse Instr :=
  if c = 0x01 then
    followedBy (takeLine bs) fun cl bs =>
    followedBy (takeLine bs) fun dl bs =>
    followedBy (takeWord bs) fun f bs =>
    .ok (.configure cl dl f, bs)
  else if c = 0x02 then .ok (.start, bs)
  else if c = 0x03 then .ok (.stop, bs)
  else if c = 0x04 then
    followedBy (takeByte bs) fun b bs =>
    .ok (.writeByte b, bs)
  else if c = 0x05 then
    followedBy (takeBool bs) fun a bs =>
    .ok (.readByte a, bs)
  else if c = 0x06 then
    followedBy (takeAddr bs) fun a bs =>
    followedBy (takeBytes bs) fun p bs =>
    .ok (.write a p, bs)
  else if c = 0x07 then
    followedBy (takeAddr bs) fun a bs =>
    followedBy (takeByte bs) fun r bs =>
    followedBy (takeBytes bs) fun p bs =>
    .ok (.writeRegister a r p, bs)
  else if c = 0x10 then
    followedBy (takeAddr bs) fun a bs =>
    followedBy (takeLine bs) fun cl bs =>
    followedBy (takeLine bs) fun dl bs =>
    .ok (.initDisplay a cl dl, bs)
  else if c = 0x11 then .ok (.clear, bs)
  else if c = 0x12 then .ok (.flush, bs)
  else if c = 0x13 then
    followedBy (takeWord bs) fun x bs =>
    followedBy (takeWord bs) fun y bs =>
    followedBy (takeBool bs) fun on bs =>
    .ok (.setPixel x y on, bs)
  else if c = 0x14 then
    followedBy (takeWord bs) fun x bs =>
    followedBy (takeWord bs) fun y bs =>
    followedBy (takeWord bs) fun ch bs =>
    .ok (.drawGlyph x y ch, bs)
  else if c = 0x15 then
    followedBy (takeWord bs) fun x bs =>
    followedBy (takeWord bs) fun y bs =>
    followedBy (takeText bs) fun t bs =>
    .ok (.drawText x y t, bs)
  else if c = 0x16 then
    followedBy (takeWord bs) fun x bs =>
    followedBy (takeWord bs) fun y bs =>
    followedBy (takeWord bs) fun w bs =>
    followedBy (takeWord bs) fun h bs =>
    followedBy (takeBool bs) fun on bs =>
    .ok (.fillRect x y w h on, bs)
  else if c = 0x17 then
    followedBy (takeByte bs) fun l bs =>
    .ok (.setContrast l, bs)
  else if c = 0x18 then
    followedBy (takeBool bs) fun on bs =>
    .ok (.setPower on, bs)
  else if c = 0x19 then
    followedBy (takeBool bs) fun on bs =>
    .ok (.setInverted on, bs)
  else .error (.illegalCode c)

/-- The operand of SETLINE's line: 0x00 is SCL, 0x01 is SDA. -/
def lineOf (b : Bool) : Line := if b then .sda else .scl

/-- Format UOP (R84). -/
def decodeUop (c : Byte) (bs : List Byte) : Parse Instr :=
  if c = 0x20 then
    followedBy (takeBool bs) fun l bs =>
    followedBy (takeBool bs) fun v bs =>
    .ok (.setline (lineOf l) v, bs)
  else if c = 0x21 then .ok (.sample, bs)
  else if c = 0x22 then .ok (.delay, bs)
  else if c = 0x23 then
    followedBy (takeLine bs) fun id bs =>
    .ok (.pinmode id, bs)
  else if c = 0x24 then .ok (.powerupWait, bs)
  else .error (.illegalCode c)

/-- Format ADDR (R93): bits 7 to 1 are the address, bit 0 the direction. -/
def decodeAddr (c : Byte) (bs : List Byte) : Parse Instr :=
  if c.getLsbD 0 then .ok (.addrRead (c.extractLsb' 1 7), bs) else .ok (.addrWrite (c.extractLsb' 1 7), bs)

/-- Format CTRL (R94). -/
def decodeCtrl (c : Byte) (bs : List Byte) : Parse Instr :=
  if c = 0x80 then .ok (.ctrlCommand, bs)
  else if c = 0x40 then .ok (.ctrlDataStream, bs)
  else .error (.illegalCode c)

/-- Format CMD1 (R96). -/
def decodeCmd1 (c : Byte) (bs : List Byte) : Parse Instr :=
  if c = 0xAE then .ok (.cmdsDisplayOff, bs)
  else if c &&& 0xC0 = 0x40 then .ok (.cmdsSetStartLine (c.extractLsb' 0 6), bs)
  else if c &&& 0xFE = 0xA0 then .ok (.cmdsSegRemap (c.extractLsb' 0 1), bs)
  else if c &&& 0xF7 = 0xC0 then .ok (.cmdsComScanDir (c.extractLsb' 3 1), bs)
  else if c = 0xA4 then .ok (.cmdsDisplayResume, bs)
  else if c = 0xA6 then .ok (.cmdsNormalDisplay, bs)
  else if c = 0xA7 then .ok (.cmdsInvertDisplay, bs)
  else if c = 0xAF then .ok (.cmdsDisplayOn, bs)
  else .error (.illegalCode c)

/-- Which CMD2 command a code is (R96). -/
def cmd2Of (c p : Byte) : Option Instr :=
  if c = 0xD5 then some (.cmdsSetClockDiv p)
  else if c = 0xA8 then some (.cmdsSetMultiplex p)
  else if c = 0xD3 then some (.cmdsSetDisplayOffset p)
  else if c = 0x8D then some (.cmdsChargePump p)
  else if c = 0x20 then some (.cmdsSetAddrMode p)
  else if c = 0xDA then some (.cmdsSetComPins p)
  else if c = 0x81 then some (.cmdsSetContrast p)
  else if c = 0xD9 then some (.cmdsSetPrecharge p)
  else if c = 0xDB then some (.cmdsSetVcomDetect p)
  else none

/-- Format CMD2 (R96): the opcode and one parameter byte. -/
def decodeCmd2 (c : Byte) (bs : List Byte) : Parse Instr :=
  match cmd2Of c 0, bs with
  | none, _ => .error (.illegalCode c)
  | some _, [] => .error .truncated
  | some i, p :: rest => .ok ((cmd2Of c p).getD i, rest)

/-- Format CMD3 (R96): the opcode and two parameter bytes. -/
def decodeCmd3 (c : Byte) (bs : List Byte) : Parse Instr :=
  if c = 0x21 then
    followedBy (takeByte bs) fun p1 bs =>
    followedBy (takeByte bs) fun p2 bs =>
    .ok (.cmdsSetColumnAddr p1 p2, bs)
  else if c = 0x22 then
    followedBy (takeByte bs) fun p1 bs =>
    followedBy (takeByte bs) fun p2 bs =>
    .ok (.cmdsSetPageAddr p1 p2, bs)
  else .error (.illegalCode c)

/-- The decoder of a format: total on any bytes. -/
def decode (f : Format) : List Byte → Parse Instr
  | [] => .error .truncated
  | c :: bs =>
    match f with
    | .op => decodeOp c bs
    | .uop => decodeUop c bs
    | .addr => decodeAddr c bs
    | .ctrl => decodeCtrl c bs
    | .cmd1 => decodeCmd1 c bs
    | .cmd2 => decodeCmd2 c bs
    | .cmd3 => decodeCmd3 c bs

/-- A host's request (R80): one operation of format OP, with nothing after it. -/
def decodeRequest (bs : List Byte) : Except DecodeError Instr :=
  match decode .op bs with
  | .error e => .error e
  | .ok (i, []) => .ok i
  | .ok (_, _ :: _) => .error .trailing

/-! ## The encoder -/

/-- The bytes of an instruction: its code (R83, R84, R93, R94, R96) and its operands. -/
def encode : Instr → List Byte
  | .configure c d f => 0x01 :: (wordBytes (BitVec.ofNat 32 c) ++ (wordBytes (BitVec.ofNat 32 d) ++ wordBytes f))
  | .start => [0x02]
  | .stop => [0x03]
  | .writeByte b => [0x04, b]
  | .readByte a => [0x05, boolByte a]
  | .write a p => 0x06 :: a.setWidth 8 :: bytesField p
  | .writeRegister a r p => 0x07 :: a.setWidth 8 :: r :: bytesField p
  | .initDisplay a c d => 0x10 :: a.setWidth 8 :: (wordBytes (BitVec.ofNat 32 c) ++ wordBytes (BitVec.ofNat 32 d))
  | .clear => [0x11]
  | .flush => [0x12]
  | .setPixel x y on => 0x13 :: (wordBytes x ++ (wordBytes y ++ [boolByte on]))
  | .drawGlyph x y ch => 0x14 :: (wordBytes x ++ (wordBytes y ++ wordBytes ch))
  | .drawText x y t => 0x15 :: (wordBytes x ++ (wordBytes y ++ textField t))
  | .fillRect x y w h on => 0x16 :: (wordBytes x ++ (wordBytes y ++ (wordBytes w ++ (wordBytes h ++ [boolByte on]))))
  | .setContrast l => [0x17, l]
  | .setPower on => [0x18, boolByte on]
  | .setInverted on => [0x19, boolByte on]
  | .setline l v => [0x20, lineByte l, boolByte v]
  | .sample => [0x21]
  | .delay => [0x22]
  | .pinmode id => 0x23 :: wordBytes (BitVec.ofNat 32 id)
  | .powerupWait => [0x24]
  | .addrWrite a => [a ++ 0#1]
  | .addrRead a => [a ++ 1#1]
  | .ctrlCommand => [0x80]
  | .ctrlDataStream => [0x40]
  | .cmdsDisplayOff => [0xAE]
  | .cmdsSetClockDiv p => [0xD5, p]
  | .cmdsSetMultiplex p => [0xA8, p]
  | .cmdsSetDisplayOffset p => [0xD3, p]
  | .cmdsSetStartLine l => [0b01#2 ++ l]
  | .cmdsChargePump p => [0x8D, p]
  | .cmdsSetAddrMode p => [0x20, p]
  | .cmdsSegRemap r => [0b1010000#7 ++ r]
  | .cmdsComScanDir d => [0b1100#4 ++ d ++ 0b000#3]
  | .cmdsSetComPins p => [0xDA, p]
  | .cmdsSetContrast p => [0x81, p]
  | .cmdsSetPrecharge p => [0xD9, p]
  | .cmdsSetVcomDetect p => [0xDB, p]
  | .cmdsDisplayResume => [0xA4]
  | .cmdsNormalDisplay => [0xA6]
  | .cmdsInvertDisplay => [0xA7]
  | .cmdsDisplayOn => [0xAF]
  | .cmdsSetColumnAddr p1 p2 => [0x21, p1, p2]
  | .cmdsSetPageAddr p1 p2 => [0x22, p1, p2]

/-! ## The opcode table as data, and the host's view of the decoder -/

/-- Mask and match of a constructor's row in spec/opcode_table.json. -/
def Instr.row : Instr → Byte × Byte
  | .configure _ _ _ => (0xFF, 0x01)
  | .start => (0xFF, 0x02)
  | .stop => (0xFF, 0x03)
  | .writeByte _ => (0xFF, 0x04)
  | .readByte _ => (0xFF, 0x05)
  | .write _ _ => (0xFF, 0x06)
  | .writeRegister _ _ _ => (0xFF, 0x07)
  | .initDisplay _ _ _ => (0xFF, 0x10)
  | .clear => (0xFF, 0x11)
  | .flush => (0xFF, 0x12)
  | .setPixel _ _ _ => (0xFF, 0x13)
  | .drawGlyph _ _ _ => (0xFF, 0x14)
  | .drawText _ _ _ => (0xFF, 0x15)
  | .fillRect _ _ _ _ _ => (0xFF, 0x16)
  | .setContrast _ => (0xFF, 0x17)
  | .setPower _ => (0xFF, 0x18)
  | .setInverted _ => (0xFF, 0x19)
  | .setline _ _ => (0xFF, 0x20)
  | .sample => (0xFF, 0x21)
  | .delay => (0xFF, 0x22)
  | .pinmode _ => (0xFF, 0x23)
  | .powerupWait => (0xFF, 0x24)
  | .addrWrite _ => (0x01, 0x00)
  | .addrRead _ => (0x01, 0x01)
  | .ctrlCommand => (0xFF, 0x80)
  | .ctrlDataStream => (0xFF, 0x40)
  | .cmdsDisplayOff => (0xFF, 0xAE)
  | .cmdsSetClockDiv _ => (0xFF, 0xD5)
  | .cmdsSetMultiplex _ => (0xFF, 0xA8)
  | .cmdsSetDisplayOffset _ => (0xFF, 0xD3)
  | .cmdsSetStartLine _ => (0xC0, 0x40)
  | .cmdsChargePump _ => (0xFF, 0x8D)
  | .cmdsSetAddrMode _ => (0xFF, 0x20)
  | .cmdsSegRemap _ => (0xFE, 0xA0)
  | .cmdsComScanDir _ => (0xF7, 0xC0)
  | .cmdsSetComPins _ => (0xFF, 0xDA)
  | .cmdsSetContrast _ => (0xFF, 0x81)
  | .cmdsSetPrecharge _ => (0xFF, 0xD9)
  | .cmdsSetVcomDetect _ => (0xFF, 0xDB)
  | .cmdsDisplayResume => (0xFF, 0xA4)
  | .cmdsNormalDisplay => (0xFF, 0xA6)
  | .cmdsInvertDisplay => (0xFF, 0xA7)
  | .cmdsDisplayOn => (0xFF, 0xAF)
  | .cmdsSetColumnAddr _ _ => (0xFF, 0x21)
  | .cmdsSetPageAddr _ _ => (0xFF, 0x22)

/-- The bytes of a table word: its own bytes, bits 7..0 first, then operand bytes of zeros (the longest instruction whose
operands are all zeros is FILL_RECT, 18 bytes). -/
def tableBytes (nbits w : Nat) : List Byte :=
  ((List.range ((nbits + 7) / 8)).map fun k => BitVec.ofNat 8 (w >>> (8 * k))) ++ List.replicate 18 0

/-- The first of some formats that reads an instruction. -/
def firstDecoded (bs : List Byte) : List Format → Option Instr
  | [] => none
  | f :: fs =>
    match decode f bs with
    | .ok (i, _) => some i
    | .error _ => firstDecoded bs fs

/-- The instruction of a table word. The table's formats are separate code spaces that share byte values (R105), and a table
word does not say its format; the formats are tried in this order (assumption 5). -/
def decodeTableWord (nbits w : Nat) : Option Instr :=
  firstDecoded (tableBytes nbits w) [.op, .uop, .ctrl, .cmd1, .cmd2, .cmd3, .addr]

end Sys2Proof
end

