-- ==== Sys2Proof/Machine/State.lean ====
section
/-!
DEFINITION. The state of BBI2C-DISP (10_state.md), the reasons a step can stop, and the state after reset (R39).
State is plain data. Its first part is the spec's state; its second part is the model's own: the configuration record, the
inputs (what the host presents, what the environment contributes) and the records (trace, Register Access, result).
-/

namespace Sys2Proof.Machine

/-- A state element that may be `unwritten`: the reset value R39 gives it. It then holds no value, and an operation that
reads it is refused (R21). -/
inductive Elem (α : Type) where
  | unwritten
  | written (v : α)
deriving DecidableEq, Repr

/-- One event of a trace (R12). -/
inductive Event where
  /-- SETLINE(L, v) -/
  | setline (line : Line) (v : Level)
  /-- SAMPLE(SDA) = s -/
  | sample (s : Level)
  /-- DELAY -/
  | delay
  /-- PINMODE(id) -/
  | pinmode (id : Nat)
  /-- POWERUP_WAIT -/
  | powerupWait
deriving DecidableEq, Repr

/-- One access of the Register Access port (R56): a whole 32-bit word, at an address of 32 bits (DESIGN CHOICE, log 19). -/
inductive RegAccess where
  /-- MemRead(addr, 4), and the word it found -/
  | read (addr value : Word)
  /-- MemWrite(addr, 4, value) -/
  | write (addr value : Word)
deriving DecidableEq, Repr

/-- What an operation delivers at its `return` (R81, R83); a SAMPLE delivers a level (R113). -/
inductive Result where
  | bool (b : Bool)
  | byte (v : Byte)
  | level (v : Level)
deriving DecidableEq, Repr

/-- What a host may do (R270): present a request, or write a framebuffer byte between operations. -/
inductive HostAct where
  /-- a request, in the model's packing (Decode.lean) -/
  | request (bytes : List Byte)
  /-- FB[index] ← value, done by the host itself -/
  | writeFb (index : Nat) (value : Byte)
deriving DecidableEq, Repr

/-- The sequencer position (R25): `idle`, or an operation in progress with the index of its next micro-operation in its trace,
and the pieces of it that are still to be performed. -/
inductive Seq where
  | idle
  | running (op : Byte) (pos : Nat) (todo : List Instr)
deriving DecidableEq, Repr

/-- The working registers (R24). Outside an operation all are `unwritten`: dead. -/
structure Work where
  shreg  : Elem Byte
  bitidx : Elem (Fin 8)
  ackbit : Elem Level
  k      : Elem Nat
  cx     : Elem Word
  cy     : Elem Word
  col    : Elem Nat
  row    : Elem Nat
  dx     : Elem Nat
  dy     : Elem Nat
deriving DecidableEq, Repr

/-- The working registers outside an operation (R24, R39). -/
def Work.dead : Work :=
  ⟨.unwritten, .unwritten, .unwritten, .unwritten, .unwritten, .unwritten, .unwritten, .unwritten, .unwritten, .unwritten⟩

/-- A byte memory in canonical form: `cells` lists, by rising address, the bytes that differ from what an unlisted address
reads as; `init` is what unlisted addresses read as, the contents the memory had at reset (R34). -/
structure Memory where
  init  : List Byte
  cells : List Host.Cell
deriving DecidableEq, Repr

structure State where
  /-- sequencer position, R25 -/
  seq         : Seq
  /-- working registers, R24 -/
  work        : Work
  /-- `S.scl_id`, R26 -/
  sclId       : Elem Nat
  /-- `S.sda_id`, R27 -/
  sdaId       : Elem Nat
  /-- `S.delay`, R28 -/
  delay       : Elem Word
  /-- `S.configured`, R29 -/
  configured  : Bool
  /-- `S.scl_out`, R30 -/
  sclOut      : Level
  /-- `S.sda_out`, R30 -/
  sdaOut      : Level
  /-- `S.in_txn`, R31 -/
  inTxn       : Bool
  /-- `S.disp_addr`, R32 -/
  dispAddr    : Elem Addr7
  /-- `S.initialized`, R33 -/
  initialized : Bool
  /-- the framebuffer FB, R34, R51 -/
  fb          : Memory
  /-- the model's own: the configuration record (R8); nothing writes it -/
  cfg         : Params
  /-- the model's own, an input: what the host presents, the next act first (R270) -/
  host        : List HostAct
  /-- the model's own, an input: the levels the environment will contribute to SDA at the next SAMPLEs (R119) -/
  env         : List Level
  /-- the model's own: how many volatile reads were made; the index of the next free values -/
  draws       : Nat
  /-- the model's own, a record: the events so far, oldest first (R12) -/
  trace       : List Event
  /-- the model's own, a record: the Register Access accesses so far, oldest first (R56) -/
  port        : List RegAccess
  /-- the model's own: what the last operation delivered to its caller (R81) -/
  ret         : Option Result
deriving DecidableEq, Repr

/-- What can stop the machine with a fault: nothing. The hardware has no fault outcome (R231, R233), and 93_implementation_defined.md
treats no behaviour as one, so this type has no constructor. -/
inductive Fault where
deriving DecidableEq, Repr

/-- Why the model gives a call no meaning (R233): the treatment `refuse` of 93_implementation_defined.md. No refusal changes
any state. Every one is safe: the model stops where the hardware would do something. -/
inductive Refusal where
  /-- Raised by an arm of `exec` for an instruction that has no meaning yet. Safe. -/
  | notModelled (mnemonic : String)
  /-- U1, R29: a bus operation while `S.configured = 0`. Raised by the guards of the BM and CMD meanings. Safe. -/
  | notConfigured
  /-- R21: an element that is `unwritten` is read. Raised by the guards of every meaning that reads one. Safe. -/
  | unwrittenElement (name : String)
  /-- U2, R175: FLUSH, SET_CONTRAST, SET_POWER or SET_INVERTED while `S.initialized = 0`. Safe. -/
  | notInitialized
  /-- U3, R166: INITIALIZE while `S.initialized = 1`. Safe. -/
  | alreadyInitialized
  /-- U4, R132: CONFIGURE with frequency 0 (INITIALIZE with the parameter DISPLAY_BUS_HZ 0). Safe. -/
  | zeroFrequency
  /-- U5, R132: a line identifier not below PIN_COUNT, in CONFIGURE, INITIALIZE or PINMODE. Safe. -/
  | lineOutOfRange (id : Nat)
  /-- U5, R132: equal line identifiers, in CONFIGURE or INITIALIZE. Safe. -/
  | equalLines (id : Nat)
  /-- U6, U7, R85, R93: a request that is no operation. Raised by the sequencer. Safe. -/
  | badRequest (why : DecodeError)
  /-- U8, R271: a request, or a host's framebuffer write, while an operation runs. Safe. -/
  | busy
  /-- U9, R204: a rendering request in which a coordinate sum leaves the signed 32 bits. Safe. -/
  | coordinateOverflow
  /-- The model's own (log 18): the host's own framebuffer write at an index that is no framebuffer index (R51). Raised by
  `Sequencer.hostWrite`. Safe. -/
  | noSuchFbByte (index : Nat)
  /-- R9: a configuration that breaks a constraint. Raised by the sequencer. Safe. -/
  | badConfiguration
deriving DecidableEq, Repr

/-- The outcome of an instruction. -/
abbrev Outcome := Host.Outcome State Fault Refusal

/-- The state right after reset, for a configuration (R39, R260). -/
def State.resetWith (cfg : Params) : State where
  seq         := .idle
  work        := Work.dead
  sclId       := .unwritten
  sdaId       := .unwritten
  delay       := .unwritten
  configured  := false
  sclOut      := Config.resetScl
  sdaOut      := Config.resetSda
  inTxn       := false
  dispAddr    := .unwritten
  initialized := false
  fb          := ⟨(List.range (cfg.width * cfg.height / 8)).map Config.resetFb, []⟩
  cfg         := cfg
  host        := []
  env         := []
  draws       := 0
  trace       := []
  port        := []
  ret         := none

/-- The machine right after reset, with the configuration `Config.params`. -/
def State.reset : State := State.resetWith Config.params

end Sys2Proof.Machine
end

