-- ==== Sys2Proof/Machine/Operands.lean ====
section
/-!
DEFINITION. Everything computed from an operand or a parameter: the constraints of R9, the framebuffer geometry (R51, R52), the
coordinate arithmetic (R204, R214), the glyph lookup (R205, R207) and every transmitted byte (R101).
-/

namespace Sys2Proof.Machine

/-! ## Parameters -/

/-- FB_SIZE = WIDTH * HEIGHT / 8 (R51). -/
def fbSize (c : Params) : Nat := c.width * c.height / 8

/-- The constraints of R9, which a model checks and refuses otherwise. `DISPLAY_ADDR < 128`, `ASSUMED_CLOCK_HZ < 2^32` and
that ASSUMED_CLOCK_HZ is nonzero (D7) hold by the types. -/
def configOk (c : Params) : Bool :=
  c.height % 8 == 0
    && (decide (1 ≤ c.width) && decide (c.width ≤ 256))
    && (decide (8 ≤ c.height) && decide (c.height ≤ 256))
    && decide (c.printableLo.toNat ≤ c.printableHi.toNat)
    && c.printableHi.toNat - c.printableLo.toNat + 1 == 95
    && c.glyph.length == 95
    && c.glyph.all (fun entry => entry.length == 5)
    && (decide (c.printableLo.toNat ≤ 0x20) && decide (0x20 ≤ c.printableHi.toNat))
    && !(decide (c.printableLo.toNat ≤ c.newline.toNat) && decide (c.newline.toNat ≤ c.printableHi.toNat))

/-- The delay constant (R131): two truncating unsigned divisions, the inner one first. -/
def delayConstant (c : Params) (frequency : Word) : Word := (c.assumedClockHz / frequency) / 4

/-- The duration of one DELAY in processor cycles (R115). No rule depends on it (R280). -/
def delayCycles (c : Params) (delay : Word) : Nat := delay.toNat * c.spinIterCycles

/-- PinMap's entry of a line identifier; where the list gives none it is open. -/
def pinEntry (c : Params) (id : Nat) : PinEntry := (c.pinMap[id]?).getD (Config.pinEntry id)

/-- The hardware address of a word index: a multiple of 4 (R58). DESIGN CHOICE: an address has 32 bits (assumption 19). -/
def wordAddr (a : BitVec 30) : Word := a ++ 0#2

/-! ## Coordinates -/

/-- A coordinate operand as the number it stands for: two's complement (R82). -/
def coord (w : Word) : Int := w.toInt

/-- A coordinate sum is in the range of signed 32 bits (R204). Every sum of R204 adds a non-negative offset, so only the upper
end can be left. -/
def sumFits (v : Int) : Bool := decide (v ≤ 2147483647)

/-- The pixel is inside the display (R53). -/
def inBounds (c : Params) (x y : Int) : Bool :=
  decide (0 ≤ x) && decide (x < c.width) && decide (0 ≤ y) && decide (y < c.height)

/-- The framebuffer index of an in-bounds pixel (R52): x + (y div 8) * WIDTH. -/
def pixelIndex (c : Params) (x y : Int) : Nat := x.toNat + y.toNat / 8 * c.width

/-- The mask of an in-bounds pixel (R52, R202): 1 << (y mod 8). -/
def pixelMask (y : Int) : Byte := 1#8 <<< (y.toNat % 8)

/-! ## Characters -/

/-- A character code is in the printable range (R207). -/
def printable (c : Params) (ch : Word) : Bool :=
  decide (c.printableLo.toNat ≤ ch.toNat) && decide (ch.toNat ≤ c.printableHi.toNat)

/-- The glyph ROM entry of a character (R205, R207): a code outside the printable range is replaced by a space. -/
def glyphEntry (c : Params) (ch : Word) : Nat :=
  (if printable c ch then ch.toNat else 0x20) - c.printableLo.toNat

/-- GLYPH[e][k]: byte k of glyph ROM entry e (R55). -/
def glyphColumn (c : Params) (e k : Nat) : Byte := (c.glyph.getD e []).getD k 0

/-! ## Transmitted bytes (R101) -/

/-- The address byte (R93): the 7-bit address in bits 7 to 1, the direction in bit 0 (0 write, 1 read). -/
def addrByte (a : Addr7) (direction : BitVec 1) : Byte := a ++ direction

/-- A number sent as one command byte; R9 makes each of R101's fit. -/
def paramByte (n : Nat) : Byte := BitVec.ofNat 8 n

/-- The start-line command for a line (R101 (e)). -/
def startLineByte (c : Params) (l : BitVec 6) : Byte := c.cmds.setStartLine + l.setWidth 8

/-- The segment remap command (R101 (f)). -/
def segRemapByte (c : Params) (r : BitVec 1) : Byte := c.cmds.segRemap + r.setWidth 8

/-- The scan direction command (R101 (g)). -/
def comScanByte (c : Params) (d : BitVec 1) : Byte := c.cmds.comScanDir + 8 * d.setWidth 8

/-- SET_POWER's command byte (R172). -/
def powerByte (c : Params) (on : Bool) : Byte := if on then c.cmds.displayOn else c.cmds.displayOff

/-- SET_INVERTED's command byte (R173). -/
def invertByte (c : Params) (on : Bool) : Byte := if on then c.cmds.invertDisplay else c.cmds.normalDisplay

/-- The initialization sequence INIT_SEQ (R164): 25 bytes in exactly this order. -/
def initSeq (c : Params) : List Byte :=
  [ c.cmds.displayOff,
    c.cmds.setClockDiv, c.init.clockDiv,
    c.cmds.setMultiplex, paramByte (c.height - 1),
    c.cmds.setDisplayOffset, 0x00,
    startLineByte c 0,
    c.cmds.chargePump, c.init.chargePumpOn,
    c.cmds.setAddrMode, c.init.addrModeHorizontal,
    segRemapByte c c.init.segRemapR,
    comScanByte c c.init.comScanD,
    c.cmds.setComPins, c.init.comPins,
    c.cmds.setContrast, c.init.initContrast,
    c.cmds.setPrecharge, c.init.precharge,
    c.cmds.setVcomDetect, c.init.vcomDetect,
    c.cmds.displayResume,
    c.cmds.normalDisplay,
    c.cmds.displayOn ]

/-- The window commands of FLUSH (R167): columns 0 to WIDTH-1, pages 0 to HEIGHT/8-1. -/
def windowSeq (c : Params) : List Byte :=
  [ c.cmds.setColumnAddr, 0x00, paramByte (c.width - 1),
    c.cmds.setPageAddr, 0x00, paramByte (c.height / 8 - 1) ]

end Sys2Proof.Machine
end

