-- ==== Sys2Proof/Machine/Flags.lean ====
section
/-!
DEFINITION. The conditions. BBI2C-DISP has no flag and no condition code (R36); the one condition it computes is the
acknowledgment, and the one thing it combines is the wire level a SAMPLE finds.
-/

namespace Sys2Proof.Machine

/-- Acknowledgment is active low (R91): a sampled 0 is an ACK, a sampled 1 a NAK. -/
def ackSeen (s : Level) : Bool := !s

/-- The level of a wire (R87): what BM drives and what the environment contributes. Under push_pull, while BM drives 1 and a
device pulls 0, it is undefined: the free level `open_`. -/
def wireLevel (pad : PadMode) (out env open_ : Level) : Level :=
  match pad with
  | .openDrain => out && env
  | .pushPull => if out && !env then open_ else out

/-- A word with one bit replaced: the word a SAMPLE's MemRead finds, with the line's bit at the wire's level (R113). -/
def withBit (w : Word) (i : Nat) (b : Level) : Word :=
  (w &&& ~~~(1#32 <<< i)) ||| (if b then 1#32 <<< i else 0)

end Sys2Proof.Machine
end

