-- ==== Sys2Proof/Machine/Ops.lean ====
section
/-!
DEFINITION. The named operations over memory and over the state: the framebuffer, the micro-operations (40_line_primitives.md),
the guards of R21, R29 and R264, and the one way an operation of the host begins and returns (R25, R81).
There is no operation that takes an exception and none that returns from one: BBI2C-DISP has neither (R231, R238).
-/

namespace Sys2Proof.Machine

/-! ## Memory -/

/-- What an unlisted address reads as: the unspecified byte it had at reset (R34). -/
def Memory.unlisted (m : Memory) (a : Nat) : Byte := m.init.getD a 0

/-- The listed byte of an address. -/
def findCell (a : Nat) : List Host.Cell → Option Byte
  | [] => none
  | (b, v) :: rest => if b = a then some v else findCell a rest

/-- Put a byte into a sorted list, or, when `keep` is false, take the address out of it. -/
def putCell (a : Nat) (v : Byte) (keep : Bool) : List Host.Cell → List Host.Cell
  | [] => if keep then [(a, v)] else []
  | (b, w) :: rest =>
    if a < b then (if keep then (a, v) :: (b, w) :: rest else (b, w) :: rest)
    else if a = b then (if keep then (a, v) :: rest else rest)
    else (b, w) :: putCell a v keep rest

/-- FB[a] (R54: a read has no side effect and returns the last value written, or the reset value). -/
def Memory.read (m : Memory) (a : Nat) : Byte := (findCell a m.cells).getD (m.unlisted a)

/-- FB[a] ← v. -/
def Memory.write (m : Memory) (a : Nat) (v : Byte) : Memory :=
  { m with cells := putCell a v (decide (v ≠ m.unlisted a)) m.cells }

/-- The canonical form: addresses strictly rising, and no cell equal to what its address reads as when unlisted. -/
abbrev Memory.wf (m : Memory) : Prop :=
  m.cells.Pairwise (fun p q => p.1 < q.1) ∧ ∀ c ∈ m.cells, c.2 ≠ m.unlisted c.1

/-! ## Micro-operations -/

/-- The sequencer position after one micro-operation (R25). -/
def Seq.advance : Seq → Seq
  | .idle => .idle
  | .running op pos todo => .running op (pos + 1) todo

/-- A micro-operation appends its event to the trace (R12) and advances the position (R25). -/
def emit (e : Event) (s : State) : State :=
  { s with trace := s.trace ++ [e], seq := s.seq.advance }

/-- One access that PinMap prescribes. The word a read-modify-write finds is volatile (R58): a free value. -/
def pinAct (s : State) : PinAct → State
  | .write a v => { s with port := s.port ++ [.write (wordAddr a) v] }
  | .modify a keep set =>
    { s with
      port := s.port ++ [.read (wordAddr a) (Config.portWord s.draws),
                         .write (wordAddr a) ((Config.portWord s.draws &&& keep) ||| set)],
      draws := s.draws + 1 }

/-- The accesses of a list, in order. -/
def pinActs (acts : List PinAct) (s : State) : State := acts.foldl pinAct s

/-- The identifier register of a line (R111). -/
def lineId (l : Line) (s : State) : Elem Nat :=
  match l with
  | .scl => s.sclId
  | .sda => s.sdaId

/-- What PinMap prescribes to put a pin at a level: at least one access (R57). -/
def levelActs (p : PinEntry) (v : Level) : List PinAct := if v then p.high :: p.highMore else p.low :: p.lowMore

/-- SETLINE's Register Access. An `unwritten` identifier never gets here: every meaning's guard refuses it. -/
def driveLine (l : Line) (v : Level) (s : State) : State :=
  match lineId l s with
  | .written id => pinActs (levelActs (pinEntry s.cfg id) v) s
  | .unwritten => s

/-- The output latch of a line (R30). -/
def setLatch (l : Line) (v : Level) (s : State) : State :=
  match l with
  | .scl => { s with sclOut := v }
  | .sda => { s with sdaOut := v }

/-- SETLINE (R111). -/
def setLine (l : Line) (v : Level) (s : State) : State := emit (.setline l v) (setLatch l v (driveLine l v s))

/-- The level the environment contributes to SDA at the next SAMPLE (R113, R119): its next contribution, or a free value. -/
def envLevel (s : State) : Level :=
  match s.env with
  | l :: _ => l
  | [] => Config.envSda s.draws

/-- The level of the data wire at the next SAMPLE (R87, R113). -/
def sdaLevel (s : State) : Level := wireLevel s.cfg.padMode s.sdaOut (envLevel s) (Config.contention s.draws)

/-- The word and bit of a SAMPLE: the address read, the word found there, the bit that is the line (R113). -/
def sampleWord (id : Nat) (s : State) : Word :=
  withBit (Config.portWord s.draws) (pinEntry s.cfg id).inBit.val (sdaLevel s)

/-- SAMPLE (R113): exactly one MemRead of the data line's input word, and the line's bit of it. -/
def sample (s : State) : Level × State :=
  let drawn := { s with env := s.env.drop 1, draws := s.draws + 1 }
  match s.sdaId with
  | .written id =>
    let p := pinEntry s.cfg id
    let w := sampleWord id s
    let v := w.getLsbD p.inBit.val
    (v, emit (.sample v) { drawn with port := s.port ++ [.read (wordAddr p.inAddr) w] })
  | .unwritten => (sdaLevel s, emit (.sample (sdaLevel s)) drawn)

/-- DELAY (R114): `S.delay` iterations of nothing, then its event. -/
def delayOp (s : State) : State := emit .delay s

/-- PINMODE (R116): whatever access PinMap prescribes, and its event; no state of the block changes. -/
def pinMode (id : Nat) (s : State) : State := emit (.pinmode id) (pinActs (pinEntry s.cfg id).mode s)

/-- POWERUP_WAIT (R162). -/
def powerupWaitOp (s : State) : State := emit .powerupWait s

/-! ## The working registers (R24): each is written where the pseudocode writes it -/

/-- The working register `bitidx` (R24). -/
def setBitidx (n : Nat) (s : State) : State := { s with work := { s.work with bitidx := .written (Fin.ofNat 8 n) } }

/-- The working register `shreg` (R24). -/
def setShreg (b : Byte) (s : State) : State := { s with work := { s.work with shreg := .written b } }

/-- The working register `ackbit` (R24). -/
def setAckbit (v : Level) (s : State) : State := { s with work := { s.work with ackbit := .written v } }

/-- The working register `k` (R24). -/
def setK (k : Nat) (s : State) : State := { s with work := { s.work with k := .written k } }

/-- The cursor `cx`, `cy` of DRAW_TEXT (R24, R208). -/
def setCursor (cx cy : Int) (s : State) : State :=
  { s with work := { s.work with cx := .written (BitVec.ofInt 32 cx), cy := .written (BitVec.ofInt 32 cy) } }

/-- The loop counter `col` of DRAW_GLYPH (R24, R205). -/
def setCol (n : Nat) (s : State) : State := { s with work := { s.work with col := .written n } }

/-- The loop counter `row` of DRAW_GLYPH (R24, R205). -/
def setRow (n : Nat) (s : State) : State := { s with work := { s.work with row := .written n } }

/-- The loop counter `dx` of FILL_RECT (R24, R211). -/
def setDx (n : Nat) (s : State) : State := { s with work := { s.work with dx := .written n } }

/-- The loop counter `dy` of FILL_RECT (R24, R211). -/
def setDy (n : Nat) (s : State) : State := { s with work := { s.work with dy := .written n } }

/-! ## Guards: what must be true before an operation (R264) -/

/-- An element is written, or the refusal of R21. -/
def needWritten {α : Type} (name : String) (e : Elem α) : Option Refusal :=
  match e with
  | .written _ => none
  | .unwritten => some (.unwrittenElement name)

/-- The first refusal of two checks. -/
def firstRefusal (a b : Option Refusal) : Option Refusal :=
  match a with
  | some r => some r
  | none => b

/-- The guard of every bus operation (R29, R21): configured, and the three elements a SETLINE, SAMPLE and DELAY read written. -/
def busGuard (s : State) : Option Refusal :=
  firstRefusal (if s.configured then none else some .notConfigured)
    (firstRefusal (needWritten "S.scl_id" s.sclId)
      (firstRefusal (needWritten "S.sda_id" s.sdaId) (needWritten "S.delay" s.delay)))

/-- The guard of CMD (R160): it reads `S.disp_addr` and uses the bus. -/
def cmdGuard (s : State) : Option Refusal := firstRefusal (needWritten "S.disp_addr" s.dispAddr) (busGuard s)

/-- The guard of FLUSH, SET_CONTRAST, SET_POWER and SET_INVERTED (R175, R236): `S.initialized` first. -/
def displayGuard (s : State) : Option Refusal :=
  firstRefusal (if s.initialized then none else some .notInitialized) (cmdGuard s)

/-! ## Beginning and returning (R25, R81) -/

/-- An operation begins: the sequencer leaves `idle`; no result is on the port. -/
def beginOp (opc : Byte) (s : State) : State := { s with seq := .running opc 0 [], work := Work.dead, ret := none }

/-- `return`: the sequencer is `idle` again, the working registers are dead (R24), the result is delivered (R81). -/
def returnOp (r : Option Result) (s : State) : State := { s with seq := .idle, work := Work.dead, ret := r }

/-- A host's operation: refused while another one runs (R271), refused by its guard before any state is written (R236), else
run from its first micro-operation to its return. -/
def runOp (opc : Byte) (guard : Option Refusal) (body : State → Option Result × State) (s : State) : Outcome :=
  match s.seq with
  | .running _ _ _ => .refused .busy
  | .idle =>
    match guard with
    | some r => .refused r
    | none => .next (returnOp (body (beginOp opc s)).1 (body (beginOp opc s)).2)

/-- A piece of an operation, performed by the sequencer: refused by its guard, else its effect and what it delivers. -/
def runPiece (guard : Option Refusal) (body : State → Option Result × State) (s : State) : Outcome :=
  match guard with
  | some r => .refused r
  | none => .next { (body s).2 with ret := (body s).1 }

end Sys2Proof.Machine
end

