-- ==== Sys2Proof/Machine/BusMaster.lean ====
section
/-!
DEFINITION. BM: the bit cell (R117) and the seven operations of 41_bus_master.md.
-/

namespace Sys2Proof.Machine

/-! ## The bit cell -/

/-- The data action of a bit cell: one SETLINE on SDA, or nothing (R117). -/
def dataAction (v : Option Level) (s : State) : State :=
  match v with
  | some v => setLine .sda v s
  | none => s

/-- The SAMPLE of a bit cell, if it has one (R117); the level of a cell without one is not used. -/
def cellSample (doSample : Bool) (s : State) : Level × State := if doSample then sample s else (false, s)

/-- The bit cell (R117): four quarters, each ending in one DELAY. -/
def bitCell (data : Option Level) (doSample : Bool) (s : State) : Level × State :=
  let q0 := delayOp (dataAction data s)
  let q1 := delayOp (setLine .scl true q0)
  let r := cellSample doSample q1
  let q2 := delayOp r.2
  (r.1, delayOp (setLine .scl false q2))

/-! ## START and STOP -/

/-- START (R135): `D1 . C1 . D0 . C0 .` -/
def startBody (s : State) : State :=
  let s := delayOp (setLine .sda true s)
  let s := delayOp (setLine .scl true s)
  let s := delayOp (setLine .sda false s)
  let s := delayOp (setLine .scl false s)
  { s with inTxn := true }

/-- STOP (R136): `D0 . C1 . D1 .` -/
def stopBody (s : State) : State :=
  let s := delayOp (setLine .sda false s)
  let s := delayOp (setLine .scl true s)
  let s := delayOp (setLine .sda true s)
  { s with inTxn := false }

/-! ## WRITE_BYTE and READ_BYTE -/

/-- The data cells of bits n-1 down to 0 of a byte (R137). -/
def sendBits (b : Byte) : Nat → State → State
  | 0, s => s
  | n + 1, s => sendBits b n (bitCell (some (b.getLsbD n)) false (setBitidx n s)).2

/-- WRITE_BYTE (R137): eight data cells, bit 7 first, then the acknowledgment cell; whether an ACK was seen. -/
def writeByteBody (b : Byte) (s : State) : Bool × State :=
  let sent := sendBits b 8 (setShreg b s)
  let r := bitCell (some true) true sent
  (ackSeen r.1, setAckbit r.1 r.2)

/-- The next bit of a byte that is read, most significant bit first: `v <- (v << 1) | s` (R139). -/
def shiftIn (v : Byte) (s : Level) : Byte := (v <<< 1) ||| (if s then 1 else 0)

/-- The reading cells of the last n bits; `v` holds the bits read before (R139). Bit 7's cell releases SDA first. -/
def readBits : Nat → Byte → State → Byte × State
  | 0, v, s => (v, s)
  | n + 1, v, s =>
    let r := bitCell (if n = 7 then some true else none) true (setBitidx n s)
    readBits n (shiftIn v r.1) (setShreg (shiftIn v r.1) r.2)

/-- READ_BYTE (R139): eight reading cells, the acknowledgment cell (0 sends an ACK), the release. -/
def readByteBody (sendAck : Bool) (s : State) : Byte × State :=
  let r := readBits 8 0 (setShreg 0 s)
  let acked := (bitCell (some (!sendAck)) false r.2).2
  (r.1, delayOp (setLine .sda true acked))

/-! ## WRITE and WRITE_REGISTER -/

/-- The payload loop (R140): bytes from index k on, in order, up to the first one that is not acknowledged. -/
def sendPayload : Nat → List Byte → State → Bool × State
  | _, [], s => (true, s)
  | k, b :: bs, s =>
    let r := writeByteBody b (setK k s)
    if r.1 then sendPayload (k + 1) bs r.2 else (false, r.2)

/-- WRITE (R140, R141). -/
def writeBody (address : Addr7) (payload : List Byte) (s : State) : Bool × State :=
  let a := writeByteBody (addrByte address 0) (startBody s)
  if a.1 then
    let p := sendPayload 0 payload a.2
    (p.1, stopBody p.2)
  else (false, stopBody a.2)

/-- WRITE_REGISTER (R142): the register selector right after the address byte. -/
def writeRegisterBody (address : Addr7) (register : Byte) (payload : List Byte) (s : State) : Bool × State :=
  let a := writeByteBody (addrByte address 0) (startBody s)
  if a.1 then
    let r := writeByteBody register a.2
    if r.1 then
      let p := sendPayload 0 payload r.2
      (p.1, stopBody p.2)
    else (false, stopBody r.2)
  else (false, stopBody a.2)

/-! ## CONFIGURE -/

/-- The refusals of CONFIGURE (R132), in the order of R236: frequency, identifier range, identifier equality. -/
def configureGuard (c : Params) (clockLine dataLine : Nat) (frequency : Word) : Option Refusal :=
  if frequency = 0 then some .zeroFrequency
  else if c.pinCount ≤ clockLine then some (.lineOutOfRange clockLine)
  else if c.pinCount ≤ dataLine then some (.lineOutOfRange dataLine)
  else if clockLine = dataLine then some (.equalLines clockLine)
  else none

/-- CONFIGURE (R130, R131, R133), its refusals checked. -/
def configureBody (clockLine dataLine : Nat) (frequency : Word) (s : State) : State :=
  let s := { s with
    delay := .written (delayConstant s.cfg frequency), sclId := .written clockLine, sdaId := .written dataLine }
  let s := pinMode dataLine (pinMode clockLine s)
  let s := delayOp (setLine .scl true s)
  let s := delayOp (setLine .sda true s)
  { s with configured := true, inTxn := false }

/-! ## The meanings -/

/-- CONFIGURE, OPC 0x01 (R130). -/
def execConfigure (clockLine dataLine : Nat) (frequency : Word) (s : State) : Outcome :=
  runOp 0x01 (configureGuard s.cfg clockLine dataLine frequency)
    (fun s => (none, configureBody clockLine dataLine frequency s)) s

/-- START, OPC 0x02 (R135): always `true`. -/
def execStart (s : State) : Outcome :=
  runOp 0x02 (busGuard s) (fun s => (some (.bool true), startBody s)) s

/-- STOP, OPC 0x03 (R136). -/
def execStop (s : State) : Outcome :=
  runOp 0x03 (busGuard s) (fun s => (none, stopBody s)) s

/-- WRITE_BYTE, OPC 0x04 (R137). -/
def execWriteByte (b : Byte) (s : State) : Outcome :=
  runOp 0x04 (busGuard s) (fun s => (some (.bool (writeByteBody b s).1), (writeByteBody b s).2)) s

/-- READ_BYTE, OPC 0x05 (R139). -/
def execReadByte (sendAck : Bool) (s : State) : Outcome :=
  runOp 0x05 (busGuard s) (fun s => (some (.byte (readByteBody sendAck s).1), (readByteBody sendAck s).2)) s

/-- WRITE, OPC 0x06 (R140). -/
def execWrite (address : Addr7) (payload : List Byte) (s : State) : Outcome :=
  runOp 0x06 (busGuard s)
    (fun s => (some (.bool (writeBody address payload s).1), (writeBody address payload s).2)) s

/-- WRITE_REGISTER, OPC 0x07 (R142). -/
def execWriteRegister (address : Addr7) (register : Byte) (payload : List Byte) (s : State) : Outcome :=
  runOp 0x07 (busGuard s)
    (fun s => (some (.bool (writeRegisterBody address register payload s).1),
      (writeRegisterBody address register payload s).2)) s

end Sys2Proof.Machine
end

