-- ==== Sys2Proof/Machine/Render.lean ====
section
/-!
DEFINITION. The rendering operations of 43_framebuffer_render.md: CLEAR, SET_PIXEL, DRAW_GLYPH, DRAW_TEXT, FILL_RECT. They touch
only the framebuffer (R213) and, while they run, their working registers (R24): the cursor, the loop counters, the index of the character.
Coordinates are exact integers here. A request in which a coordinate sum leaves the signed 32 bits is refused as a whole
(R204), by a test made before anything is drawn, so no sum that is drawn with is out of range.
-/

namespace Sys2Proof.Machine

/-! ## Drawing -/

/-- CLEAR's body (R200): zero every framebuffer byte. -/
def clearFb (c : Params) (m : Memory) : Memory := (List.range (fbSize c)).foldl (fun m i => m.write i 0) m

/-- SET_PIXEL (R202): clipped silently outside the display (R53), else one bit of one byte. -/
def setPixelFb (c : Params) (x y : Int) (on : Bool) (m : Memory) : Memory :=
  if inBounds c x y then
    let i := pixelIndex c x y
    m.write i (if on then m.read i ||| pixelMask y else m.read i &&& ~~~pixelMask y)
  else m

/-- SET_PIXEL as a part of an operation (R202). -/
def setPixel (x y : Int) (on : Bool) (s : State) : State := { s with fb := setPixelFb s.cfg x y on s.fb }

/-- Some rows of a glyph column (R205): each set bit is a pixel. -/
def drawGlyphRows (x y : Int) (g : Byte) (rows : List Nat) (s : State) : State :=
  rows.foldl (fun s (row : Nat) => if g.getLsbD row then setPixel x (y + row) true (setRow row s) else setRow row s) s

/-- Some columns of a glyph (R205), each of rows 0 to 6; bit 7 is not examined. -/
def drawGlyphCols (x y : Int) (entry : Nat) (cols : List Nat) (s : State) : State :=
  cols.foldl (fun s (col : Nat) => drawGlyphRows (x + col) y (glyphColumn s.cfg entry col) (List.range 7) (setCol col s)) s

/-- DRAW_GLYPH (R205): five columns from (x, y). -/
def drawGlyph (x y : Int) (ch : Word) (s : State) : State := drawGlyphCols x y (glyphEntry s.cfg ch) (List.range 5) s

/-- The wrap test (R209): the 6-column cell would reach past the right edge. -/
def wraps (c : Params) (cx : Int) : Bool := decide ((c.width : Int) < cx + 6)

/-- The loop of DRAW_TEXT (R208) from character k on, the cursor at (cx, cy); `x` is the column a newline and a wrap return to. -/
def drawTextFrom (x : Int) : Nat → List Word → Int → Int → State → State
  | _, [], _, _, s => s
  | k, ch :: rest, cx, cy, s =>
    if ch = s.cfg.newline then drawTextFrom x (k + 1) rest x (cy + 8) (setCursor x (cy + 8) (setK k s))
    else if wraps s.cfg cx then
      drawTextFrom x (k + 1) rest (x + 6) (cy + 8)
        (setCursor (x + 6) (cy + 8) (drawGlyph x (cy + 8) ch (setCursor x (cy + 8) (setK k s))))
    else drawTextFrom x (k + 1) rest (cx + 6) cy (setCursor (cx + 6) cy (drawGlyph cx cy ch (setK k s)))

/-- DRAW_TEXT (R208): the cursor starts at (x, y). -/
def drawText (x y : Int) (text : List Word) (s : State) : State := drawTextFrom x 0 text x y (setCursor x y s)

/-- One row of FILL_RECT: n pixels from column dx on (R211). -/
def fillRow (x y : Int) (on : Bool) : Nat → Nat → State → State
  | 0, _, s => s
  | n + 1, dx, s => fillRow x y on n (dx + 1) (setPixel (x + dx) y on (setDx dx s))

/-- The rows of FILL_RECT: n rows from row dy on, each `w` pixels (R211). -/
def fillRows (x y : Int) (w : Nat) (on : Bool) : Nat → Nat → State → State
  | 0, _, s => s
  | n + 1, dy, s => fillRows x y w on n (dy + 1) (fillRow x (y + dy) on w 0 (setDy dy s))

/-- FILL_RECT (R211): rows outer, columns inner; nothing for a size of zero or less (R212). -/
def fillRect (x y w h : Int) (on : Bool) (s : State) : State := fillRows x y w.toNat on h.toNat 0 s

/-! ## The overflow test (R204): does a coordinate sum that the operation forms leave the signed 32 bits? -/

/-- A set bit of the glyph is plotted at a sum out of range. -/
def glyphBitOverflows (c : Params) (x y : Int) (ch : Word) : Bool :=
  (List.range 5).any fun (col : Nat) =>
    (List.range 7).any fun (row : Nat) =>
      (glyphColumn c (glyphEntry c ch) col).getLsbD row && !(sumFits (x + col) && sumFits (y + row))

/-- DRAW_GLYPH forms `x + col` and `y + row` for its set bits only. Where even the largest sums fit, none overflows. -/
def glyphOverflows (c : Params) (x y : Int) (ch : Word) : Bool :=
  !(sumFits (x + 4) && sumFits (y + 6)) && glyphBitOverflows c x y ch

/-- DRAW_TEXT forms `cy + 8` at a newline and at a wrap, `cx + 6` in the wrap test and after each glyph, and DRAW_GLYPH's sums. -/
def textOverflows (c : Params) (x : Int) : List Word → Int → Int → Bool
  | [], _, _ => false
  | ch :: rest, cx, cy =>
    if ch = c.newline then !sumFits (cy + 8) || textOverflows c x rest x (cy + 8)
    else
      !sumFits (cx + 6) ||
        (if wraps c cx then
          !sumFits (cy + 8) || glyphOverflows c x (cy + 8) ch || !sumFits (x + 6) || textOverflows c x rest (x + 6) (cy + 8)
        else glyphOverflows c cx cy ch || textOverflows c x rest (cx + 6) cy)

/-- FILL_RECT forms `x + dx` and `y + dy` for every pixel of the rectangle, and none when it has no pixel. The largest are those
of its last column and its last row. -/
def rectOverflows (x y w h : Int) : Bool :=
  decide (0 < w) && decide (0 < h) && !(sumFits (x + (w - 1)) && sumFits (y + (h - 1)))

/-- The refusal of R204. -/
def overflowGuard (overflows : Bool) : Option Refusal := if overflows then some .coordinateOverflow else none

/-! ## The meanings -/

/-- CLEAR, OPC 0x11 (R200). -/
def execClear (s : State) : Outcome :=
  runOp 0x11 none (fun s => (none, { s with fb := clearFb s.cfg s.fb })) s

/-- SET_PIXEL, OPC 0x13 (R202). -/
def execSetPixel (x y : Word) (on : Bool) (s : State) : Outcome :=
  runOp 0x13 none (fun s => (none, setPixel (coord x) (coord y) on s)) s

/-- DRAW_GLYPH, OPC 0x14 (R205). -/
def execDrawGlyph (x y ch : Word) (s : State) : Outcome :=
  runOp 0x14 (overflowGuard (glyphOverflows s.cfg (coord x) (coord y) ch))
    (fun s => (none, drawGlyph (coord x) (coord y) ch s)) s

/-- DRAW_TEXT, OPC 0x15 (R208). -/
def execDrawText (x y : Word) (text : List Word) (s : State) : Outcome :=
  runOp 0x15 (overflowGuard (textOverflows s.cfg (coord x) text (coord x) (coord y)))
    (fun s => (none, drawText (coord x) (coord y) text s)) s

/-- FILL_RECT, OPC 0x16 (R211). -/
def execFillRect (x y w h : Word) (on : Bool) (s : State) : Outcome :=
  runOp 0x16 (overflowGuard (rectOverflows (coord x) (coord y) (coord w) (coord h)))
    (fun s => (none, fillRect (coord x) (coord y) (coord w) (coord h) on s)) s

end Sys2Proof.Machine
end

