-- ==== Sys2Proof/Machine/Display.lean ====
section
/-!
DEFINITION. DD: the display protocol of 42_display_protocol.md, INITIALIZE, FLUSH, SET_CONTRAST, SET_POWER, SET_INVERTED.
-/

namespace Sys2Proof.Machine

/-- CMD (R160): one command byte in a transaction of its own, under the prefix 0x80; its result is discarded. An `unwritten`
`S.disp_addr` never gets here: the guards refuse it. -/
def cmd (b : Byte) (s : State) : State :=
  match s.dispAddr with
  | .written a => (writeRegisterBody a 0x80 [b] s).2
  | .unwritten => s

/-- Consecutive CMDs (R161): a NAK on one does not stop the ones after it. -/
def sendCmds (bs : List Byte) (s : State) : State := bs.foldl (fun s b => cmd b s) s

/-- The contents of the framebuffer in index order. Nothing writes FB while it is sent, so this snapshot equals reading each
byte when its turn comes (R168). -/
def fbBytes (c : Params) (m : Memory) : List Byte := (List.range (fbSize c)).map m.read

/-- The data transfer of FLUSH (R168): one WRITE_REGISTER with the prefix 0x40 and the whole framebuffer. -/
def sendFb (s : State) : State :=
  match s.dispAddr with
  | .written a => (writeRegisterBody a 0x40 (fbBytes s.cfg s.fb) s).2
  | .unwritten => s

/-- FLUSH's body (R167): the window, then the data. -/
def flushBody (s : State) : State := sendFb (sendCmds (windowSeq s.cfg) s)

/-- INITIALIZE's refusals (R163, R166, R236): a second INITIALIZE, then those of the inline CONFIGURE. -/
def initializeGuard (clockLine dataLine : Nat) (s : State) : Option Refusal :=
  firstRefusal (if s.initialized then some .alreadyInitialized else none)
    (configureGuard s.cfg clockLine dataLine s.cfg.displayBusHz)

/-- INITIALIZE (R163), its refusals checked. -/
def initializeBody (address : Addr7) (clockLine dataLine : Nat) (s : State) : State :=
  let s := { s with dispAddr := .written address }
  let s := configureBody clockLine dataLine s.cfg.displayBusHz s
  let s := powerupWaitOp s
  let s := sendCmds (initSeq s.cfg) s
  let s := { s with fb := clearFb s.cfg s.fb }
  let s := flushBody s
  { s with initialized := true }

/-! ## The meanings -/

/-- INITIALIZE, OPC 0x10 (R163): always `true`, whatever was acknowledged (R165). -/
def execInitialize (address : Addr7) (clockLine dataLine : Nat) (s : State) : Outcome :=
  runOp 0x10 (initializeGuard clockLine dataLine s)
    (fun s => (some (.bool true), initializeBody address clockLine dataLine s)) s

/-- FLUSH, OPC 0x12 (R167). -/
def execFlush (s : State) : Outcome :=
  runOp 0x12 (displayGuard s) (fun s => (none, flushBody s)) s

/-- SET_CONTRAST, OPC 0x17 (R171): the contrast opcode, then the level. -/
def execSetContrast (level : Byte) (s : State) : Outcome :=
  runOp 0x17 (displayGuard s) (fun s => (none, sendCmds [s.cfg.cmds.setContrast, level] s)) s

/-- SET_POWER, OPC 0x18 (R172). -/
def execSetPower (on : Bool) (s : State) : Outcome :=
  runOp 0x18 (displayGuard s) (fun s => (none, sendCmds [powerByte s.cfg on] s)) s

/-- SET_INVERTED, OPC 0x19 (R173). -/
def execSetInverted (on : Bool) (s : State) : Outcome :=
  runOp 0x19 (displayGuard s) (fun s => (none, sendCmds [invertByte s.cfg on] s)) s

end Sys2Proof.Machine
end

