-- ==== Sys2Proof/Machine/Pieces.lean ====
section
/-!
DEFINITION. The meanings of the rows that are pieces of an operation: the micro-operations (R84), the address byte and control
prefix frames (R93, R94) and the display commands (R96). The sequencer performs them; a host cannot request one (R85). A command
sends the bytes the record CMDS of the configuration gives it (D21).
-/

namespace Sys2Proof.Machine

/-! ## Micro-operations -/

/-- SETLINE, code 0x20 (R111): refused if the line's identifier is unwritten. -/
def execSetline (line : Line) (v : Level) (s : State) : Outcome :=
  runPiece
    (match line with
      | .scl => needWritten "S.scl_id" s.sclId
      | .sda => needWritten "S.sda_id" s.sdaId)
    (fun s => (none, setLine line v s)) s

/-- SAMPLE, code 0x21 (R113): delivers the level. -/
def execSample (s : State) : Outcome :=
  runPiece (needWritten "S.sda_id" s.sdaId) (fun s => (some (.level (sample s).1), (sample s).2)) s

/-- DELAY, code 0x22 (R114): refused if `S.delay` is unwritten. -/
def execDelay (s : State) : Outcome :=
  runPiece (needWritten "S.delay" s.delay) (fun s => (none, delayOp s)) s

/-- PINMODE, code 0x23 (R116): its operand is a line identifier, below PIN_COUNT (R82). -/
def execPinmode (id : Nat) (s : State) : Outcome :=
  runPiece (if s.cfg.pinCount ≤ id then some (.lineOutOfRange id) else none) (fun s => (none, pinMode id s)) s

/-- POWERUP_WAIT, code 0x24 (R162). -/
def execPowerupWait (s : State) : Outcome :=
  runPiece none (fun s => (none, powerupWaitOp s)) s

/-! ## Byte frames -/

/-- The byte frame of a byte (R90): WRITE_BYTE's body; delivers whether it was acknowledged. -/
def sendFrame (b : Byte) (s : State) : Outcome :=
  runPiece (busGuard s) (fun s => (some (.bool (writeByteBody b s).1), (writeByteBody b s).2)) s

/-- ADDR_WRITE (R93): the address byte with direction 0. -/
def execAddrWrite (a : Addr7) (s : State) : Outcome := sendFrame (addrByte a 0) s

/-- ADDR_READ (R93): the address byte with direction 1. -/
def execAddrRead (a : Addr7) (s : State) : Outcome := sendFrame (addrByte a 1) s

/-- CTRL_COMMAND (R94): the control prefix 0x80. -/
def execCtrlCommand (s : State) : Outcome := sendFrame 0x80 s

/-- CTRL_DATA_STREAM (R94): the control prefix 0x40. -/
def execCtrlDataStream (s : State) : Outcome := sendFrame 0x40 s

/-! ## Display commands -/

/-- A display command (R160, R161): one CMD for its opcode and one for each parameter byte. -/
def sendCommand (bs : List Byte) (s : State) : Outcome :=
  runPiece (cmdGuard s) (fun s => (none, sendCmds bs s)) s

/-- CMDS.DISPLAY_OFF -/
def execCmdsDisplayOff (s : State) : Outcome := sendCommand [s.cfg.cmds.displayOff] s

/-- CMDS.SET_CLOCK_DIV -/
def execCmdsSetClockDiv (p : Byte) (s : State) : Outcome := sendCommand [s.cfg.cmds.setClockDiv, p] s

/-- CMDS.SET_MULTIPLEX -/
def execCmdsSetMultiplex (p : Byte) (s : State) : Outcome := sendCommand [s.cfg.cmds.setMultiplex, p] s

/-- CMDS.SET_DISPLAY_OFFSET -/
def execCmdsSetDisplayOffset (p : Byte) (s : State) : Outcome := sendCommand [s.cfg.cmds.setDisplayOffset, p] s

/-- CMDS.SET_START_LINE: the line is in the opcode byte -/
def execCmdsSetStartLine (l : BitVec 6) (s : State) : Outcome := sendCommand [startLineByte s.cfg l] s

/-- CMDS.CHARGE_PUMP -/
def execCmdsChargePump (p : Byte) (s : State) : Outcome := sendCommand [s.cfg.cmds.chargePump, p] s

/-- CMDS.SET_ADDR_MODE -/
def execCmdsSetAddrMode (p : Byte) (s : State) : Outcome := sendCommand [s.cfg.cmds.setAddrMode, p] s

/-- CMDS.SEG_REMAP: the remap bit is in the opcode byte -/
def execCmdsSegRemap (r : BitVec 1) (s : State) : Outcome := sendCommand [segRemapByte s.cfg r] s

/-- CMDS.COM_SCAN_DIR: the direction bit is in the opcode byte -/
def execCmdsComScanDir (d : BitVec 1) (s : State) : Outcome := sendCommand [comScanByte s.cfg d] s

/-- CMDS.SET_COM_PINS -/
def execCmdsSetComPins (p : Byte) (s : State) : Outcome := sendCommand [s.cfg.cmds.setComPins, p] s

/-- CMDS.SET_CONTRAST -/
def execCmdsSetContrast (p : Byte) (s : State) : Outcome := sendCommand [s.cfg.cmds.setContrast, p] s

/-- CMDS.SET_PRECHARGE -/
def execCmdsSetPrecharge (p : Byte) (s : State) : Outcome := sendCommand [s.cfg.cmds.setPrecharge, p] s

/-- CMDS.SET_VCOM_DETECT -/
def execCmdsSetVcomDetect (p : Byte) (s : State) : Outcome := sendCommand [s.cfg.cmds.setVcomDetect, p] s

/-- CMDS.DISPLAY_RESUME -/
def execCmdsDisplayResume (s : State) : Outcome := sendCommand [s.cfg.cmds.displayResume] s

/-- CMDS.NORMAL_DISPLAY -/
def execCmdsNormalDisplay (s : State) : Outcome := sendCommand [s.cfg.cmds.normalDisplay] s

/-- CMDS.INVERT_DISPLAY -/
def execCmdsInvertDisplay (s : State) : Outcome := sendCommand [s.cfg.cmds.invertDisplay] s

/-- CMDS.DISPLAY_ON -/
def execCmdsDisplayOn (s : State) : Outcome := sendCommand [s.cfg.cmds.displayOn] s

/-- CMDS.SET_COLUMN_ADDR -/
def execCmdsSetColumnAddr (p1 p2 : Byte) (s : State) : Outcome := sendCommand [s.cfg.cmds.setColumnAddr, p1, p2] s

/-- CMDS.SET_PAGE_ADDR -/
def execCmdsSetPageAddr (p1 p2 : Byte) (s : State) : Outcome := sendCommand [s.cfg.cmds.setPageAddr, p1, p2] s

end Sys2Proof.Machine
end

