-- ==== Sys2Proof/Machine/Dispatch.lean ====
section
/-!
DEFINITION. The dispatch: one arm per constructor of Instr, each one direct call of its meaning.
-/

namespace Sys2Proof.Machine

def exec (i : Instr) (s : State) : Host.Outcome State Fault Refusal :=
  match i with
  | .configure c d f => Sys2Proof.Machine.execConfigure c d f s
  | .start => Sys2Proof.Machine.execStart s
  | .stop => Sys2Proof.Machine.execStop s
  | .writeByte b => Sys2Proof.Machine.execWriteByte b s
  | .readByte a => Sys2Proof.Machine.execReadByte a s
  | .write a p => Sys2Proof.Machine.execWrite a p s
  | .writeRegister a r p => Sys2Proof.Machine.execWriteRegister a r p s
  | .initDisplay a c d => Sys2Proof.Machine.execInitialize a c d s
  | .clear => Sys2Proof.Machine.execClear s
  | .flush => Sys2Proof.Machine.execFlush s
  | .setPixel x y on => Sys2Proof.Machine.execSetPixel x y on s
  | .drawGlyph x y ch => Sys2Proof.Machine.execDrawGlyph x y ch s
  | .drawText x y t => Sys2Proof.Machine.execDrawText x y t s
  | .fillRect x y w h on => Sys2Proof.Machine.execFillRect x y w h on s
  | .setContrast l => Sys2Proof.Machine.execSetContrast l s
  | .setPower on => Sys2Proof.Machine.execSetPower on s
  | .setInverted on => Sys2Proof.Machine.execSetInverted on s
  | .setline l v => Sys2Proof.Machine.execSetline l v s
  | .sample => Sys2Proof.Machine.execSample s
  | .delay => Sys2Proof.Machine.execDelay s
  | .pinmode id => Sys2Proof.Machine.execPinmode id s
  | .powerupWait => Sys2Proof.Machine.execPowerupWait s
  | .addrWrite a => Sys2Proof.Machine.execAddrWrite a s
  | .addrRead a => Sys2Proof.Machine.execAddrRead a s
  | .ctrlCommand => Sys2Proof.Machine.execCtrlCommand s
  | .ctrlDataStream => Sys2Proof.Machine.execCtrlDataStream s
  | .cmdsDisplayOff => Sys2Proof.Machine.execCmdsDisplayOff s
  | .cmdsSetClockDiv p => Sys2Proof.Machine.execCmdsSetClockDiv p s
  | .cmdsSetMultiplex p => Sys2Proof.Machine.execCmdsSetMultiplex p s
  | .cmdsSetDisplayOffset p => Sys2Proof.Machine.execCmdsSetDisplayOffset p s
  | .cmdsSetStartLine l => Sys2Proof.Machine.execCmdsSetStartLine l s
  | .cmdsChargePump p => Sys2Proof.Machine.execCmdsChargePump p s
  | .cmdsSetAddrMode p => Sys2Proof.Machine.execCmdsSetAddrMode p s
  | .cmdsSegRemap r => Sys2Proof.Machine.execCmdsSegRemap r s
  | .cmdsComScanDir d => Sys2Proof.Machine.execCmdsComScanDir d s
  | .cmdsSetComPins p => Sys2Proof.Machine.execCmdsSetComPins p s
  | .cmdsSetContrast p => Sys2Proof.Machine.execCmdsSetContrast p s
  | .cmdsSetPrecharge p => Sys2Proof.Machine.execCmdsSetPrecharge p s
  | .cmdsSetVcomDetect p => Sys2Proof.Machine.execCmdsSetVcomDetect p s
  | .cmdsDisplayResume => Sys2Proof.Machine.execCmdsDisplayResume s
  | .cmdsNormalDisplay => Sys2Proof.Machine.execCmdsNormalDisplay s
  | .cmdsInvertDisplay => Sys2Proof.Machine.execCmdsInvertDisplay s
  | .cmdsDisplayOn => Sys2Proof.Machine.execCmdsDisplayOn s
  | .cmdsSetColumnAddr p1 p2 => Sys2Proof.Machine.execCmdsSetColumnAddr p1 p2 s
  | .cmdsSetPageAddr p1 p2 => Sys2Proof.Machine.execCmdsSetPageAddr p1 p2 s

end Sys2Proof.Machine
end

