-- ==== Sys2Proof/Machine/Sequencer.lean ====
section
/-!
DEFINITION. What the sequencer does next (R25, R81, R270): perform the next piece of an operation in progress, or take the next
act of the host.
-/

namespace Sys2Proof.Machine

/-- An operation is in progress (R25). -/
def Seq.isRunning : Seq → Bool
  | .idle => false
  | .running _ _ _ => true

/-- A host presents a request (R80, R85, R271): refused while an operation runs, refused if it names no operation, else run. -/
def hostRequest (bytes : List Byte) (s : State) : Outcome :=
  if s.seq.isRunning then .refused .busy
  else
    match decodeRequest bytes with
    | .ok i => exec i s
    | .error e => .refused (.badRequest e)

/-- A host writes a framebuffer byte itself (R270, R271 (c)): between operations only, at a framebuffer index only. -/
def hostWrite (index : Nat) (value : Byte) (s : State) : Outcome :=
  if s.seq.isRunning then .refused .busy
  else if index < fbSize s.cfg then .next { s with fb := s.fb.write index value }
  else .refused (.noSuchFbByte index)

/-- One act of the host. -/
def hostAct (a : HostAct) (s : State) : Outcome :=
  match a with
  | .request bytes => hostRequest bytes s
  | .writeFb index value => hostWrite index value s

/-- The sequencer with nothing presented: it stays idle (R39), performs its next piece, or returns. -/
def continueOp (s : State) : Outcome :=
  match s.seq with
  | .idle => .next s
  | .running _ _ [] => .next (returnOp s.ret s)
  | .running op pos (i :: rest) => exec i { s with seq := .running op pos rest }

/-- One step: refused if the configuration breaks R9; else the host's next act, or the operation in progress. -/
def advance (s : State) : Outcome :=
  if configOk s.cfg then
    match s.host with
    | [] => continueOp s
    | a :: rest => hostAct a { s with host := rest }
  else .refused .badConfiguration

/-- The state in which the next step performs an instruction: an operation is presented by the host; any other row is the next
piece of an operation in progress (INITIALIZE's code stands for that operation). -/
def placeInstr (i : Instr) (s : State) : State :=
  match i.format with
  | .op => { s with seq := .idle, host := [.request (encode i)] }
  | _ => { s with seq := .running 0x10 0 [i], host := [] }

end Sys2Proof.Machine
end

