-- ==== Sys2Proof/Machine/Step.lean ====
section
/-!
DEFINITION. One step of the machine, and the placing of a table word where the next step takes it from.
-/

namespace Sys2Proof.Machine

/-- One step (Machine/Sequencer.lean). -/
def step (s : State) : Host.Outcome State Fault Refusal := advance s

/-- The state in which the next step runs the instruction of a table word (assumption 2); bytes that are no instruction are
presented as a request as they are, and refused. -/
def State.withFetchWord (s : State) (nbits w : Nat) : State :=
  match decodeTableWord nbits w with
  | some i => placeInstr i s
  | none => { s with seq := .idle, host := [.request (tableBytes nbits w)] }

end Sys2Proof.Machine
end

