-- ==== Sys2Proof/Machine/Wire.lean ====
section
/-!
DEFINITION. The two wires (R87), what an observer of them decodes (R88 to R92), and the traces of the spec's compact notation (R12).
`Bus` has both wires at every instant, under any environment and either pad mode. `Wires` is the observer for an environment that
leaves both lines released except inside the clock pulse of a SAMPLE, where it shows the level that was found (log 30).
-/

namespace Sys2Proof.Machine

/-- A framing symbol or a data bit on the wires (R88, R89). -/
inductive Symbol where
  | start
  | stop
  | bit (v : Level)
deriving DecidableEq, Repr

/-! ## The wires under any environment (R87, R119) -/

/-- What the environment does at an instant: for each line, whether no other device pulls it low (`env(L)`, R87), and the level the
wire has where R87 leaves it undefined (push_pull, BM driving 1 and a device pulling 0: any level, U13). -/
structure Surroundings where
  scl     : Level
  sda     : Level
  sclOpen : Level
  sdaOpen : Level
deriving DecidableEq, Repr

/-- What can happen to the wires: an event of BM, or a move of the environment, which may come between any two events (R119). -/
inductive Moment where
  | drives (e : Event)
  | moves (x : Surroundings)
deriving DecidableEq, Repr

/-- The bus at an instant: what BM drives, what the environment does, and the bit of the clock pulse in progress, if it can still be one. -/
structure Bus where
  pad    : PadMode
  sclOut : Level
  sdaOut : Level
  around : Surroundings
  pulse  : Option Level
deriving DecidableEq, Repr

/-- wire(SCL) (R87). -/
def Bus.scl (b : Bus) : Level := wireLevel b.pad b.sclOut b.around.scl b.around.sclOpen

/-- wire(SDA) (R87). -/
def Bus.sda (b : Bus) : Level := wireLevel b.pad b.sdaOut b.around.sda b.around.sdaOpen

/-- What BM drives and what the environment does after a moment. -/
def Bus.after (b : Bus) : Moment → Bus
  | .drives (.setline .scl v) => { b with sclOut := v }
  | .drives (.setline .sda v) => { b with sdaOut := v }
  | .drives (.sample _) => b
  | .drives .delay => b
  | .drives (.pinmode _) => b
  | .drives .powerupWait => b
  | .moves x => { b with around := x }

/-- What an observer decodes when the bus goes from `b` to `n`. With wire(SCL) 1 before and after, a change of wire(SDA) is a START or a
STOP (R88), and the pulse carries no bit. A rise of wire(SCL) begins a pulse, its fall ends it and carries the bit (R89). -/
def Bus.decode (b n : Bus) : Bus × List Symbol :=
  if b.scl = n.scl then
    if b.scl && b.sda != n.sda then ({ n with pulse := none }, [if n.sda then .stop else .start])
    else ({ n with pulse := b.pulse }, [])
  else if n.scl then ({ n with pulse := some n.sda }, [])
  else
    ({ n with pulse := none },
      match b.pulse with
      | some v => [.bit v]
      | none => [])

/-- The symbols that moments put on the wires. -/
def Bus.seen (b : Bus) : List Moment → List Symbol
  | [] => []
  | m :: ms => (b.decode (b.after m)).2 ++ (b.decode (b.after m)).1.seen ms

/-- The bus of a state, with what the environment does. -/
def busOf (s : State) (x : Surroundings) : Bus := ⟨s.cfg.padMode, s.sclOut, s.sdaOut, x, none⟩

/-! ## The observer of a trace (log 30) -/

/-- What the observer keeps: the two wire levels, and the bit of the clock pulse that is in progress, if it can still be one. -/
structure Wires where
  scl   : Level
  sda   : Level
  pulse : Option Level
deriving DecidableEq, Repr

/-- The data wire changes: with the clock high it is a START (falling) or a STOP (rising), and the pulse carries no bit. -/
def seeSda (v : Level) (w : Wires) : Wires × List Symbol :=
  if w.sda = v then (w, [])
  else if w.scl then (⟨w.scl, v, none⟩, [if v then .stop else .start])
  else (⟨w.scl, v, w.pulse⟩, [])

/-- The clock wire changes: a rise begins a pulse with the data wire's level, a fall ends it and carries its bit (R89). -/
def seeScl (v : Level) (w : Wires) : Wires × List Symbol :=
  if w.scl = v then (w, [])
  else if v then (⟨true, w.sda, some w.sda⟩, [])
  else
    (⟨false, w.sda, none⟩,
      match w.pulse with
      | some b => [.bit b]
      | none => [])

/-- One event as the observer sees it. A SAMPLE shows the level of the data wire inside a pulse. -/
def see (w : Wires) : Event → Wires × List Symbol
  | .setline .sda v => seeSda v w
  | .setline .scl v => seeScl v w
  | .sample s => (⟨w.scl, w.sda, w.pulse.map fun _ => s⟩, [])
  | .delay => (w, [])
  | .pinmode _ => (w, [])
  | .powerupWait => (w, [])

/-- The symbols of a trace. -/
def observe (w : Wires) : List Event → List Symbol
  | [] => []
  | e :: es => (see w e).2 ++ observe (see w e).1 es

/-- The observer after a trace. -/
def observed (w : Wires) : List Event → Wires
  | [] => w
  | e :: es => observed (see w e).1 es

/-- An observer that begins to look at a state: both wires at their latches' levels. -/
def watch (s : State) : Wires := ⟨s.sclOut, s.sdaOut, none⟩

/-- The nine bits of a byte frame (R90): bit 7 first, then the acknowledgment bit. -/
def frameSymbols (b : Byte) (ack : Level) : List Symbol :=
  [.bit (b.getLsbD 7), .bit (b.getLsbD 6), .bit (b.getLsbD 5), .bit (b.getLsbD 4),
   .bit (b.getLsbD 3), .bit (b.getLsbD 2), .bit (b.getLsbD 1), .bit (b.getLsbD 0), .bit ack]

/-- A transaction on the wire (R92): START, byte frames with their acknowledgment bits, STOP. -/
def txnSymbols (frames : List (Byte × Level)) : List Symbol :=
  .start :: (frames.flatMap fun f => frameSymbols f.1 f.2) ++ [.stop]

/-! ## Traces (R12) -/

/-- A bit cell (R117): the data action, if any, and the sampled level, if any. -/
def cellTrace (data sampled : Option Level) : List Event :=
  (match data with
    | some v => [.setline .sda v]
    | none => [])
  ++ [.delay, .setline .scl true, .delay]
  ++ (match sampled with
    | some s => [.sample s]
    | none => [])
  ++ [.delay, .setline .scl false, .delay]

/-- START: `D1 . C1 . D0 . C0 .` (R135) -/
def startTrace : List Event :=
  [.setline .sda true, .delay, .setline .scl true, .delay, .setline .sda false, .delay, .setline .scl false, .delay]

/-- STOP: `D0 . C1 . D1 .` (R136) -/
def stopTrace : List Event := [.setline .sda false, .delay, .setline .scl true, .delay, .setline .sda true, .delay]

/-- CONFIGURE: `PINMODE(clock) PINMODE(data) C1 . D1 .` (R130) -/
def configureTrace (clockLine dataLine : Nat) : List Event :=
  [.pinmode clockLine, .pinmode dataLine, .setline .scl true, .delay, .setline .sda true, .delay]

/-- The data cells of bits n-1 down to 0 of a byte. -/
def bitsTrace (b : Byte) : Nat → List Event
  | 0 => []
  | n + 1 => cellTrace (some (b.getLsbD n)) none ++ bitsTrace b n

/-- WRITE_BYTE (R137): the byte, and the level its acknowledgment SAMPLE returned. -/
def writeByteTrace (b : Byte) (ack : Level) : List Event := bitsTrace b 8 ++ cellTrace (some true) (some ack)

/-- The reading cells of bits n-1 down to 0 of a byte (R139). -/
def readBitsTrace (v : Byte) : Nat → List Event
  | 0 => []
  | n + 1 => cellTrace (if n = 7 then some true else none) (some (v.getLsbD n)) ++ readBitsTrace v n

/-- READ_BYTE (R139): the byte read, and whether an ACK is sent. -/
def readByteTrace (v : Byte) (sendAck : Bool) : List Event :=
  readBitsTrace v 8 ++ cellTrace (some (!sendAck)) none ++ [.setline .sda true, .delay]

/-- The byte frames of a transaction: each byte with the level its acknowledgment SAMPLE returned. -/
def framesTrace (frames : List (Byte × Level)) : List Event := frames.flatMap fun f => writeByteTrace f.1 f.2

/-- A transaction (R92, R140): START, the byte frames that were sent, STOP. -/
def txnTrace (bytes : List Byte) (acks : List Level) : List Event :=
  startTrace ++ framesTrace (bytes.zip acks) ++ stopTrace

/-- The acknowledgment levels of a transaction of these bytes (R140, R141): one for each byte sent; the first 1 is the last. -/
def stopsAtNak : List Byte → List Level → Bool
  | [], acks => acks.isEmpty
  | _ :: _, [] => false
  | _ :: bytes, a :: acks => if a then acks.isEmpty else stopsAtNak bytes acks

/-- Every byte was acknowledged. -/
def allAcked (acks : List Level) : Bool := acks.all ackSeen

/-- Transactions one after the other, each a list of bytes with its acknowledgment levels. -/
def txnsTrace (txns : List (List Byte × List Level)) : List Event := txns.flatMap fun x => txnTrace x.1 x.2

/-- The bytes of a CMD transaction (R95, R160): address byte, prefix 0x80, the command byte. -/
def cmdBytes (a : Addr7) (b : Byte) : List Byte := [a ++ 0#1, 0x80, b]

/-- The levels the SAMPLEs of a trace returned. -/
def samplesOf : List Event → List Level
  | [] => []
  | .sample s :: es => s :: samplesOf es
  | .setline _ _ :: es => samplesOf es
  | .delay :: es => samplesOf es
  | .pinmode _ :: es => samplesOf es
  | .powerupWait :: es => samplesOf es

/-- How many SETLINE events a trace has. -/
def setlines (es : List Event) : Nat :=
  es.countP fun e =>
    match e with
    | .setline _ _ => true
    | _ => false

/-- How many SAMPLE events a trace has. -/
def samples (es : List Event) : Nat := (samplesOf es).length

/-- How many DELAY events a trace has. -/
def delays (es : List Event) : Nat := es.countP (· == .delay)

/-- The spacing invariant of R118: a DELAY between any two SETLINEs, and none still to come at the end. `owed` says that a SETLINE
was performed and no DELAY since. -/
def spaced (owed : Bool) : List Event → Bool
  | [] => !owed
  | .setline _ _ :: es => !owed && spaced true es
  | .delay :: es => spaced false es
  | .sample _ :: es => spaced owed es
  | .pinmode _ :: es => spaced owed es
  | .powerupWait :: es => spaced owed es

end Sys2Proof.Machine
end

