-- ==== Sys2Proof/Safety.lean ====
section
/-!
DEFINITION. The terms the claims are stated in: when the bus is ready, what an operation of each kind leaves unchanged, what its
trace and the environment's contributions have to do with each other, the invariants of the spec, and what a picture is.
-/

namespace Sys2Proof.Machine

/-! ## Conditions on a state (R264) -/

/-- A state element is written (R21). -/
def Written {α : Type} (e : Elem α) : Prop := ∃ v, e = .written v

/-- The bus may be used (R29): configured, its three elements written. -/
def BusReady (s : State) : Prop := s.configured = true ∧ Written s.sclId ∧ Written s.sdaId ∧ Written s.delay

/-- A display command may be sent: the bus is ready and the display's address is `a`. -/
def DisplayReady (a : Addr7) (s : State) : Prop := BusReady s ∧ s.dispAddr = .written a

/-- Both lines are released: idle-high (R31). -/
def Released (s : State) : Prop := s.sclOut = true ∧ s.sdaOut = true

/-! ## Frames -/

/-- What no bus operation but CONFIGURE and INITIALIZE changes: the configuration elements, the display's state, the framebuffer,
the configuration record, what the host presents. -/
structure BusFrame (s t : State) : Prop where
  sclId       : t.sclId = s.sclId
  sdaId       : t.sdaId = s.sdaId
  delay       : t.delay = s.delay
  configured  : t.configured = s.configured
  dispAddr    : t.dispAddr = s.dispAddr
  initialized : t.initialized = s.initialized
  fb          : t.fb = s.fb
  cfg         : t.cfg = s.cfg
  host        : t.host = s.host

/-- What a run of micro-operations records and draws: its events are appended to the trace, each SAMPLE takes one contribution of
the environment, and under open_drain a SAMPLE made with SDA released returns exactly that contribution, as long as the list of
contributions lasts (R113); the Register Access record only grows. -/
structure Recorded (s t : State) (events : List Event) : Prop where
  trace : t.trace = s.trace ++ events
  env   : t.env = s.env.drop (samples events)
  drawn : s.cfg.padMode = .openDrain → (samplesOf events).take s.env.length = s.env.take (samples events)
  port  : s.port <+: t.port

/-- A bus operation that ran: its frame and its record. -/
structure BusRun (s t : State) (events : List Event) : Prop extends BusFrame s t, Recorded s t events

/-- What no rendering operation changes: everything but the framebuffer and the result (R40, R213). -/
structure RenderFrame (s t : State) : Prop where
  sclId       : t.sclId = s.sclId
  sdaId       : t.sdaId = s.sdaId
  delay       : t.delay = s.delay
  configured  : t.configured = s.configured
  sclOut      : t.sclOut = s.sclOut
  sdaOut      : t.sdaOut = s.sdaOut
  inTxn       : t.inTxn = s.inTxn
  dispAddr    : t.dispAddr = s.dispAddr
  initialized : t.initialized = s.initialized
  cfg         : t.cfg = s.cfg
  host        : t.host = s.host
  env         : t.env = s.env
  draws       : t.draws = s.draws
  trace       : t.trace = s.trace
  port        : t.port = s.port

/-- An operation of the host has returned (R24, R25, R81): the sequencer is idle, the working registers dead, the result delivered. -/
structure Returned (t : State) (r : Option Result) : Prop where
  seq  : t.seq = .idle
  work : t.work = Work.dead
  ret  : t.ret = r

/-- The idle bus after a composite operation (R143): lines released, no transaction. -/
structure BusIdleAfter (t : State) : Prop where
  released : Released t
  inTxn    : t.inTxn = false

/-- CONFIGURE's body (R130, R131): the three configuration elements, the released lines, its trace, and nothing else. -/
structure Configured (s t : State) (cl dl : Nat) (f : Word) : Prop where
  record      : Recorded s t (configureTrace cl dl)
  sclId       : t.sclId = .written cl
  sdaId       : t.sdaId = .written dl
  delay       : t.delay = .written (delayConstant s.cfg f)
  configured  : t.configured = true
  sclOut      : t.sclOut = true
  sdaOut      : t.sdaOut = true
  inTxn       : t.inTxn = false
  dispAddr    : t.dispAddr = s.dispAddr
  initialized : t.initialized = s.initialized
  fb          : t.fb = s.fb
  cfg         : t.cfg = s.cfg
  host        : t.host = s.host

/-- Several transactions one after the other: their run, each with the acknowledgments of its bytes up to the first NAK (R141), and
the bus idle after them if there was one. -/
structure Txns (s t : State) (txns : List (List Byte × List Level)) : Prop extends BusRun s t (txnsTrace txns) where
  acked : ∀ x ∈ txns, stopsAtNak x.1 x.2 = true
  idle  : txns ≠ [] → BusIdleAfter t
  none_ : txns = [] → t.sclOut = s.sclOut ∧ t.sdaOut = s.sdaOut ∧ t.inTxn = s.inTxn

/-! ## The size of an operation (R144, R145, R276) -/

/-- SETLINE events of one CMD transaction whose three bytes are acknowledged: 7 + 27 * 3 (R145). -/
def cmdSetlines : Nat := 88

/-- SETLINE events of FLUSH with every byte acknowledged (R169): six command transactions and the data transaction. -/
def flushSetlines (c : Params) : Nat := 6 * cmdSetlines + (7 + 27 * (fbSize c + 2))

/-- The all-acknowledged count of SETLINE events of an operation (R145, R169, R171 to R173, R213); no row but an operation has one. -/
def setlineBound (c : Params) : Instr → Option Nat
  | .configure _ _ _ => some 2
  | .start => some 4
  | .stop => some 3
  | .writeByte _ => some 27
  | .readByte _ => some 21
  | .write _ p => some (7 + 27 * (p.length + 1))
  | .writeRegister _ _ p => some (7 + 27 * (p.length + 2))
  | .initDisplay _ _ _ => some (2 + 25 * cmdSetlines + flushSetlines c)
  | .clear => some 0
  | .flush => some (flushSetlines c)
  | .setPixel _ _ _ => some 0
  | .drawGlyph _ _ _ => some 0
  | .drawText _ _ _ => some 0
  | .fillRect _ _ _ _ _ => some 0
  | .setContrast _ => some (2 * cmdSetlines)
  | .setPower _ => some cmdSetlines
  | .setInverted _ => some cmdSetlines
  | _ => none

/-- An event without the level a SAMPLE returned: what the environment cannot change (R144). -/
def blank : Event → Event
  | .sample _ => .sample false
  | .setline l v => .setline l v
  | .delay => .delay
  | .pinmode id => .pinmode id
  | .powerupWait => .powerupWait

/-! ## On the wires (R87, R88) -/

/-- What events put on the wires from a state: with no device pulling a line, in either pad mode, exactly these symbols, which the observer
of the trace decodes too; with a device holding a line low throughout under open_drain, no START and no STOP (R275). -/
structure Shows (s : State) (x : Surroundings) (events : List Event) (symbols : List Symbol) : Prop where
  traced   : observe (watch s) events = symbols
  released : x.scl = true → x.sda = true → (busOf s x).seen (events.map .drives) = symbols
  stuck    : s.cfg.padMode = .openDrain → x.scl = false ∨ x.sda = false →
    ∀ y ∈ (busOf s x).seen (events.map .drives), y ≠ .start ∧ y ≠ .stop

/-! ## Invariants of the spec -/

/-- R29: `S.configured` is 1 exactly when the three elements are written. -/
def ConfiguredIffWritten (s : State) : Prop :=
  (s.configured = true ↔ Written s.sclId ∧ Written s.sdaId ∧ Written s.delay)

/-- R26, R27: the identifiers that are written are below PIN_COUNT, and not equal. -/
def LinesDistinct (s : State) : Prop :=
  ∀ c d, s.sclId = .written c → s.sdaId = .written d → c < s.cfg.pinCount ∧ d < s.cfg.pinCount ∧ c ≠ d

/-- R31: configured and no transaction in progress implies both lines released. -/
def ReleasedWhenIdle (s : State) : Prop := s.configured = true → s.inTxn = false → Released s

/-- R32, R33: an initialized display has a configured bus and a written address. -/
def InitializedHasAddress (s : State) : Prop := s.initialized = true → s.configured = true ∧ Written s.dispAddr

/-- A byte transfer requested on its own (R273 (a)). -/
def isByteTransfer : Instr → Bool
  | .writeByte _ => true
  | .readByte _ => true
  | _ => false

/-- The host keeps R273 (a) at its next act: it requests a byte transfer only inside a transaction. -/
def HostKeepsDiscipline (s : State) : Prop :=
  ∀ bytes rest i, s.host = .request bytes :: rest → decodeRequest bytes = .ok i → isByteTransfer i = true → s.inTxn = true

/-! ## Pictures -/

/-- The pixel at column x, row y is lit (R52), for an in-bounds pixel. -/
def pixelLit (c : Params) (m : Memory) (x y : Int) : Bool := (m.read (pixelIndex c x y)).getLsbD (y.toNat % 8)

/-- The pixel (px, py) is under a set bit of the glyph of `ch` drawn at (x, y) (R205): columns 0 to 4, rows 0 to 6. -/
def underGlyph (c : Params) (x y : Int) (ch : Word) (px py : Int) : Bool :=
  decide (x ≤ px) && decide (px < x + 5) && decide (y ≤ py) && decide (py < y + 7)
    && (glyphColumn c (glyphEntry c ch) (px - x).toNat).getLsbD (py - y).toNat

/-- The pixel (px, py) is in the rectangle (R211): x ≤ px < x + w and y ≤ py < y + h. -/
def inRect (x y w h : Int) (px py : Int) : Bool :=
  decide (x ≤ px) && decide (px < x + w) && decide (y ≤ py) && decide (py < y + h)

/-- Where DRAW_TEXT draws each character (R208, R209, R210), from the cursor (cx, cy) on: column, row, character. -/
def textCells (c : Params) (x : Int) : List Word → Int → Int → List (Int × Int × Word)
  | [], _, _ => []
  | ch :: rest, cx, cy =>
    if ch = c.newline then textCells c x rest x (cy + 8)
    else if cx + 6 > c.width then (x, cy + 8, ch) :: textCells c x rest (x + 6) (cy + 8)
    else (cx, cy, ch) :: textCells c x rest (cx + 6) cy

/-! ## Coordinate sums (R204) -/

/-- The range of a coordinate sum: signed 32 bits. -/
def InRange (v : Int) : Prop := -2147483648 ≤ v ∧ v ≤ 2147483647

/-- The sums DRAW_GLYPH at (x, y) forms: `x + col` and `y + row` for each set bit (R205). -/
def GlyphSum (c : Params) (x y : Int) (ch : Word) (v : Int) : Prop :=
  ∃ col row : Nat, col < 5 ∧ row < 7 ∧ (glyphColumn c (glyphEntry c ch) col).getLsbD row = true ∧ (v = x + col ∨ v = y + row)

/-- The sums DRAW_TEXT forms from the cursor (cx, cy) on (R208): `cy + 8` at a newline and at a wrap, `cx + 6` in the wrap test and
after each glyph, and those of each DRAW_GLYPH. -/
def TextSum (c : Params) (x : Int) : List Word → Int → Int → Int → Prop
  | [], _, _, _ => False
  | ch :: rest, cx, cy, v =>
    if ch = c.newline then v = cy + 8 ∨ TextSum c x rest x (cy + 8) v
    else
      v = cx + 6 ∨
        (if cx + 6 > c.width then
          v = cy + 8 ∨ GlyphSum c x (cy + 8) ch v ∨ v = x + 6 ∨ TextSum c x rest (x + 6) (cy + 8) v
        else GlyphSum c cx cy ch v ∨ TextSum c x rest (cx + 6) cy v)

/-- The sums FILL_RECT forms (R211): `x + dx` and `y + dy` for each pixel of the rectangle. -/
def RectSum (x y w h : Int) (v : Int) : Prop :=
  ∃ dx dy : Int, 0 ≤ dx ∧ dx < w ∧ 0 ≤ dy ∧ dy < h ∧ (v = x + dx ∨ v = y + dy)

/-! ## Command bytes -/

/-- The command bytes that a display command row sends (R96, R161): the opcode byte from the record CMDS, then its parameters. -/
def commandBytes (c : Params) : Instr → Option (List Byte)
  | .cmdsDisplayOff => some [c.cmds.displayOff]
  | .cmdsSetClockDiv p => some [c.cmds.setClockDiv, p]
  | .cmdsSetMultiplex p => some [c.cmds.setMultiplex, p]
  | .cmdsSetDisplayOffset p => some [c.cmds.setDisplayOffset, p]
  | .cmdsSetStartLine l => some [c.cmds.setStartLine + l.setWidth 8]
  | .cmdsChargePump p => some [c.cmds.chargePump, p]
  | .cmdsSetAddrMode p => some [c.cmds.setAddrMode, p]
  | .cmdsSegRemap r => some [c.cmds.segRemap + r.setWidth 8]
  | .cmdsComScanDir d => some [c.cmds.comScanDir + 8 * d.setWidth 8]
  | .cmdsSetComPins p => some [c.cmds.setComPins, p]
  | .cmdsSetContrast p => some [c.cmds.setContrast, p]
  | .cmdsSetPrecharge p => some [c.cmds.setPrecharge, p]
  | .cmdsSetVcomDetect p => some [c.cmds.setVcomDetect, p]
  | .cmdsDisplayResume => some [c.cmds.displayResume]
  | .cmdsNormalDisplay => some [c.cmds.normalDisplay]
  | .cmdsInvertDisplay => some [c.cmds.invertDisplay]
  | .cmdsDisplayOn => some [c.cmds.displayOn]
  | .cmdsSetColumnAddr p1 p2 => some [c.cmds.setColumnAddr, p1, p2]
  | .cmdsSetPageAddr p1 p2 => some [c.cmds.setPageAddr, p1, p2]
  | _ => none

/-- The byte that an address byte or control prefix row sends (R93, R94). -/
def frameByte : Instr → Option Byte
  | .addrWrite a => some (a ++ 0#1)
  | .addrRead a => some (a ++ 1#1)
  | .ctrlCommand => some 0x80
  | .ctrlDataStream => some 0x40
  | _ => none

/-! ## When an instruction is performed (R264) -/

/-- CONFIGURE's conditions (R132). -/
def LinesUsable (c : Params) (cl dl : Nat) (f : Word) : Prop := f ≠ 0 ∧ cl < c.pinCount ∧ dl < c.pinCount ∧ cl ≠ dl

/-- A display command can be sent: an address, and the bus ready (R29, R32). -/
def CommandReady (s : State) : Prop := Written s.dispAddr ∧ BusReady s

/-- What must be true before each instruction (R264, R132, R166, R175, R204; R21 and R82 for the rows that are pieces). -/
def Performed (s : State) : Instr → Prop
  | .configure cl dl f => LinesUsable s.cfg cl dl f
  | .start => BusReady s
  | .stop => BusReady s
  | .writeByte _ => BusReady s
  | .readByte _ => BusReady s
  | .write _ _ => BusReady s
  | .writeRegister _ _ _ => BusReady s
  | .initDisplay _ cl dl => s.initialized = false ∧ LinesUsable s.cfg cl dl s.cfg.displayBusHz
  | .clear => True
  | .flush => s.initialized = true ∧ CommandReady s
  | .setPixel _ _ _ => True
  | .drawGlyph x y ch => ∀ v, GlyphSum s.cfg x.toInt y.toInt ch v → InRange v
  | .drawText x y text => ∀ v, TextSum s.cfg x.toInt text x.toInt y.toInt v → InRange v
  | .fillRect x y w h _ => ∀ v, RectSum x.toInt y.toInt w.toInt h.toInt v → InRange v
  | .setContrast _ => s.initialized = true ∧ CommandReady s
  | .setPower _ => s.initialized = true ∧ CommandReady s
  | .setInverted _ => s.initialized = true ∧ CommandReady s
  | .setline l _ => Written (lineId l s)
  | .sample => Written s.sdaId
  | .delay => Written s.delay
  | .pinmode id => id < s.cfg.pinCount
  | .powerupWait => True
  | .addrWrite _ => BusReady s
  | .addrRead _ => BusReady s
  | .ctrlCommand => BusReady s
  | .ctrlDataStream => BusReady s
  | .cmdsDisplayOff => CommandReady s
  | .cmdsSetClockDiv _ => CommandReady s
  | .cmdsSetMultiplex _ => CommandReady s
  | .cmdsSetDisplayOffset _ => CommandReady s
  | .cmdsSetStartLine _ => CommandReady s
  | .cmdsChargePump _ => CommandReady s
  | .cmdsSetAddrMode _ => CommandReady s
  | .cmdsSegRemap _ => CommandReady s
  | .cmdsComScanDir _ => CommandReady s
  | .cmdsSetComPins _ => CommandReady s
  | .cmdsSetContrast _ => CommandReady s
  | .cmdsSetPrecharge _ => CommandReady s
  | .cmdsSetVcomDetect _ => CommandReady s
  | .cmdsDisplayResume => CommandReady s
  | .cmdsNormalDisplay => CommandReady s
  | .cmdsInvertDisplay => CommandReady s
  | .cmdsDisplayOn => CommandReady s
  | .cmdsSetColumnAddr _ _ => CommandReady s
  | .cmdsSetPageAddr _ _ => CommandReady s

end Sys2Proof.Machine
end

