-- ==== Sys2Proof/Certificates/Slice0/Obligations.lean ====
section
/-!
DEFINITION. The statements for the provers. Each docstring says which rule of spec/ it formalises; a log entry is
notes/assumptions/<n>.md.
-/

open Sys2Proof Sys2Proof.Machine

/-! ## Encoding -/

/-- Every row, every operand value: decode of encode is the instruction, and the bytes after it are left. The codes and patterns are those of
R83, R84, R93, R94 and R96; the operand packing is the model's own (log 1). -/
def Obligations.DecodeOfEncode : Prop :=
  ∀ (i : Instr) (rest : List Byte), i.wf = true → decode i.format (encode i ++ rest) = .ok (i, rest)

/-- The other direction: what a decoder accepts is exactly an encoding of its own format (R85, R105); no reserved encoding falls through.
The operand packing is the model's own (log 1). -/
def Obligations.EncodeOfDecode : Prop :=
  ∀ (f : Format) (bytes : List Byte) (i : Instr) (rest : List Byte),
    decode f bytes = .ok (i, rest) → i.format = f ∧ i.wf = true ∧ bytes = encode i ++ rest

/-- Words written out from the spec's tables (R83, R84, R93, R94, R96; V14, P1, P5); operand bytes of requests in the model's packing (log 1). -/
def Obligations.SampleWordsDecode : Prop :=
  decodeRequest [0x01, 6, 0, 0, 0, 7, 0, 0, 0, 0x80, 0x1A, 0x06, 0x00] = .ok (.configure 6 7 400000)
    ∧ decodeRequest [0x06, 0x3C, 1, 0x80, 1, 0xAE, 0] = .ok (.write 0x3C [0x80, 0xAE])
    ∧ decodeRequest [0x13, 0xFF, 0xFF, 0xFF, 0xFF, 10, 0, 0, 0, 1] = .ok (.setPixel (-1) 10 true)
    ∧ decode .uop [0x20, 1, 0] = .ok (.setline .sda false, [])
    ∧ decode .addr [0x78] = .ok (.addrWrite 0x3C, [])
    ∧ decode .addr [0x79] = .ok (.addrRead 0x3C, [])
    ∧ decode .ctrl [0x80] = .ok (.ctrlCommand, [])
    ∧ decode .cmd1 [0x7F] = .ok (.cmdsSetStartLine 63, [])
    ∧ decode .cmd1 [0xC8] = .ok (.cmdsComScanDir 1, [])
    ∧ decode .cmd1 [0xA1] = .ok (.cmdsSegRemap 1, [])
    ∧ decode .cmd2 [0xA8, 0x3F] = .ok (.cmdsSetMultiplex 0x3F, [])
    ∧ decode .cmd3 [0x21, 0x00, 0x7F] = .ok (.cmdsSetColumnAddr 0 0x7F, [])

/-! ## The sequencer -/

/-- R25, R81, R270: an idle sequencer runs the requested operation. One step is one whole operation (log 3); the packing is log 1. -/
def Obligations.StepRunsRequest : Prop :=
  ∀ (s : State) (bytes : List Byte) (acts : List HostAct) (i : Instr),
    configOk s.cfg = true → s.seq = .idle → s.host = .request bytes :: acts → decodeRequest bytes = .ok i →
    step s = exec i { s with host := acts }

/-- R25, R81: an operation in progress goes on with its next piece and ends at its return. Pieces as instructions are the model's own (log 4). -/
def Obligations.StepRunsPiece : Prop :=
  ∀ (s : State) (op : Byte) (pos : Nat), configOk s.cfg = true → s.host = [] →
    (∀ (i : Instr) (todo : List Instr), s.seq = .running op pos (i :: todo) →
      step s = exec i { s with seq := .running op pos todo })
    ∧ (s.seq = .running op pos [] → step s = .next { s with seq := .idle, work := Work.dead })

/-- That a step exists with nothing presented and answers the same state is the model's own choice (log 26), the form here of R39's "stays so until
the host starts an operation". -/
def Obligations.IdleStaysIdle : Prop :=
  ∀ s : State, configOk s.cfg = true → s.seq = .idle → s.host = [] → step s = .next s

/-- R271 (a), U8: no meaning for a request made while the sequencer is not idle. The refusal of a host's framebuffer write then is the
model's own (log 18); R271 (c) speaks of FLUSH only. -/
def Obligations.BusyIsRefused : Prop :=
  ∀ (s : State) (op : Byte) (pos : Nat) (todo : List Instr), s.seq = .running op pos todo →
    (∀ i : Instr, i.format = .op → exec i s = .refused .busy)
    ∧ (∀ (a : HostAct) (acts : List HostAct), configOk s.cfg = true → s.host = a :: acts → step s = .refused .busy)

/-- R85: every code outside 0x01..0x07 and 0x10..0x19 names no operation; the micro-operation codes are not requests either. -/
def Obligations.IllegalCodeRefused : Prop :=
  ∀ (s : State) (c : Byte) (bytes : List Byte) (acts : List HostAct),
    configOk s.cfg = true → s.seq = .idle → s.host = .request (c :: bytes) :: acts →
    ¬ (0x01 ≤ c.toNat ∧ c.toNat ≤ 0x07) → ¬ (0x10 ≤ c.toNat ∧ c.toNat ≤ 0x19) →
    step s = .refused (.badRequest (.illegalCode c))

/-- R93, U6: an address of 128 or more is refused rather than losing bit 7. The byte that holds it is the model's packing (log 1). -/
def Obligations.WideAddressRefused : Prop :=
  ∀ (s : State) (c a : Byte) (bytes : List Byte) (acts : List HostAct),
    configOk s.cfg = true → s.seq = .idle → s.host = .request (c :: a :: bytes) :: acts →
    (c = 0x06 ∨ c = 0x07 ∨ c = 0x10) → 128 ≤ a.toNat →
    step s = .refused (.badRequest (.badAddress a))

/-- R9: the constraints between parameters; a configuration that breaks one is refused. Made at every step (log 25). -/
def Obligations.ParametersChecked : Prop :=
  (∀ c : Params, configOk c = true ↔
    c.height % 8 = 0 ∧ 1 ≤ c.width ∧ c.width ≤ 256 ∧ 8 ≤ c.height ∧ c.height ≤ 256
      ∧ c.printableLo.toNat ≤ c.printableHi.toNat ∧ c.printableHi.toNat - c.printableLo.toNat + 1 = 95
      ∧ c.glyph.length = 95 ∧ (∀ entry ∈ c.glyph, entry.length = 5)
      ∧ c.printableLo.toNat ≤ 0x20 ∧ 0x20 ≤ c.printableHi.toNat
      ∧ ¬ (c.printableLo.toNat ≤ c.newline.toNat ∧ c.newline.toNat ≤ c.printableHi.toNat))
    ∧ ∀ s : State, configOk s.cfg = false → step s = .refused .badConfiguration

/-- R39, R260. The latches and the byte values are unspecified (log 8, log 9): nothing is said of them. -/
def Obligations.ResetState : Prop :=
  ∀ c : Params,
    (State.resetWith c).seq = .idle ∧ (State.resetWith c).configured = false ∧ (State.resetWith c).initialized = false
      ∧ (State.resetWith c).inTxn = false ∧ (State.resetWith c).sclId = .unwritten ∧ (State.resetWith c).sdaId = .unwritten
      ∧ (State.resetWith c).delay = .unwritten ∧ (State.resetWith c).dispAddr = .unwritten
      ∧ (State.resetWith c).work = Work.dead ∧ (State.resetWith c).fb.cells = []
      ∧ (State.resetWith c).fb.init.length = c.width * c.height / 8

/-! ## Micro-operations -/

/-- R111, R57, R58. Frame: the other latch, every other element, every framebuffer byte. The accesses are those of the line's PinMap entry,
whose shape is the model's own (log 12, log 19). -/
def Obligations.SetlineEffect : Prop :=
  ∀ (l : Line) (v : Level) (s : State) (id : Nat), lineId l s = .written id →
    ∃ (t : State) (accesses : List RegAccess),
      exec (.setline l v) s = .next t
        ∧ t.sclOut = (if l = .scl then v else s.sclOut) ∧ t.sdaOut = (if l = .sda then v else s.sdaOut)
        ∧ BusRun s t [.setline l v] ∧ t.inTxn = s.inTxn ∧ t.work = s.work ∧ t.ret = none
        ∧ (∀ op pos todo, s.seq = .running op pos todo → t.seq = .running op (pos + 1) todo)
        ∧ t.port = (pinActs (levelActs (pinEntry s.cfg id) v) s).port
        ∧ t.port = s.port ++ accesses ∧ (∃ a w, RegAccess.write a w ∈ accesses)
        ∧ (∀ a w, RegAccess.write a w ∈ accesses ∨ RegAccess.read a w ∈ accesses → a.toNat % 4 = 0)

/-- R113, R87 in both pad modes, R119. Where the environment's contribution comes from is log 10, the undefined level of R87 is log 11, which
word and bit are read is PinMap (log 12). -/
def Obligations.SampleEffect : Prop :=
  ∀ (s : State) (id : Nat), s.sdaId = .written id →
    ∃ (t : State) (v : Level) (w : Word),
      exec .sample s = .next t ∧ t.ret = some (.level v)
        ∧ t.trace = s.trace ++ [.sample v]
        ∧ t.port = s.port ++ [.read (wordAddr (pinEntry s.cfg id).inAddr) w] ∧ w.getLsbD (pinEntry s.cfg id).inBit.val = v
        ∧ v = wireLevel s.cfg.padMode s.sdaOut (envLevel s) (Config.contention s.draws)
        ∧ (s.sdaOut = false → v = false)
        ∧ (∀ l rest, s.env = l :: rest → (s.cfg.padMode = .openDrain → v = (s.sdaOut && l)) ∧ (l = true → v = s.sdaOut))
        ∧ BusFrame s t ∧ t.sclOut = s.sclOut ∧ t.sdaOut = s.sdaOut ∧ t.inTxn = s.inTxn ∧ t.work = s.work
        ∧ t.env = s.env.drop 1
        ∧ (∀ op pos todo, s.seq = .running op pos todo → t.seq = .running op (pos + 1) todo)

/-- R114, R116, R162: an event and nothing else of the block; PINMODE's accesses are its PinMap entry's (log 12). No time (log 21). -/
def Obligations.SilentMicroOperations : Prop :=
  ∀ (i : Instr) (e : Event) (s : State),
    (i = .delay ∧ e = .delay ∧ Written s.delay)
      ∨ (∃ id, i = .pinmode id ∧ e = .pinmode id ∧ id < s.cfg.pinCount)
      ∨ (i = .powerupWait ∧ e = .powerupWait) →
    ∃ t : State,
      exec i s = .next t ∧ BusRun s t [e] ∧ t.sclOut = s.sclOut ∧ t.sdaOut = s.sdaOut ∧ t.inTxn = s.inTxn
        ∧ t.work = s.work ∧ t.ret = none ∧ (t.port = s.port ∨ ∃ id, i = .pinmode id)
        ∧ (∀ id, i = .pinmode id → t.port = (pinActs (pinEntry s.cfg id).mode s).port)
        ∧ (∀ op pos todo, s.seq = .running op pos todo → t.seq = .running op (pos + 1) todo)

/-- R21, R111, R114: an unwritten element is not read. PINMODE's operand is a line identifier (R82, log 29). -/
def Obligations.UnwrittenReadsRefused : Prop :=
  ∀ s : State,
    (∀ v, s.sclId = .unwritten → exec (.setline .scl v) s = .refused (.unwrittenElement "S.scl_id"))
    ∧ (∀ v, s.sdaId = .unwritten → exec (.setline .sda v) s = .refused (.unwrittenElement "S.sda_id"))
    ∧ (s.sdaId = .unwritten → exec .sample s = .refused (.unwrittenElement "S.sda_id"))
    ∧ (s.delay = .unwritten → exec .delay s = .refused (.unwrittenElement "S.delay"))
    ∧ (∀ id, s.cfg.pinCount ≤ id → exec (.pinmode id) s = .refused (.lineOutOfRange id))

/-! ## Bus master -/

/-- R130, R131, R133. Frame: the display's elements, every framebuffer byte. -/
def Obligations.ConfigureResult : Prop :=
  ∀ (c d : Nat) (f : Word) (s : State),
    s.seq = .idle → f ≠ 0 → c < s.cfg.pinCount → d < s.cfg.pinCount → c ≠ d →
    ∃ (t : State) (k : Word),
      exec (.configure c d f) s = .next t ∧ Configured s t c d f
        ∧ t.delay = .written k ∧ k.toNat = s.cfg.assumedClockHz.toNat / f.toNat / 4 ∧ Returned t none

/-- R132, in the order of R236. -/
def Obligations.ConfigureRefusals : Prop :=
  ∀ (c d : Nat) (f : Word) (s : State), s.seq = .idle →
    (f = 0 → exec (.configure c d f) s = .refused .zeroFrequency)
    ∧ (f ≠ 0 → s.cfg.pinCount ≤ c → exec (.configure c d f) s = .refused (.lineOutOfRange c))
    ∧ (f ≠ 0 → c < s.cfg.pinCount → s.cfg.pinCount ≤ d → exec (.configure c d f) s = .refused (.lineOutOfRange d))
    ∧ (f ≠ 0 → c < s.cfg.pinCount → c = d → exec (.configure c d f) s = .refused (.equalLines c))

/-- R135, R40. Frame: BusFrame. -/
def Obligations.StartResult : Prop :=
  ∀ s : State, s.seq = .idle → BusReady s →
    ∃ t : State,
      exec .start s = .next t ∧ BusRun s t startTrace ∧ t.sclOut = false ∧ t.sdaOut = false ∧ t.inTxn = true
        ∧ Returned t (some (.bool true))

/-- R136, R40. Frame: BusFrame. -/
def Obligations.StopResult : Prop :=
  ∀ s : State, s.seq = .idle → BusReady s →
    ∃ t : State, exec .stop s = .next t ∧ BusRun s t stopTrace ∧ BusIdleAfter t ∧ Returned t none

/-- S2 of 95_test_vectors.md, R136. -/
def Obligations.StartThenStop : Prop :=
  ∀ s : State, s.seq = .idle → BusReady s →
    ∃ t u : State,
      exec .start s = .next t ∧ exec .stop t = .next u ∧ Released u ∧ u.inTxn = false
        ∧ u.trace = s.trace ++ (startTrace ++ stopTrace)
        ∧ setlines (startTrace ++ stopTrace) = 7 ∧ samples (startTrace ++ stopTrace) = 0 ∧ delays (startTrace ++ stopTrace) = 7

/-- R137, R91, R145. Frame: BusFrame, in_txn. -/
def Obligations.WriteByteResult : Prop :=
  ∀ (b : Byte) (s : State), s.seq = .idle → BusReady s →
    ∃ (t : State) (ack : Level),
      exec (.writeByte b) s = .next t ∧ BusRun s t (writeByteTrace b ack) ∧ Returned t (some (.bool (!ack)))
        ∧ (∀ l rest, s.cfg.padMode = .openDrain → s.env = l :: rest → ack = l)
        ∧ t.sclOut = false ∧ t.sdaOut = true ∧ t.inTxn = s.inTxn
        ∧ setlines (writeByteTrace b ack) = 27 ∧ samples (writeByteTrace b ack) = 1 ∧ delays (writeByteTrace b ack) = 36

/-- R139, R60 (a), R145. Frame: BusFrame, in_txn. -/
def Obligations.ReadByteResult : Prop :=
  ∀ (sendAck : Bool) (s : State), s.seq = .idle → BusReady s →
    ∃ (t : State) (v : Byte),
      exec (.readByte sendAck) s = .next t ∧ BusRun s t (readByteTrace v sendAck) ∧ Returned t (some (.byte v))
        ∧ (s.cfg.padMode = .openDrain → 8 ≤ s.env.length → ∀ n < 8, s.env[n]? = some (v.getLsbD (7 - n)))
        ∧ t.sclOut = false ∧ t.sdaOut = true ∧ t.inTxn = s.inTxn
        ∧ setlines (readByteTrace v sendAck) = 21 ∧ samples (readByteTrace v sendAck) = 8 ∧ delays (readByteTrace v sendAck) = 37

/-- R140, R141, R143, R93. `stopsAtNak` says that the levels are those of the bytes up to the first NAK. Frame: BusFrame. -/
def Obligations.WriteResult : Prop :=
  ∀ (a : Addr7) (p : List Byte) (s : State), s.seq = .idle → BusReady s →
    ∃ (t : State) (acks : List Level),
      exec (.write a p) s = .next t
        ∧ stopsAtNak ((a ++ 0#1) :: p) acks = true ∧ BusRun s t (txnTrace ((a ++ 0#1) :: p) acks)
        ∧ Returned t (some (.bool (allAcked acks))) ∧ BusIdleAfter t

/-- R142, R141, R143, R93. Frame: BusFrame. -/
def Obligations.WriteRegisterResult : Prop :=
  ∀ (a : Addr7) (r : Byte) (p : List Byte) (s : State), s.seq = .idle → BusReady s →
    ∃ (t : State) (acks : List Level),
      exec (.writeRegister a r p) s = .next t
        ∧ stopsAtNak ((a ++ 0#1) :: r :: p) acks = true ∧ BusRun s t (txnTrace ((a ++ 0#1) :: r :: p) acks)
        ∧ Returned t (some (.bool (allAcked acks))) ∧ BusIdleAfter t

/-- R142, R92: wire-identical in every case, the abort cases included; here the whole outcome is equal. -/
def Obligations.WriteRegisterIsWrite : Prop :=
  ∀ (a : Addr7) (r : Byte) (p : List Byte) (s : State), exec (.writeRegister a r p) s = exec (.write a (r :: p)) s

/-- R141, R145, S3: the abort at byte j. -/
def Obligations.WriteAborts : Prop :=
  ∀ (a : Addr7) (p : List Byte) (j : Nat) (rest : List Level) (s : State),
    s.seq = .idle → BusReady s → s.cfg.padMode = .openDrain → j ≤ p.length →
    s.env = List.replicate j false ++ true :: rest →
    ∃ (t : State) (events : List Event),
      events = startTrace ++ framesTrace ((((a ++ 0#1) :: p).take (j + 1)).zip (List.replicate j false ++ [true])) ++ stopTrace
        ∧ exec (.write a p) s = .next t ∧ t.trace = s.trace ++ events ∧ t.ret = some (.bool false) ∧ BusIdleAfter t
        ∧ t.env = rest
        ∧ setlines events = 7 + 27 * (j + 1) ∧ samples events = j + 1 ∧ delays events = 7 + 36 * (j + 1)

/-- R140, R145: the all-acknowledged path. -/
def Obligations.WriteAllAcknowledged : Prop :=
  ∀ (a : Addr7) (p : List Byte) (rest : List Level) (s : State),
    s.seq = .idle → BusReady s → s.cfg.padMode = .openDrain → s.env = List.replicate (p.length + 1) false ++ rest →
    ∃ (t : State) (events : List Event),
      events = txnTrace ((a ++ 0#1) :: p) (List.replicate (p.length + 1) false)
        ∧ exec (.write a p) s = .next t ∧ t.trace = s.trace ++ events ∧ t.ret = some (.bool true) ∧ t.env = rest
        ∧ setlines events = 7 + 27 * (p.length + 1) ∧ samples events = p.length + 1 ∧ delays events = 7 + 36 * (p.length + 1)

/-- R29, R21, U1, U2, R175, R264. The refusal of the byte frame and display command rows, as pieces, is the model's own (log 4). -/
def Obligations.UnconfiguredBusRefused : Prop :=
  ∀ (i : Instr) (s : State), s.configured = false →
    (s.seq = .idle →
      (i = .start ∨ i = .stop ∨ (∃ b, i = .writeByte b) ∨ (∃ k, i = .readByte k) ∨ (∃ a p, i = .write a p)
        ∨ ∃ a r p, i = .writeRegister a r p) → exec i s = .refused .notConfigured)
    ∧ (s.seq = .idle →
        (i = .flush ∨ (∃ l, i = .setContrast l) ∨ (∃ on, i = .setPower on) ∨ ∃ on, i = .setInverted on) →
        (s.initialized = false → exec i s = .refused .notInitialized)
        ∧ (s.initialized = true → s.dispAddr = .unwritten → exec i s = .refused (.unwrittenElement "S.disp_addr"))
        ∧ (s.initialized = true → Written s.dispAddr → exec i s = .refused .notConfigured))
    ∧ ((frameByte i).isSome = true → exec i s = .refused .notConfigured)
    ∧ ((commandBytes s.cfg i).isSome = true →
        (s.dispAddr = .unwritten → exec i s = .refused (.unwrittenElement "S.disp_addr"))
        ∧ (Written s.dispAddr → exec i s = .refused .notConfigured))

/-- R90, R93, R94, R137: the byte frame of the row's byte. Rows as pieces: log 4. -/
def Obligations.FramePieces : Prop :=
  ∀ (i : Instr) (b : Byte) (s : State), frameByte i = some b → BusReady s →
    ∃ (t : State) (ack : Level),
      exec i s = .next t ∧ BusRun s t (writeByteTrace b ack) ∧ t.ret = some (.bool (!ack))
        ∧ t.sclOut = false ∧ t.sdaOut = true ∧ t.inTxn = s.inTxn

/-! ## On the wire -/

/-- R87, R88 on what R133, R135 and R136 perform (V1, V5, V6, V9, V10); R275 (a), (c) for a line that is held. The observer is the model's own
(log 30). -/
def Obligations.FramingSymbols : Prop :=
  ∀ (s : State) (x : Surroundings), s.seq = .idle →
    (BusReady s →
      (∃ (t : State) (events : List Event),
        exec .start s = .next t ∧ t.trace = s.trace ++ events
          ∧ Shows s x events ((if s.sclOut && !s.sdaOut then [.stop] else []) ++ [.start]))
      ∧ (∃ (t : State) (events : List Event),
        exec .stop s = .next t ∧ t.trace = s.trace ++ events
          ∧ Shows s x events ((if s.sclOut && s.sdaOut then [.start] else []) ++ [.stop])))
    ∧ (∀ (c d : Nat) (f : Word), LinesUsable s.cfg c d f →
      ∃ (t : State) (events : List Event),
        exec (.configure c d f) s = .next t ∧ t.trace = s.trace ++ events
          ∧ Shows s x events (if s.sdaOut then [] else [.stop]))

/-- R89, R90, R91, S1. The observer is the model's own (log 30). -/
def Obligations.BytesOnTheWire : Prop :=
  ∀ s : State, s.seq = .idle → BusReady s → s.sclOut = false →
    (∀ b : Byte, ∃ (t : State) (events : List Event) (ack : Level),
      exec (.writeByte b) s = .next t ∧ t.trace = s.trace ++ events ∧ t.ret = some (.bool (!ack))
        ∧ observe (watch s) events = frameSymbols b ack)
    ∧ (∀ sendAck : Bool, ∃ (t : State) (events : List Event) (v : Byte),
      exec (.readByte sendAck) s = .next t ∧ t.trace = s.trace ++ events ∧ t.ret = some (.byte v)
        ∧ observe (watch s) events = frameSymbols v (!sendAck))

/-- R92, R93, R141, R143: the bit-exact wire format of a transaction. The observer is the model's own (log 30). -/
def Obligations.TransactionOnTheWire : Prop :=
  ∀ (a : Addr7) (p : List Byte) (s : State), s.seq = .idle → BusReady s → Released s →
    ∃ (t : State) (events : List Event) (acks : List Level),
      exec (.write a p) s = .next t ∧ t.trace = s.trace ++ events ∧ t.ret = some (.bool (allAcked acks))
        ∧ stopsAtNak ((a ++ 0#1) :: p) acks = true
        ∧ observe (watch s) events = txnSymbols (((a ++ 0#1) :: p).zip acks)

/-- R118, for every operation of the host. -/
def Obligations.SpacingInvariant : Prop :=
  ∀ (i : Instr) (s t : State), i.format = .op → exec i s = .next t →
    ∃ events : List Event, t.trace = s.trace ++ events ∧ spaced false events = true

/-- R144, R145, R276: nothing the environment does can lengthen an operation. -/
def Obligations.OperationSizeBound : Prop :=
  ∀ (i : Instr) (n : Nat) (s t : State), setlineBound s.cfg i = some n → exec i s = .next t →
    ∃ events : List Event, t.trace = s.trace ++ events ∧ setlines events ≤ n

/-- R144: the environment can change only the value of each SAMPLE. -/
def Obligations.EnvironmentChangesOnlySamples : Prop :=
  ∀ (i : Instr) (s t : State) (env : List Level) (draws : Nat),
    ((∃ c d f, i = .configure c d f) ∨ i = .start ∨ i = .stop ∨ (∃ b, i = .writeByte b) ∨ ∃ k, i = .readByte k) →
    exec i s = .next t →
    ∃ u : State,
      exec i { s with env := env, draws := draws } = .next u ∧ u.trace.map blank = t.trace.map blank
        ∧ BusFrame t u ∧ u.sclOut = t.sclOut ∧ u.sdaOut = t.sdaOut ∧ u.inTxn = t.inTxn ∧ u.seq = t.seq

/-! ## Display -/

/-- R163, R164 byte by byte (the contract of R100), R165, R167, R95. Frame: the configuration, what the host presents, no byte outside the
framebuffer. -/
def Obligations.InitializeResult : Prop :=
  ∀ (a : Addr7) (c d : Nat) (s : State),
    s.seq = .idle → s.initialized = false → s.cfg.displayBusHz ≠ 0 → c < s.cfg.pinCount → d < s.cfg.pinCount → c ≠ d → s.fb.wf →
    ∃ (t : State) (ackss : List (List Level)) (acks : List Level) (txns : List (List Byte × List Level)),
      txns = ([s.cfg.cmds.displayOff, s.cfg.cmds.setClockDiv, s.cfg.init.clockDiv,
              s.cfg.cmds.setMultiplex, BitVec.ofNat 8 (s.cfg.height - 1), s.cfg.cmds.setDisplayOffset, 0x00,
              s.cfg.cmds.setStartLine, s.cfg.cmds.chargePump, s.cfg.init.chargePumpOn,
              s.cfg.cmds.setAddrMode, s.cfg.init.addrModeHorizontal,
              s.cfg.cmds.segRemap + s.cfg.init.segRemapR.setWidth 8, s.cfg.cmds.comScanDir + 8 * s.cfg.init.comScanD.setWidth 8,
              s.cfg.cmds.setComPins, s.cfg.init.comPins, s.cfg.cmds.setContrast, s.cfg.init.initContrast,
              s.cfg.cmds.setPrecharge, s.cfg.init.precharge, s.cfg.cmds.setVcomDetect, s.cfg.init.vcomDetect,
              s.cfg.cmds.displayResume, s.cfg.cmds.normalDisplay, s.cfg.cmds.displayOn,
              s.cfg.cmds.setColumnAddr, 0x00, BitVec.ofNat 8 (s.cfg.width - 1),
              s.cfg.cmds.setPageAddr, 0x00, BitVec.ofNat 8 (s.cfg.height / 8 - 1)].map (cmdBytes a)).zip ackss
          ++ [((a ++ 0#1) :: 0x40 :: List.replicate (fbSize s.cfg) 0, acks)]
        ∧ ackss.length = 31 ∧ (∀ x ∈ txns, stopsAtNak x.1 x.2 = true)
        ∧ exec (.initDisplay a c d) s = .next t
        ∧ Recorded s t (configureTrace c d ++ [.powerupWait] ++ txnsTrace txns)
        ∧ t.dispAddr = .written a ∧ t.sclId = .written c ∧ t.sdaId = .written d
        ∧ t.delay = .written (delayConstant s.cfg s.cfg.displayBusHz) ∧ t.configured = true ∧ t.initialized = true
        ∧ (∀ n, t.fb.read n = if n < fbSize s.cfg then 0 else s.fb.read n)
        ∧ t.cfg = s.cfg ∧ t.host = s.host ∧ BusIdleAfter t ∧ Returned t (some (.bool true))

/-- R166 (a), R163, in the order of R236. -/
def Obligations.InitializeRefusals : Prop :=
  ∀ (a : Addr7) (c d : Nat) (s : State), s.seq = .idle →
    (s.initialized = true → exec (.initDisplay a c d) s = .refused .alreadyInitialized)
    ∧ (s.initialized = false →
        (s.cfg.displayBusHz = 0 → exec (.initDisplay a c d) s = .refused .zeroFrequency)
        ∧ (s.cfg.displayBusHz ≠ 0 → s.cfg.pinCount ≤ c → exec (.initDisplay a c d) s = .refused (.lineOutOfRange c))
        ∧ (s.cfg.displayBusHz ≠ 0 → c < s.cfg.pinCount → s.cfg.pinCount ≤ d →
            exec (.initDisplay a c d) s = .refused (.lineOutOfRange d))
        ∧ (s.cfg.displayBusHz ≠ 0 → c < s.cfg.pinCount → c = d → exec (.initDisplay a c d) s = .refused (.equalLines c)))

/-- R167, R168, R95, R60 (c). Frame: BusFrame, so every framebuffer byte. -/
def Obligations.FlushResult : Prop :=
  ∀ (a : Addr7) (s : State), s.seq = .idle → s.initialized = true → DisplayReady a s →
    ∃ (t : State) (ackss : List (List Level)) (acks : List Level),
      exec .flush s = .next t ∧ ackss.length = 6
        ∧ Txns s t (([s.cfg.cmds.setColumnAddr, 0x00, BitVec.ofNat 8 (s.cfg.width - 1),
              s.cfg.cmds.setPageAddr, 0x00, BitVec.ofNat 8 (s.cfg.height / 8 - 1)].map (cmdBytes a)).zip ackss
            ++ [((a ++ 0#1) :: 0x40 :: (List.range (fbSize s.cfg)).map s.fb.read, acks)])
        ∧ BusIdleAfter t ∧ Returned t none

/-- R171, R172, R173, R95. Frame: BusFrame, so every framebuffer byte. -/
def Obligations.DisplaySettingResults : Prop :=
  ∀ (a : Addr7) (i : Instr) (bytes : List Byte) (s : State),
    s.seq = .idle → s.initialized = true → DisplayReady a s →
    (∃ level, i = .setContrast level ∧ bytes = [s.cfg.cmds.setContrast, level])
      ∨ (∃ on, i = .setPower on ∧ bytes = [if on then s.cfg.cmds.displayOn else s.cfg.cmds.displayOff])
      ∨ (∃ on, i = .setInverted on ∧ bytes = [if on then s.cfg.cmds.invertDisplay else s.cfg.cmds.normalDisplay]) →
    ∃ (t : State) (ackss : List (List Level)),
      exec i s = .next t ∧ ackss.length = bytes.length ∧ Txns s t ((bytes.map (cmdBytes a)).zip ackss)
        ∧ BusIdleAfter t ∧ Returned t none

/-- R175, U2. -/
def Obligations.UninitializedRefused : Prop :=
  ∀ (i : Instr) (s : State), s.seq = .idle → s.initialized = false →
    (i = .flush ∨ (∃ l, i = .setContrast l) ∨ (∃ on, i = .setPower on) ∨ ∃ on, i = .setInverted on) →
    exec i s = .refused .notInitialized

/-- R95, R96, R160, R161. Rows as pieces: log 4. Frame: BusFrame, so every framebuffer byte. -/
def Obligations.CommandPieces : Prop :=
  ∀ (a : Addr7) (i : Instr) (bytes : List Byte) (s : State), commandBytes s.cfg i = some bytes → DisplayReady a s →
    ∃ (t : State) (ackss : List (List Level)),
      exec i s = .next t ∧ ackss.length = bytes.length ∧ Txns s t ((bytes.map (cmdBytes a)).zip ackss)
        ∧ BusIdleAfter t ∧ t.ret = none

/-! ## Rendering -/

/-- R200. The premise is the memory's canonical form (Obligations.FramebufferInvariant). Frame: RenderFrame, no byte outside the framebuffer. -/
def Obligations.ClearResult : Prop :=
  ∀ s : State, s.seq = .idle → s.fb.wf →
    ∃ t : State,
      exec .clear s = .next t ∧ (∀ n, t.fb.read n = if n < fbSize s.cfg then 0x00 else s.fb.read n)
        ∧ RenderFrame s t ∧ Returned t none

/-- R202. The premise is the memory's canonical form (Obligations.FramebufferInvariant). Frame: RenderFrame, every other byte. -/
def Obligations.SetPixelResult : Prop :=
  ∀ (x y : Word) (on : Bool) (s : State), s.seq = .idle → s.fb.wf →
    ∃ t : State,
      exec (.setPixel x y on) s = .next t ∧ RenderFrame s t ∧ Returned t none
        ∧ (0 ≤ x.toInt ∧ x.toInt < s.cfg.width ∧ 0 ≤ y.toInt ∧ y.toInt < s.cfg.height →
            (∀ k < 8, (t.fb.read (x.toInt.toNat + y.toInt.toNat / 8 * s.cfg.width)).getLsbD k =
              if k = y.toInt.toNat % 8 then on
              else (s.fb.read (x.toInt.toNat + y.toInt.toNat / 8 * s.cfg.width)).getLsbD k)
            ∧ ∀ n, n ≠ x.toInt.toNat + y.toInt.toNat / 8 * s.cfg.width → t.fb.read n = s.fb.read n)
        ∧ (¬ (0 ≤ x.toInt ∧ x.toInt < s.cfg.width ∧ 0 ≤ y.toInt ∧ y.toInt < s.cfg.height) → t.fb = s.fb)

/-- R203 (a) to (f). The premise is the memory's canonical form (Obligations.FramebufferInvariant). -/
def Obligations.SetPixelLaws : Prop :=
  ∀ s : State, s.seq = .idle → s.fb.wf →
    (∀ (x y : Word) (on : Bool) (t : State), exec (.setPixel x y on) s = .next t → exec (.setPixel x y on) t = .next t)
    ∧ (∀ (x y : Word) (t u : State), inBounds s.cfg x.toInt y.toInt = true →
        exec (.setPixel x y true) s = .next t → exec (.setPixel x y false) t = .next u →
        pixelLit s.cfg u.fb x.toInt y.toInt = false
          ∧ (u.fb = s.fb ↔ pixelLit s.cfg s.fb x.toInt y.toInt = false))
    ∧ (∀ (x y : Word) (on : Bool) (t : State), inBounds s.cfg x.toInt y.toInt = false →
        exec (.setPixel x y on) s = .next t → t.fb = s.fb)
    ∧ (s.cfg.width = 128 → s.cfg.height = 64 →
        ∀ corner ∈ [((0, 0), 0, 0), ((127, 0), 127, 0), ((0, 63), 896, 7), ((127, 63), 1023, 7), ((0, 8), 128, 0)],
          ∀ (on : Bool) (t : State), exec (.setPixel corner.1.1 corner.1.2 on) s = .next t →
            (t.fb.read corner.2.1).getLsbD corner.2.2 = on)
    ∧ (∀ (x y : Word) (on : Bool) (t : State), inBounds s.cfg x.toInt y.toInt = true →
        exec (.setPixel x y on) s = .next t →
        ∀ px py, inBounds s.cfg px py = true →
          pixelLit s.cfg t.fb px py = if px = x.toInt ∧ py = y.toInt then on else pixelLit s.cfg s.fb px py)
    ∧ (∀ (x y x' y' : Word) (on on' : Bool) (t t' : State),
        exec (.setPixel x y on) s = .next t → exec (.setPixel x' y' on') s = .next t' →
        if x = x' ∧ y = y' then exec (.setPixel x' y' on') t = .next t'
        else exec (.setPixel x' y' on') t = exec (.setPixel x y on) t')

/-- R205, R206 (a) and (b), R204. Frame: RenderFrame, no byte outside the framebuffer. -/
def Obligations.DrawGlyphResult : Prop :=
  ∀ (x y ch : Word) (s : State), s.seq = .idle → s.fb.wf → configOk s.cfg = true →
    (∀ v, GlyphSum s.cfg x.toInt y.toInt ch v → InRange v) →
    ∃ t : State,
      exec (.drawGlyph x y ch) s = .next t ∧ RenderFrame s t ∧ Returned t none
        ∧ (∀ px py, inBounds s.cfg px py = true →
            pixelLit s.cfg t.fb px py = (pixelLit s.cfg s.fb px py || underGlyph s.cfg x.toInt y.toInt ch px py))
        ∧ ∀ n, fbSize s.cfg ≤ n → t.fb.read n = s.fb.read n

/-- R207. -/
def Obligations.CharacterSubstitution : Prop :=
  ∀ (x y ch : Word) (s : State), ch.toNat < s.cfg.printableLo.toNat ∨ s.cfg.printableHi.toNat < ch.toNat →
    exec (.drawGlyph x y ch) s = exec (.drawGlyph x y 0x20) s

/-- R208, R209, R210, R204. Frame: RenderFrame, no byte outside the framebuffer. -/
def Obligations.DrawTextResult : Prop :=
  ∀ (x y : Word) (text : List Word) (s : State), s.seq = .idle → s.fb.wf → configOk s.cfg = true →
    (∀ v, TextSum s.cfg x.toInt text x.toInt y.toInt v → InRange v) →
    ∃ t : State,
      exec (.drawText x y text) s = .next t ∧ RenderFrame s t ∧ Returned t none
        ∧ (∀ px py, inBounds s.cfg px py = true →
            pixelLit s.cfg t.fb px py = (pixelLit s.cfg s.fb px py ||
              (textCells s.cfg x.toInt text x.toInt y.toInt).any fun cell => underGlyph s.cfg cell.1 cell.2.1 cell.2.2 px py))
        ∧ ∀ n, fbSize s.cfg ≤ n → t.fb.read n = s.fb.read n

/-- R209, S7. -/
def Obligations.TextWrapsAtRightEdge : Prop :=
  ∀ (ch : Word) (s : State), s.seq = .idle → s.fb.wf → configOk s.cfg = true → ch ≠ s.cfg.newline →
    ∃ t : State,
      exec (.drawText 0 0 (List.replicate (s.cfg.width / 6 + 1) ch)) s = .next t
        ∧ ∀ px py, inBounds s.cfg px py = true →
            pixelLit s.cfg t.fb px py = (pixelLit s.cfg s.fb px py
              || (List.range (s.cfg.width / 6)).any (fun j => underGlyph s.cfg (6 * (j : Int)) 0 ch px py)
              || underGlyph s.cfg 0 8 ch px py)

/-- R211, R212, R204. Frame: RenderFrame, no byte outside the framebuffer. -/
def Obligations.FillRectResult : Prop :=
  ∀ (x y w h : Word) (on : Bool) (s : State), s.seq = .idle → s.fb.wf → configOk s.cfg = true →
    (∀ v, RectSum x.toInt y.toInt w.toInt h.toInt v → InRange v) →
    ∃ t : State,
      exec (.fillRect x y w h on) s = .next t ∧ RenderFrame s t ∧ Returned t none
        ∧ (∀ px py, inBounds s.cfg px py = true →
            pixelLit s.cfg t.fb px py =
              if x.toInt ≤ px ∧ px < x.toInt + w.toInt ∧ y.toInt ≤ py ∧ py < y.toInt + h.toInt then on
              else pixelLit s.cfg s.fb px py)
        ∧ ∀ n, fbSize s.cfg ≤ n → t.fb.read n = s.fb.read n

/-- R212 (e). -/
def Obligations.FillWholeDisplay : Prop :=
  ∀ s : State, s.seq = .idle → s.fb.wf → configOk s.cfg = true →
    (∃ t : State,
      exec (.fillRect 0 0 (BitVec.ofNat 32 s.cfg.width) (BitVec.ofNat 32 s.cfg.height) true) s = .next t
        ∧ ∀ n < fbSize s.cfg, t.fb.read n = 0xFF)
    ∧ exec (.fillRect 0 0 (BitVec.ofNat 32 s.cfg.width) (BitVec.ofNat 32 s.cfg.height) false) s = exec .clear s

/-- R204, U9; which sums count is log 17. -/
def Obligations.OverflowRefused : Prop :=
  ∀ (x y : Word) (s : State) (v : Int), s.seq = .idle → ¬ InRange v →
    (∀ ch, GlyphSum s.cfg x.toInt y.toInt ch v → exec (.drawGlyph x y ch) s = .refused .coordinateOverflow)
    ∧ (∀ text, TextSum s.cfg x.toInt text x.toInt y.toInt v → exec (.drawText x y text) s = .refused .coordinateOverflow)
    ∧ (∀ w h on, RectSum x.toInt y.toInt w.toInt h.toInt v → exec (.fillRect x y w h on) s = .refused .coordinateOverflow)

/-- R270, R51: a host may write FB directly between operations. The act and the refusal are the model's own (log 18). -/
def Obligations.HostFramebufferWrite : Prop :=
  ∀ (s : State) (index : Nat) (value : Byte) (acts : List HostAct),
    configOk s.cfg = true → s.seq = .idle → s.host = .writeFb index value :: acts →
    (index < fbSize s.cfg →
      ∃ t : State, step s = .next t ∧ t = { s with host := acts, fb := s.fb.write index value }
        ∧ (s.fb.wf → t.fb.wf ∧ ∀ n, t.fb.read n = if n = index then value else s.fb.read n))
    ∧ (fbSize s.cfg ≤ index → step s = .refused (.noSuchFbByte index))

/-- The canonical form is what makes equal memories equal data (R54 for what a read gives). -/
def Obligations.EqualReadsEqualMemory : Prop :=
  ∀ m n : Memory, m.wf → n.wf → m.init = n.init → (∀ a, m.read a = n.read a) → m = n

/-! ## Invariants that every step keeps -/

/-- Every step: the canonical form is kept, the reset bytes are, and no index outside 0 .. FB_SIZE-1 is written (R51). -/
def Obligations.FramebufferInvariant : Prop :=
  ∀ s t : State, s.fb.wf → step s = .next t →
    t.fb.wf ∧ t.fb.init = s.fb.init ∧ ∀ n, fbSize s.cfg ≤ n → t.fb.read n = s.fb.read n

/-- R29, R26, R27, for every step. -/
def Obligations.ConfigurationInvariant : Prop :=
  ∀ s t : State, ConfiguredIffWritten s → LinesDistinct s → step s = .next t →
    ConfiguredIffWritten t ∧ LinesDistinct t ∧ (s.configured = true → t.configured = true)

/-- R33, R32, R175, C12, for every step. -/
def Obligations.DisplayLifecycle : Prop :=
  ∀ s t : State, step s = .next t →
    (s.initialized = true → t.initialized = true ∧ t.dispAddr = s.dispAddr)
    ∧ (t.initialized ≠ s.initialized ∨ t.dispAddr ≠ s.dispAddr →
        ∃ bytes acts a c d, s.host = .request bytes :: acts ∧ decodeRequest bytes = .ok (.initDisplay a c d)
          ∧ t.dispAddr = .written a ∧ t.initialized = true)
    ∧ (InitializedHasAddress s → InitializedHasAddress t)

/-- R31, R272, R273 (a), R143. The premise on the host is R273 (a). -/
def Obligations.IdleBusReleased : Prop :=
  ∀ s t : State, s.seq = .idle → ReleasedWhenIdle s → HostKeepsDiscipline s → step s = .next t →
    t.seq = .idle ∧ ReleasedWhenIdle t

/-- R8 (parameters are arguments), R12, R58 (nothing elided or reordered), R270. The parameter record in the state is the model's own (log 6), so
are the two records (log 14) and the list of the environment's contributions (log 10). -/
def Obligations.RecordsOnlyGrow : Prop :=
  ∀ s t : State, step s = .next t →
    t.cfg = s.cfg ∧ s.trace <+: t.trace ∧ s.port <+: t.port ∧ t.host = s.host.drop 1 ∧ t.env <:+ s.env

/-- R39: the invariants hold at reset. -/
def Obligations.ResetMeetsInvariants : Prop :=
  ∀ c : Params,
    (State.resetWith c).fb.wf ∧ ConfiguredIffWritten (State.resetWith c) ∧ LinesDistinct (State.resetWith c)
      ∧ InitializedHasAddress (State.resetWith c) ∧ ReleasedWhenIdle (State.resetWith c)

/-! ## Outcomes -/

/-- R231, R233, R264, R132, R166, R175, R204, R21: `Performed` is what must be true before each instruction. Conditions of the rows that are
pieces: log 4, log 29; which sums count: log 17. -/
def Obligations.PerformedOrRefused : Prop :=
  (∀ (i : Instr) (s : State), (i.format = .op → s.seq = .idle) →
      (Performed s i → ∃ t : State, exec i s = .next t) ∧ (¬ Performed s i → ∃ r : Refusal, exec i s = .refused r))
    ∧ ∀ s : State, (∃ t : State, step s = .next t) ∨ ∃ r : Refusal, step s = .refused r
end

