-- ==== Sys2Proof/Laws/State.lean ====
section
/-!
SUPPORT. One lemma per field per state update, so that no later proof unfolds a record update.
-/

namespace Sys2Proof.Machine

@[simp] theorem emit_seq (e : Event) (s : State) : (emit e s).seq = s.seq.advance := rfl
@[simp] theorem emit_work (e : Event) (s : State) : (emit e s).work = s.work := rfl
@[simp] theorem emit_sclId (e : Event) (s : State) : (emit e s).sclId = s.sclId := rfl
@[simp] theorem emit_sdaId (e : Event) (s : State) : (emit e s).sdaId = s.sdaId := rfl
@[simp] theorem emit_delay (e : Event) (s : State) : (emit e s).delay = s.delay := rfl
@[simp] theorem emit_configured (e : Event) (s : State) : (emit e s).configured = s.configured := rfl
@[simp] theorem emit_sclOut (e : Event) (s : State) : (emit e s).sclOut = s.sclOut := rfl
@[simp] theorem emit_sdaOut (e : Event) (s : State) : (emit e s).sdaOut = s.sdaOut := rfl
@[simp] theorem emit_inTxn (e : Event) (s : State) : (emit e s).inTxn = s.inTxn := rfl
@[simp] theorem emit_dispAddr (e : Event) (s : State) : (emit e s).dispAddr = s.dispAddr := rfl
@[simp] theorem emit_initialized (e : Event) (s : State) : (emit e s).initialized = s.initialized := rfl
@[simp] theorem emit_fb (e : Event) (s : State) : (emit e s).fb = s.fb := rfl
@[simp] theorem emit_cfg (e : Event) (s : State) : (emit e s).cfg = s.cfg := rfl
@[simp] theorem emit_host (e : Event) (s : State) : (emit e s).host = s.host := rfl
@[simp] theorem emit_env (e : Event) (s : State) : (emit e s).env = s.env := rfl
@[simp] theorem emit_draws (e : Event) (s : State) : (emit e s).draws = s.draws := rfl
@[simp] theorem emit_trace (e : Event) (s : State) : (emit e s).trace = s.trace ++ [e] := rfl
@[simp] theorem emit_port (e : Event) (s : State) : (emit e s).port = s.port := rfl
@[simp] theorem emit_ret (e : Event) (s : State) : (emit e s).ret = s.ret := rfl

@[simp] theorem setLatch_seq (l : Line) (v : Level) (s : State) : (setLatch l v s).seq = s.seq := by cases l <;> rfl
@[simp] theorem setLatch_work (l : Line) (v : Level) (s : State) : (setLatch l v s).work = s.work := by cases l <;> rfl
@[simp] theorem setLatch_sclId (l : Line) (v : Level) (s : State) : (setLatch l v s).sclId = s.sclId := by cases l <;> rfl
@[simp] theorem setLatch_sdaId (l : Line) (v : Level) (s : State) : (setLatch l v s).sdaId = s.sdaId := by cases l <;> rfl
@[simp] theorem setLatch_delay (l : Line) (v : Level) (s : State) : (setLatch l v s).delay = s.delay := by cases l <;> rfl
@[simp] theorem setLatch_configured (l : Line) (v : Level) (s : State) : (setLatch l v s).configured = s.configured := by cases l <;> rfl
@[simp] theorem setLatch_sclOut (l : Line) (v : Level) (s : State) : (setLatch l v s).sclOut = if l = .scl then v else s.sclOut := by cases l <;> rfl
@[simp] theorem setLatch_sdaOut (l : Line) (v : Level) (s : State) : (setLatch l v s).sdaOut = if l = .sda then v else s.sdaOut := by cases l <;> rfl
@[simp] theorem setLatch_inTxn (l : Line) (v : Level) (s : State) : (setLatch l v s).inTxn = s.inTxn := by cases l <;> rfl
@[simp] theorem setLatch_dispAddr (l : Line) (v : Level) (s : State) : (setLatch l v s).dispAddr = s.dispAddr := by cases l <;> rfl
@[simp] theorem setLatch_initialized (l : Line) (v : Level) (s : State) : (setLatch l v s).initialized = s.initialized := by cases l <;> rfl
@[simp] theorem setLatch_fb (l : Line) (v : Level) (s : State) : (setLatch l v s).fb = s.fb := by cases l <;> rfl
@[simp] theorem setLatch_cfg (l : Line) (v : Level) (s : State) : (setLatch l v s).cfg = s.cfg := by cases l <;> rfl
@[simp] theorem setLatch_host (l : Line) (v : Level) (s : State) : (setLatch l v s).host = s.host := by cases l <;> rfl
@[simp] theorem setLatch_env (l : Line) (v : Level) (s : State) : (setLatch l v s).env = s.env := by cases l <;> rfl
@[simp] theorem setLatch_draws (l : Line) (v : Level) (s : State) : (setLatch l v s).draws = s.draws := by cases l <;> rfl
@[simp] theorem setLatch_trace (l : Line) (v : Level) (s : State) : (setLatch l v s).trace = s.trace := by cases l <;> rfl
@[simp] theorem setLatch_port (l : Line) (v : Level) (s : State) : (setLatch l v s).port = s.port := by cases l <;> rfl
@[simp] theorem setLatch_ret (l : Line) (v : Level) (s : State) : (setLatch l v s).ret = s.ret := by cases l <;> rfl

@[simp] theorem setBitidx_seq (n : Nat) (s : State) : (setBitidx n s).seq = s.seq := rfl
@[simp] theorem setBitidx_work (n : Nat) (s : State) : (setBitidx n s).work = { s.work with bitidx := .written (Fin.ofNat 8 n) } := rfl
@[simp] theorem setBitidx_sclId (n : Nat) (s : State) : (setBitidx n s).sclId = s.sclId := rfl
@[simp] theorem setBitidx_sdaId (n : Nat) (s : State) : (setBitidx n s).sdaId = s.sdaId := rfl
@[simp] theorem setBitidx_delay (n : Nat) (s : State) : (setBitidx n s).delay = s.delay := rfl
@[simp] theorem setBitidx_configured (n : Nat) (s : State) : (setBitidx n s).configured = s.configured := rfl
@[simp] theorem setBitidx_sclOut (n : Nat) (s : State) : (setBitidx n s).sclOut = s.sclOut := rfl
@[simp] theorem setBitidx_sdaOut (n : Nat) (s : State) : (setBitidx n s).sdaOut = s.sdaOut := rfl
@[simp] theorem setBitidx_inTxn (n : Nat) (s : State) : (setBitidx n s).inTxn = s.inTxn := rfl
@[simp] theorem setBitidx_dispAddr (n : Nat) (s : State) : (setBitidx n s).dispAddr = s.dispAddr := rfl
@[simp] theorem setBitidx_initialized (n : Nat) (s : State) : (setBitidx n s).initialized = s.initialized := rfl
@[simp] theorem setBitidx_fb (n : Nat) (s : State) : (setBitidx n s).fb = s.fb := rfl
@[simp] theorem setBitidx_cfg (n : Nat) (s : State) : (setBitidx n s).cfg = s.cfg := rfl
@[simp] theorem setBitidx_host (n : Nat) (s : State) : (setBitidx n s).host = s.host := rfl
@[simp] theorem setBitidx_env (n : Nat) (s : State) : (setBitidx n s).env = s.env := rfl
@[simp] theorem setBitidx_draws (n : Nat) (s : State) : (setBitidx n s).draws = s.draws := rfl
@[simp] theorem setBitidx_trace (n : Nat) (s : State) : (setBitidx n s).trace = s.trace := rfl
@[simp] theorem setBitidx_port (n : Nat) (s : State) : (setBitidx n s).port = s.port := rfl
@[simp] theorem setBitidx_ret (n : Nat) (s : State) : (setBitidx n s).ret = s.ret := rfl

@[simp] theorem setShreg_seq (b : Byte) (s : State) : (setShreg b s).seq = s.seq := rfl
@[simp] theorem setShreg_work (b : Byte) (s : State) : (setShreg b s).work = { s.work with shreg := .written b } := rfl
@[simp] theorem setShreg_sclId (b : Byte) (s : State) : (setShreg b s).sclId = s.sclId := rfl
@[simp] theorem setShreg_sdaId (b : Byte) (s : State) : (setShreg b s).sdaId = s.sdaId := rfl
@[simp] theorem setShreg_delay (b : Byte) (s : State) : (setShreg b s).delay = s.delay := rfl
@[simp] theorem setShreg_configured (b : Byte) (s : State) : (setShreg b s).configured = s.configured := rfl
@[simp] theorem setShreg_sclOut (b : Byte) (s : State) : (setShreg b s).sclOut = s.sclOut := rfl
@[simp] theorem setShreg_sdaOut (b : Byte) (s : State) : (setShreg b s).sdaOut = s.sdaOut := rfl
@[simp] theorem setShreg_inTxn (b : Byte) (s : State) : (setShreg b s).inTxn = s.inTxn := rfl
@[simp] theorem setShreg_dispAddr (b : Byte) (s : State) : (setShreg b s).dispAddr = s.dispAddr := rfl
@[simp] theorem setShreg_initialized (b : Byte) (s : State) : (setShreg b s).initialized = s.initialized := rfl
@[simp] theorem setShreg_fb (b : Byte) (s : State) : (setShreg b s).fb = s.fb := rfl
@[simp] theorem setShreg_cfg (b : Byte) (s : State) : (setShreg b s).cfg = s.cfg := rfl
@[simp] theorem setShreg_host (b : Byte) (s : State) : (setShreg b s).host = s.host := rfl
@[simp] theorem setShreg_env (b : Byte) (s : State) : (setShreg b s).env = s.env := rfl
@[simp] theorem setShreg_draws (b : Byte) (s : State) : (setShreg b s).draws = s.draws := rfl
@[simp] theorem setShreg_trace (b : Byte) (s : State) : (setShreg b s).trace = s.trace := rfl
@[simp] theorem setShreg_port (b : Byte) (s : State) : (setShreg b s).port = s.port := rfl
@[simp] theorem setShreg_ret (b : Byte) (s : State) : (setShreg b s).ret = s.ret := rfl

@[simp] theorem setAckbit_seq (v : Level) (s : State) : (setAckbit v s).seq = s.seq := rfl
@[simp] theorem setAckbit_work (v : Level) (s : State) : (setAckbit v s).work = { s.work with ackbit := .written v } := rfl
@[simp] theorem setAckbit_sclId (v : Level) (s : State) : (setAckbit v s).sclId = s.sclId := rfl
@[simp] theorem setAckbit_sdaId (v : Level) (s : State) : (setAckbit v s).sdaId = s.sdaId := rfl
@[simp] theorem setAckbit_delay (v : Level) (s : State) : (setAckbit v s).delay = s.delay := rfl
@[simp] theorem setAckbit_configured (v : Level) (s : State) : (setAckbit v s).configured = s.configured := rfl
@[simp] theorem setAckbit_sclOut (v : Level) (s : State) : (setAckbit v s).sclOut = s.sclOut := rfl
@[simp] theorem setAckbit_sdaOut (v : Level) (s : State) : (setAckbit v s).sdaOut = s.sdaOut := rfl
@[simp] theorem setAckbit_inTxn (v : Level) (s : State) : (setAckbit v s).inTxn = s.inTxn := rfl
@[simp] theorem setAckbit_dispAddr (v : Level) (s : State) : (setAckbit v s).dispAddr = s.dispAddr := rfl
@[simp] theorem setAckbit_initialized (v : Level) (s : State) : (setAckbit v s).initialized = s.initialized := rfl
@[simp] theorem setAckbit_fb (v : Level) (s : State) : (setAckbit v s).fb = s.fb := rfl
@[simp] theorem setAckbit_cfg (v : Level) (s : State) : (setAckbit v s).cfg = s.cfg := rfl
@[simp] theorem setAckbit_host (v : Level) (s : State) : (setAckbit v s).host = s.host := rfl
@[simp] theorem setAckbit_env (v : Level) (s : State) : (setAckbit v s).env = s.env := rfl
@[simp] theorem setAckbit_draws (v : Level) (s : State) : (setAckbit v s).draws = s.draws := rfl
@[simp] theorem setAckbit_trace (v : Level) (s : State) : (setAckbit v s).trace = s.trace := rfl
@[simp] theorem setAckbit_port (v : Level) (s : State) : (setAckbit v s).port = s.port := rfl
@[simp] theorem setAckbit_ret (v : Level) (s : State) : (setAckbit v s).ret = s.ret := rfl

@[simp] theorem setK_seq (k : Nat) (s : State) : (setK k s).seq = s.seq := rfl
@[simp] theorem setK_work (k : Nat) (s : State) : (setK k s).work = { s.work with k := .written k } := rfl
@[simp] theorem setK_sclId (k : Nat) (s : State) : (setK k s).sclId = s.sclId := rfl
@[simp] theorem setK_sdaId (k : Nat) (s : State) : (setK k s).sdaId = s.sdaId := rfl
@[simp] theorem setK_delay (k : Nat) (s : State) : (setK k s).delay = s.delay := rfl
@[simp] theorem setK_configured (k : Nat) (s : State) : (setK k s).configured = s.configured := rfl
@[simp] theorem setK_sclOut (k : Nat) (s : State) : (setK k s).sclOut = s.sclOut := rfl
@[simp] theorem setK_sdaOut (k : Nat) (s : State) : (setK k s).sdaOut = s.sdaOut := rfl
@[simp] theorem setK_inTxn (k : Nat) (s : State) : (setK k s).inTxn = s.inTxn := rfl
@[simp] theorem setK_dispAddr (k : Nat) (s : State) : (setK k s).dispAddr = s.dispAddr := rfl
@[simp] theorem setK_initialized (k : Nat) (s : State) : (setK k s).initialized = s.initialized := rfl
@[simp] theorem setK_fb (k : Nat) (s : State) : (setK k s).fb = s.fb := rfl
@[simp] theorem setK_cfg (k : Nat) (s : State) : (setK k s).cfg = s.cfg := rfl
@[simp] theorem setK_host (k : Nat) (s : State) : (setK k s).host = s.host := rfl
@[simp] theorem setK_env (k : Nat) (s : State) : (setK k s).env = s.env := rfl
@[simp] theorem setK_draws (k : Nat) (s : State) : (setK k s).draws = s.draws := rfl
@[simp] theorem setK_trace (k : Nat) (s : State) : (setK k s).trace = s.trace := rfl
@[simp] theorem setK_port (k : Nat) (s : State) : (setK k s).port = s.port := rfl
@[simp] theorem setK_ret (k : Nat) (s : State) : (setK k s).ret = s.ret := rfl

@[simp] theorem setCursor_seq (cx cy : Int) (s : State) : (setCursor cx cy s).seq = s.seq := rfl
@[simp] theorem setCursor_work (cx cy : Int) (s : State) : (setCursor cx cy s).work = { s.work with cx := .written (BitVec.ofInt 32 cx), cy := .written (BitVec.ofInt 32 cy) } := rfl
@[simp] theorem setCursor_sclId (cx cy : Int) (s : State) : (setCursor cx cy s).sclId = s.sclId := rfl
@[simp] theorem setCursor_sdaId (cx cy : Int) (s : State) : (setCursor cx cy s).sdaId = s.sdaId := rfl
@[simp] theorem setCursor_delay (cx cy : Int) (s : State) : (setCursor cx cy s).delay = s.delay := rfl
@[simp] theorem setCursor_configured (cx cy : Int) (s : State) : (setCursor cx cy s).configured = s.configured := rfl
@[simp] theorem setCursor_sclOut (cx cy : Int) (s : State) : (setCursor cx cy s).sclOut = s.sclOut := rfl
@[simp] theorem setCursor_sdaOut (cx cy : Int) (s : State) : (setCursor cx cy s).sdaOut = s.sdaOut := rfl
@[simp] theorem setCursor_inTxn (cx cy : Int) (s : State) : (setCursor cx cy s).inTxn = s.inTxn := rfl
@[simp] theorem setCursor_dispAddr (cx cy : Int) (s : State) : (setCursor cx cy s).dispAddr = s.dispAddr := rfl
@[simp] theorem setCursor_initialized (cx cy : Int) (s : State) : (setCursor cx cy s).initialized = s.initialized := rfl
@[simp] theorem setCursor_fb (cx cy : Int) (s : State) : (setCursor cx cy s).fb = s.fb := rfl
@[simp] theorem setCursor_cfg (cx cy : Int) (s : State) : (setCursor cx cy s).cfg = s.cfg := rfl
@[simp] theorem setCursor_host (cx cy : Int) (s : State) : (setCursor cx cy s).host = s.host := rfl
@[simp] theorem setCursor_env (cx cy : Int) (s : State) : (setCursor cx cy s).env = s.env := rfl
@[simp] theorem setCursor_draws (cx cy : Int) (s : State) : (setCursor cx cy s).draws = s.draws := rfl
@[simp] theorem setCursor_trace (cx cy : Int) (s : State) : (setCursor cx cy s).trace = s.trace := rfl
@[simp] theorem setCursor_port (cx cy : Int) (s : State) : (setCursor cx cy s).port = s.port := rfl
@[simp] theorem setCursor_ret (cx cy : Int) (s : State) : (setCursor cx cy s).ret = s.ret := rfl

@[simp] theorem setCol_seq (n : Nat) (s : State) : (setCol n s).seq = s.seq := rfl
@[simp] theorem setCol_work (n : Nat) (s : State) : (setCol n s).work = { s.work with col := .written n } := rfl
@[simp] theorem setCol_sclId (n : Nat) (s : State) : (setCol n s).sclId = s.sclId := rfl
@[simp] theorem setCol_sdaId (n : Nat) (s : State) : (setCol n s).sdaId = s.sdaId := rfl
@[simp] theorem setCol_delay (n : Nat) (s : State) : (setCol n s).delay = s.delay := rfl
@[simp] theorem setCol_configured (n : Nat) (s : State) : (setCol n s).configured = s.configured := rfl
@[simp] theorem setCol_sclOut (n : Nat) (s : State) : (setCol n s).sclOut = s.sclOut := rfl
@[simp] theorem setCol_sdaOut (n : Nat) (s : State) : (setCol n s).sdaOut = s.sdaOut := rfl
@[simp] theorem setCol_inTxn (n : Nat) (s : State) : (setCol n s).inTxn = s.inTxn := rfl
@[simp] theorem setCol_dispAddr (n : Nat) (s : State) : (setCol n s).dispAddr = s.dispAddr := rfl
@[simp] theorem setCol_initialized (n : Nat) (s : State) : (setCol n s).initialized = s.initialized := rfl
@[simp] theorem setCol_fb (n : Nat) (s : State) : (setCol n s).fb = s.fb := rfl
@[simp] theorem setCol_cfg (n : Nat) (s : State) : (setCol n s).cfg = s.cfg := rfl
@[simp] theorem setCol_host (n : Nat) (s : State) : (setCol n s).host = s.host := rfl
@[simp] theorem setCol_env (n : Nat) (s : State) : (setCol n s).env = s.env := rfl
@[simp] theorem setCol_draws (n : Nat) (s : State) : (setCol n s).draws = s.draws := rfl
@[simp] theorem setCol_trace (n : Nat) (s : State) : (setCol n s).trace = s.trace := rfl
@[simp] theorem setCol_port (n : Nat) (s : State) : (setCol n s).port = s.port := rfl
@[simp] theorem setCol_ret (n : Nat) (s : State) : (setCol n s).ret = s.ret := rfl

@[simp] theorem setRow_seq (n : Nat) (s : State) : (setRow n s).seq = s.seq := rfl
@[simp] theorem setRow_work (n : Nat) (s : State) : (setRow n s).work = { s.work with row := .written n } := rfl
@[simp] theorem setRow_sclId (n : Nat) (s : State) : (setRow n s).sclId = s.sclId := rfl
@[simp] theorem setRow_sdaId (n : Nat) (s : State) : (setRow n s).sdaId = s.sdaId := rfl
@[simp] theorem setRow_delay (n : Nat) (s : State) : (setRow n s).delay = s.delay := rfl
@[simp] theorem setRow_configured (n : Nat) (s : State) : (setRow n s).configured = s.configured := rfl
@[simp] theorem setRow_sclOut (n : Nat) (s : State) : (setRow n s).sclOut = s.sclOut := rfl
@[simp] theorem setRow_sdaOut (n : Nat) (s : State) : (setRow n s).sdaOut = s.sdaOut := rfl
@[simp] theorem setRow_inTxn (n : Nat) (s : State) : (setRow n s).inTxn = s.inTxn := rfl
@[simp] theorem setRow_dispAddr (n : Nat) (s : State) : (setRow n s).dispAddr = s.dispAddr := rfl
@[simp] theorem setRow_initialized (n : Nat) (s : State) : (setRow n s).initialized = s.initialized := rfl
@[simp] theorem setRow_fb (n : Nat) (s : State) : (setRow n s).fb = s.fb := rfl
@[simp] theorem setRow_cfg (n : Nat) (s : State) : (setRow n s).cfg = s.cfg := rfl
@[simp] theorem setRow_host (n : Nat) (s : State) : (setRow n s).host = s.host := rfl
@[simp] theorem setRow_env (n : Nat) (s : State) : (setRow n s).env = s.env := rfl
@[simp] theorem setRow_draws (n : Nat) (s : State) : (setRow n s).draws = s.draws := rfl
@[simp] theorem setRow_trace (n : Nat) (s : State) : (setRow n s).trace = s.trace := rfl
@[simp] theorem setRow_port (n : Nat) (s : State) : (setRow n s).port = s.port := rfl
@[simp] theorem setRow_ret (n : Nat) (s : State) : (setRow n s).ret = s.ret := rfl

@[simp] theorem setDx_seq (n : Nat) (s : State) : (setDx n s).seq = s.seq := rfl
@[simp] theorem setDx_work (n : Nat) (s : State) : (setDx n s).work = { s.work with dx := .written n } := rfl
@[simp] theorem setDx_sclId (n : Nat) (s : State) : (setDx n s).sclId = s.sclId := rfl
@[simp] theorem setDx_sdaId (n : Nat) (s : State) : (setDx n s).sdaId = s.sdaId := rfl
@[simp] theorem setDx_delay (n : Nat) (s : State) : (setDx n s).delay = s.delay := rfl
@[simp] theorem setDx_configured (n : Nat) (s : State) : (setDx n s).configured = s.configured := rfl
@[simp] theorem setDx_sclOut (n : Nat) (s : State) : (setDx n s).sclOut = s.sclOut := rfl
@[simp] theorem setDx_sdaOut (n : Nat) (s : State) : (setDx n s).sdaOut = s.sdaOut := rfl
@[simp] theorem setDx_inTxn (n : Nat) (s : State) : (setDx n s).inTxn = s.inTxn := rfl
@[simp] theorem setDx_dispAddr (n : Nat) (s : State) : (setDx n s).dispAddr = s.dispAddr := rfl
@[simp] theorem setDx_initialized (n : Nat) (s : State) : (setDx n s).initialized = s.initialized := rfl
@[simp] theorem setDx_fb (n : Nat) (s : State) : (setDx n s).fb = s.fb := rfl
@[simp] theorem setDx_cfg (n : Nat) (s : State) : (setDx n s).cfg = s.cfg := rfl
@[simp] theorem setDx_host (n : Nat) (s : State) : (setDx n s).host = s.host := rfl
@[simp] theorem setDx_env (n : Nat) (s : State) : (setDx n s).env = s.env := rfl
@[simp] theorem setDx_draws (n : Nat) (s : State) : (setDx n s).draws = s.draws := rfl
@[simp] theorem setDx_trace (n : Nat) (s : State) : (setDx n s).trace = s.trace := rfl
@[simp] theorem setDx_port (n : Nat) (s : State) : (setDx n s).port = s.port := rfl
@[simp] theorem setDx_ret (n : Nat) (s : State) : (setDx n s).ret = s.ret := rfl

@[simp] theorem setDy_seq (n : Nat) (s : State) : (setDy n s).seq = s.seq := rfl
@[simp] theorem setDy_work (n : Nat) (s : State) : (setDy n s).work = { s.work with dy := .written n } := rfl
@[simp] theorem setDy_sclId (n : Nat) (s : State) : (setDy n s).sclId = s.sclId := rfl
@[simp] theorem setDy_sdaId (n : Nat) (s : State) : (setDy n s).sdaId = s.sdaId := rfl
@[simp] theorem setDy_delay (n : Nat) (s : State) : (setDy n s).delay = s.delay := rfl
@[simp] theorem setDy_configured (n : Nat) (s : State) : (setDy n s).configured = s.configured := rfl
@[simp] theorem setDy_sclOut (n : Nat) (s : State) : (setDy n s).sclOut = s.sclOut := rfl
@[simp] theorem setDy_sdaOut (n : Nat) (s : State) : (setDy n s).sdaOut = s.sdaOut := rfl
@[simp] theorem setDy_inTxn (n : Nat) (s : State) : (setDy n s).inTxn = s.inTxn := rfl
@[simp] theorem setDy_dispAddr (n : Nat) (s : State) : (setDy n s).dispAddr = s.dispAddr := rfl
@[simp] theorem setDy_initialized (n : Nat) (s : State) : (setDy n s).initialized = s.initialized := rfl
@[simp] theorem setDy_fb (n : Nat) (s : State) : (setDy n s).fb = s.fb := rfl
@[simp] theorem setDy_cfg (n : Nat) (s : State) : (setDy n s).cfg = s.cfg := rfl
@[simp] theorem setDy_host (n : Nat) (s : State) : (setDy n s).host = s.host := rfl
@[simp] theorem setDy_env (n : Nat) (s : State) : (setDy n s).env = s.env := rfl
@[simp] theorem setDy_draws (n : Nat) (s : State) : (setDy n s).draws = s.draws := rfl
@[simp] theorem setDy_trace (n : Nat) (s : State) : (setDy n s).trace = s.trace := rfl
@[simp] theorem setDy_port (n : Nat) (s : State) : (setDy n s).port = s.port := rfl
@[simp] theorem setDy_ret (n : Nat) (s : State) : (setDy n s).ret = s.ret := rfl

@[simp] theorem beginOp_seq (c : Byte) (s : State) : (beginOp c s).seq = .running c 0 [] := rfl
@[simp] theorem beginOp_work (c : Byte) (s : State) : (beginOp c s).work = Work.dead := rfl
@[simp] theorem beginOp_sclId (c : Byte) (s : State) : (beginOp c s).sclId = s.sclId := rfl
@[simp] theorem beginOp_sdaId (c : Byte) (s : State) : (beginOp c s).sdaId = s.sdaId := rfl
@[simp] theorem beginOp_delay (c : Byte) (s : State) : (beginOp c s).delay = s.delay := rfl
@[simp] theorem beginOp_configured (c : Byte) (s : State) : (beginOp c s).configured = s.configured := rfl
@[simp] theorem beginOp_sclOut (c : Byte) (s : State) : (beginOp c s).sclOut = s.sclOut := rfl
@[simp] theorem beginOp_sdaOut (c : Byte) (s : State) : (beginOp c s).sdaOut = s.sdaOut := rfl
@[simp] theorem beginOp_inTxn (c : Byte) (s : State) : (beginOp c s).inTxn = s.inTxn := rfl
@[simp] theorem beginOp_dispAddr (c : Byte) (s : State) : (beginOp c s).dispAddr = s.dispAddr := rfl
@[simp] theorem beginOp_initialized (c : Byte) (s : State) : (beginOp c s).initialized = s.initialized := rfl
@[simp] theorem beginOp_fb (c : Byte) (s : State) : (beginOp c s).fb = s.fb := rfl
@[simp] theorem beginOp_cfg (c : Byte) (s : State) : (beginOp c s).cfg = s.cfg := rfl
@[simp] theorem beginOp_host (c : Byte) (s : State) : (beginOp c s).host = s.host := rfl
@[simp] theorem beginOp_env (c : Byte) (s : State) : (beginOp c s).env = s.env := rfl
@[simp] theorem beginOp_draws (c : Byte) (s : State) : (beginOp c s).draws = s.draws := rfl
@[simp] theorem beginOp_trace (c : Byte) (s : State) : (beginOp c s).trace = s.trace := rfl
@[simp] theorem beginOp_port (c : Byte) (s : State) : (beginOp c s).port = s.port := rfl
@[simp] theorem beginOp_ret (c : Byte) (s : State) : (beginOp c s).ret = none := rfl

@[simp] theorem returnOp_seq (r : Option Result) (s : State) : (returnOp r s).seq = .idle := rfl
@[simp] theorem returnOp_work (r : Option Result) (s : State) : (returnOp r s).work = Work.dead := rfl
@[simp] theorem returnOp_sclId (r : Option Result) (s : State) : (returnOp r s).sclId = s.sclId := rfl
@[simp] theorem returnOp_sdaId (r : Option Result) (s : State) : (returnOp r s).sdaId = s.sdaId := rfl
@[simp] theorem returnOp_delay (r : Option Result) (s : State) : (returnOp r s).delay = s.delay := rfl
@[simp] theorem returnOp_configured (r : Option Result) (s : State) : (returnOp r s).configured = s.configured := rfl
@[simp] theorem returnOp_sclOut (r : Option Result) (s : State) : (returnOp r s).sclOut = s.sclOut := rfl
@[simp] theorem returnOp_sdaOut (r : Option Result) (s : State) : (returnOp r s).sdaOut = s.sdaOut := rfl
@[simp] theorem returnOp_inTxn (r : Option Result) (s : State) : (returnOp r s).inTxn = s.inTxn := rfl
@[simp] theorem returnOp_dispAddr (r : Option Result) (s : State) : (returnOp r s).dispAddr = s.dispAddr := rfl
@[simp] theorem returnOp_initialized (r : Option Result) (s : State) : (returnOp r s).initialized = s.initialized := rfl
@[simp] theorem returnOp_fb (r : Option Result) (s : State) : (returnOp r s).fb = s.fb := rfl
@[simp] theorem returnOp_cfg (r : Option Result) (s : State) : (returnOp r s).cfg = s.cfg := rfl
@[simp] theorem returnOp_host (r : Option Result) (s : State) : (returnOp r s).host = s.host := rfl
@[simp] theorem returnOp_env (r : Option Result) (s : State) : (returnOp r s).env = s.env := rfl
@[simp] theorem returnOp_draws (r : Option Result) (s : State) : (returnOp r s).draws = s.draws := rfl
@[simp] theorem returnOp_trace (r : Option Result) (s : State) : (returnOp r s).trace = s.trace := rfl
@[simp] theorem returnOp_port (r : Option Result) (s : State) : (returnOp r s).port = s.port := rfl
@[simp] theorem returnOp_ret (r : Option Result) (s : State) : (returnOp r s).ret = r := rfl

end Sys2Proof.Machine
end

