-- ==== Sys2Proof/Laws/Bus.lean ====
section
/-!
SUPPORT. What each bus operation does, once: which events it records, at which levels it leaves the lines, and that it changes
nothing else. Later proofs cite these and unfold no operation.
-/

namespace Sys2Proof.Machine

/-! ## Records -/

@[simp] theorem samplesOf_append (a b : List Event) : samplesOf (a ++ b) = samplesOf a ++ samplesOf b := by
  induction a with
  | nil => rfl
  | cons e es ih => cases e <;> simp [samplesOf, ih]

@[simp] theorem samples_append (a b : List Event) : samples (a ++ b) = samples a + samples b := by simp [samples]

theorem BusFrame.refl (s : State) : BusFrame s s := ⟨rfl, rfl, rfl, rfl, rfl, rfl, rfl, rfl, rfl⟩

theorem BusFrame.trans {s t u : State} (h : BusFrame s t) (k : BusFrame t u) : BusFrame s u :=
  ⟨k.1.trans h.1, k.2.trans h.2, k.3.trans h.3, k.4.trans h.4, k.5.trans h.5, k.6.trans h.6, k.7.trans h.7, k.8.trans h.8,
    k.9.trans h.9⟩

theorem Recorded.refl (s : State) : Recorded s s [] := ⟨by simp, by simp [samples, samplesOf], by simp [samples, samplesOf],
  List.prefix_refl _⟩

theorem Recorded.trans {s t u : State} {a b : List Event} (h : Recorded s t a) (hc : t.cfg = s.cfg) (k : Recorded t u b) :
    Recorded s u (a ++ b) := by
  refine ⟨?_, ?_, ?_, h.port.trans k.port⟩
  · rw [k.trace, h.trace, List.append_assoc]
  · rw [k.env, h.env, List.drop_drop, samples_append]
  · intro hp
    have h1 := h.drawn hp
    have h2 := k.drawn (by rw [hc]; exact hp)
    rw [h.env, List.length_drop] at h2
    rw [samplesOf_append, samples_append, List.take_append, List.take_add, h1]
    exact congrArg _ h2

/-- A run of a bus operation: its frame and record, the levels it leaves the lines at, the transaction bit as it was, and the
sequencer position advanced by one for each event (R25). -/
structure Ends (s t : State) (events : List Event) (scl sda : Level) : Prop extends BusRun s t events where
  sclOut : t.sclOut = scl
  sdaOut : t.sdaOut = sda
  inTxn  : t.inTxn = s.inTxn
  seq    : t.seq = Seq.advance^[events.length] s.seq

theorem Ends.trans {s t u : State} {a b : List Event} {x y x' y' : Level} (h : Ends s t a x y) (k : Ends t u b x' y') :
    Ends s u (a ++ b) x' y' :=
  { toBusFrame := h.toBusFrame.trans k.toBusFrame
    toRecorded := h.toRecorded.trans h.cfg k.toRecorded
    sclOut := k.sclOut
    sdaOut := k.sdaOut
    inTxn := k.inTxn.trans h.inTxn
    seq := by rw [k.seq, h.seq, ← Function.iterate_add_apply, List.length_append, Nat.add_comm] }

theorem Ends.refl (s : State) : Ends s s [] s.sclOut s.sdaOut :=
  { toBusFrame := .refl s, toRecorded := .refl s, sclOut := rfl, sdaOut := rfl, inTxn := rfl, seq := rfl }

/-! ## Micro-operations -/

/-- A Register Access changes nothing but the port record and the count of volatile reads. -/
theorem pinActs_eq (acts : List PinAct) (s : State) :
    ∃ more n, pinActs acts s = { s with port := s.port ++ more, draws := n } := by
  induction acts generalizing s with
  | nil => exact ⟨[], s.draws, by simp [pinActs]⟩
  | cons a acts ih =>
    obtain ⟨more, n, h⟩ := ih (pinAct s a)
    have h' : pinActs (a :: acts) s = pinActs acts (pinAct s a) := rfl
    rw [h', h]
    cases a with
    | write x v => exact ⟨_, n, by simp only [pinAct, List.append_assoc]; rfl⟩
    | modify x k v => exact ⟨_, n, by simp only [pinAct, List.append_assoc]; rfl⟩

/-- Every address that PinMap gives is a multiple of 4 (R58). -/
theorem wordAddr_mod (a : BitVec 30) : (wordAddr a).toNat % 4 = 0 := by
  unfold wordAddr
  rw [BitVec.toNat_append]
  simp [Nat.shiftLeft_eq]

/-- The accesses of a list: at least one write if there is one, and only word addresses (R57, R58). -/
theorem pinActs_port (acts : List PinAct) (s : State) :
    ∃ more, (pinActs acts s).port = s.port ++ more ∧ (acts ≠ [] → ∃ a w, RegAccess.write a w ∈ more) ∧
      ∀ a w, RegAccess.write a w ∈ more ∨ RegAccess.read a w ∈ more → a.toNat % 4 = 0 := by
  induction acts generalizing s with
  | nil => exact ⟨[], by simp [pinActs], by simp, by simp⟩
  | cons x acts ih =>
    obtain ⟨more, h1, h2, h3⟩ := ih (pinAct s x)
    have e : pinActs (x :: acts) s = pinActs acts (pinAct s x) := rfl
    rw [e, h1]
    cases x with
    | write a v =>
      refine ⟨.write (wordAddr a) v :: more, by simp [pinAct], fun _ => ⟨_, _, List.mem_cons_self⟩, ?_⟩
      rintro b w (h | h)
      · rcases List.mem_cons.1 h with h | h
        · cases h; exact wordAddr_mod _
        · exact h3 _ _ (.inl h)
      · rcases List.mem_cons.1 h with h | h
        · cases h
        · exact h3 _ _ (.inr h)
    | modify a k v =>
      refine ⟨.read (wordAddr a) (Config.portWord s.draws) :: .write (wordAddr a) ((Config.portWord s.draws &&& k) ||| v) :: more,
        by simp [pinAct], fun _ => ⟨_, _, List.mem_cons_of_mem _ List.mem_cons_self⟩, ?_⟩
      rintro b w (h | h)
      · simp only [List.mem_cons] at h
        rcases h with h | h | h
        · cases h
        · cases h; exact wordAddr_mod _
        · exact h3 _ _ (.inl h)
      · simp only [List.mem_cons] at h
        rcases h with h | h | h
        · cases h; exact wordAddr_mod _
        · cases h
        · exact h3 _ _ (.inr h)

theorem driveLine_eq (l : Line) (v : Level) (s : State) :
    ∃ more n, driveLine l v s = { s with port := s.port ++ more, draws := n } := by
  unfold driveLine
  split
  · exact pinActs_eq _ _
  · exact ⟨[], s.draws, by simp⟩

/-- SETLINE (R111): the one latch, its event, and nothing else. -/
theorem setLine_ends (l : Line) (v : Level) (s : State) :
    Ends s (setLine l v s) [.setline l v] (if l = .scl then v else s.sclOut) (if l = .sda then v else s.sdaOut) := by
  obtain ⟨more, n, h⟩ := driveLine_eq l v s
  unfold setLine
  rw [h]
  exact { sclId := by simp, sdaId := by simp, delay := by simp, configured := by simp, dispAddr := by simp,
          initialized := by simp, fb := by simp, cfg := by simp, host := by simp, trace := by simp,
          env := by simp [samples, samplesOf], drawn := by simp [samples, samplesOf], port := by simp,
          sclOut := by simp, sdaOut := by simp, inTxn := by simp, seq := by simp }

/-- DELAY (R114): its event, and nothing else. -/
theorem delayOp_ends (s : State) : Ends s (delayOp s) [.delay] s.sclOut s.sdaOut :=
  { sclId := rfl, sdaId := rfl, delay := rfl, configured := rfl, dispAddr := rfl,
    initialized := rfl, fb := rfl, cfg := rfl, host := rfl, trace := rfl,
    env := by simp [samples, samplesOf, delayOp], drawn := by simp [samples, samplesOf], port := List.prefix_refl _,
    sclOut := rfl, sdaOut := rfl, inTxn := rfl, seq := rfl }

/-- PINMODE (R116): its event, and nothing else of the block. -/
theorem pinMode_ends (id : Nat) (s : State) : Ends s (pinMode id s) [.pinmode id] s.sclOut s.sdaOut := by
  obtain ⟨more, n, h⟩ := pinActs_eq (pinEntry s.cfg id).mode s
  unfold pinMode
  rw [h]
  exact { sclId := by simp, sdaId := by simp, delay := by simp, configured := by simp, dispAddr := by simp,
          initialized := by simp, fb := by simp, cfg := by simp, host := by simp, trace := by simp,
          env := by simp [samples, samplesOf], drawn := by simp [samples, samplesOf], port := by simp,
          sclOut := by simp, sdaOut := by simp, inTxn := by simp, seq := by simp }

/-- POWERUP_WAIT (R162): its event, and nothing else. -/
theorem powerupWaitOp_ends (s : State) : Ends s (powerupWaitOp s) [.powerupWait] s.sclOut s.sdaOut :=
  { sclId := rfl, sdaId := rfl, delay := rfl, configured := rfl, dispAddr := rfl,
    initialized := rfl, fb := rfl, cfg := rfl, host := rfl, trace := rfl,
    env := by simp [samples, samplesOf, powerupWaitOp], drawn := by simp [samples, samplesOf], port := List.prefix_refl _,
    sclOut := rfl, sdaOut := rfl, inTxn := rfl, seq := rfl }

/-- The sampled bit of the word that a SAMPLE reads is the level of the wire. -/
theorem withBit_getLsbD (w : Word) {i : Nat} (hi : i < 32) (b : Level) : (withBit w i b).getLsbD i = b := by
  unfold withBit
  cases b <;> simp [hi]

theorem sampleWord_bit (id : Nat) (s : State) :
    (sampleWord id s).getLsbD (pinEntry s.cfg id).inBit.val = sdaLevel s :=
  withBit_getLsbD _ (pinEntry s.cfg id).inBit.isLt _

/-- A SAMPLE returns the level of the data wire (R113). -/
theorem sample_level (s : State) : (sample s).1 = sdaLevel s := by
  unfold sample
  cases hid : s.sdaId with
  | unwritten => rfl
  | written id => exact sampleWord_bit id s

/-- SAMPLE (R113), with SDA released: its event with the level it returned, and nothing else. -/
theorem sample_ends {s : State} (h : s.sdaOut = true) :
    Ends s (sample s).2 [.sample (sample s).1] s.sclOut s.sdaOut := by
  have hd : s.cfg.padMode = .openDrain →
      (samplesOf [.sample (sample s).1]).take s.env.length = s.env.take (samples [.sample (sample s).1]) := by
    intro hp
    rw [sample_level, samples, samplesOf, samplesOf]
    cases he : s.env with
    | nil => simp
    | cons l rest => simp [sdaLevel, wireLevel, hp, h, envLevel, he]
  have hr : ∃ more, (sample s).2 = emit (.sample (sample s).1)
      { s with env := s.env.drop 1, draws := s.draws + 1, port := s.port ++ more } := by
    unfold sample
    cases hid : s.sdaId with
    | unwritten => exact ⟨[], by simp⟩
    | written id => exact ⟨_, rfl⟩
  obtain ⟨more, hr⟩ := hr
  refine { sclId := ?_, sdaId := ?_, delay := ?_, configured := ?_, dispAddr := ?_, initialized := ?_, fb := ?_, cfg := ?_,
           host := ?_, trace := ?_, env := ?_, drawn := hd, port := ?_, sclOut := ?_, sdaOut := ?_, inTxn := ?_, seq := ?_ }
  all_goals rw [hr]
  all_goals simp [samples, samplesOf]

/-! ## Chains: one micro-operation after a run -/

section
variable {s t : State} {a : List Event} {x y : Level}

theorem Ends.scl (h : Ends s t a x y) (v : Level) : Ends s (setLine .scl v t) (a ++ [.setline .scl v]) v y := by
  have k := h.trans (setLine_ends .scl v t)
  simpa [h.sdaOut] using k

theorem Ends.sda (h : Ends s t a x y) (v : Level) : Ends s (setLine .sda v t) (a ++ [.setline .sda v]) x v := by
  have k := h.trans (setLine_ends .sda v t)
  simpa [h.sclOut] using k

theorem Ends.delayed (h : Ends s t a x y) : Ends s (delayOp t) (a ++ [.delay]) x y := by
  have k := h.trans (delayOp_ends t)
  rwa [h.sclOut, h.sdaOut] at k

theorem Ends.pinMode (h : Ends s t a x y) (id : Nat) : Ends s (pinMode id t) (a ++ [.pinmode id]) x y := by
  have k := h.trans (pinMode_ends id t)
  rwa [h.sclOut, h.sdaOut] at k

theorem Ends.waited (h : Ends s t a x y) : Ends s (powerupWaitOp t) (a ++ [.powerupWait]) x y := by
  have k := h.trans (powerupWaitOp_ends t)
  rwa [h.sclOut, h.sdaOut] at k

theorem Ends.sampled (h : Ends s t a x true) :
    Ends s (sample t).2 (a ++ [.sample (sample t).1]) x true := by
  have k := h.trans (sample_ends h.sdaOut)
  rwa [h.sclOut, h.sdaOut] at k

/-- The working registers are in no run's frame. -/
theorem Ends.worked (h : Ends s t a x y) (w : Work) : Ends s { t with work := w } a x y :=
  { toBusFrame := ⟨h.sclId, h.sdaId, h.delay, h.configured, h.dispAddr, h.initialized, h.fb, h.cfg, h.host⟩
    toRecorded := ⟨h.trace, h.env, h.drawn, h.port⟩
    sclOut := h.sclOut, sdaOut := h.sdaOut, inTxn := h.inTxn, seq := h.seq }

/-! ## The bit cell (R117) -/

/-- A cell that drives SDA and does not sample. -/
theorem Ends.writeCell (h : Ends s t a x y) (v : Level) :
    Ends s (bitCell (some v) false t).2 (a ++ cellTrace (some v) none) false v := by
  have k := (((((h.sda v).delayed.scl true).delayed).delayed).scl false).delayed
  simpa [cellTrace, bitCell, dataAction, cellSample] using k

/-- A cell that samples, SDA released by its data action. -/
theorem Ends.releaseCell (h : Ends s t a x y) :
    Ends s (bitCell (some true) true t).2 (a ++ cellTrace (some true) (some (bitCell (some true) true t).1)) false true := by
  have k := ((((((h.sda true).delayed.scl true).delayed).sampled).delayed).scl false).delayed
  simpa [cellTrace, bitCell, dataAction, cellSample] using k

/-- A cell that samples, SDA released before it. -/
theorem Ends.readCell (h : Ends s t a x true) :
    Ends s (bitCell none true t).2 (a ++ cellTrace none (some (bitCell none true t).1)) false true := by
  have k := (((((h.delayed.scl true).delayed).sampled).delayed).scl false).delayed
  simpa [cellTrace, bitCell, dataAction, cellSample] using k

/-! ## WRITE_BYTE (R137) -/

theorem Ends.sendBits (b : Byte) (n : Nat) {t : State} {a : List Event} {x y : Level} (h : Ends s t a x y) (hn : 0 < n) :
    Ends s (sendBits b n t) (a ++ bitsTrace b n) false (b.getLsbD 0) := by
  induction n generalizing t a x y with
  | zero => omega
  | succ n ih =>
    have k := (h.worked { t.work with bitidx := .written (Fin.ofNat 8 n) }).writeCell (b.getLsbD n)
    rcases Nat.eq_zero_or_pos n with rfl | hp
    · simpa [Machine.sendBits, bitsTrace, setBitidx] using k
    · simpa [Machine.sendBits, bitsTrace, setBitidx] using ih k hp

/-- WRITE_BYTE: the trace of the byte with the level its SAMPLE returned; SCL low and SDA released at the end; an ACK is a 0. -/
theorem Ends.writeByte (h : Ends s t a x y) (b : Byte) :
    ∃ v, (writeByteBody b t).1 = !v ∧ Ends s (writeByteBody b t).2 (a ++ writeByteTrace b v) false true := by
  have k := ((h.worked { t.work with shreg := .written b }).sendBits b 8 (by omega)).releaseCell
  refine ⟨_, rfl, ?_⟩
  simpa [writeByteTrace, writeByteBody, setShreg, setAckbit] using k.worked _

/-! ## READ_BYTE (R139) -/

/-- The bits of a byte, shifted in one by one. -/
theorem shiftIn_getLsbD (v : Byte) (b : Level) (i : Nat) (hi : i < 8) :
    (shiftIn v b).getLsbD i = if i = 0 then b else v.getLsbD (i - 1) := by
  unfold shiftIn
  rcases i with _ | i
  · cases b <;> simp
  · have hi' : i < 8 := by omega
    cases b <;> simp [hi, BitVec.getLsbD_eq_getElem hi']

/-- The reading cells: the levels sampled, first one highest, shifted into `v`. -/
theorem Ends.readBits (n : Nat) (v : Byte) {t : State} {a : List Event} {x y : Level} (h : Ends s t a x y) (hn : n ≤ 8)
    (hy : n < 8 → y = true) (hp : 0 < n) :
    Ends s (readBits n v t).2 (a ++ readBitsTrace (readBits n v t).1 n) false true ∧
      ∀ i, n ≤ i → i < 8 → (readBits n v t).1.getLsbD i = v.getLsbD (i - n) := by
  induction n generalizing v t a x y with
  | zero => omega
  | succ n ih =>
    have hw : Ends s (setBitidx n t) a x y := h.worked _
    have k : Ends s (bitCell (if n = 7 then some true else none) true (setBitidx n t)).2
        (a ++ cellTrace (if n = 7 then some true else none)
          (some (bitCell (if n = 7 then some true else none) true (setBitidx n t)).1)) false true := by
      split
      · exact hw.releaseCell
      · obtain rfl := hy (by omega)
        exact hw.readCell
    rw [Machine.readBits]
    generalize (bitCell (if n = 7 then some true else none) true (setBitidx n t)) = r at k
    have kw : Ends s (setShreg (shiftIn v r.1) r.2) _ false true := k.worked _
    have hb0 := shiftIn_getLsbD v r.1 0 (by omega)
    rw [if_pos rfl] at hb0
    rcases Nat.eq_zero_or_pos n with rfl | hp
    · refine ⟨?_, fun i h1 h2 => ?_⟩
      · simp only [Machine.readBits, readBitsTrace, hb0, List.append_nil]
        exact kw
      · simp only [Machine.readBits]
        rw [shiftIn_getLsbD v r.1 i h2, if_neg (by omega)]
    · obtain ⟨k1, k2⟩ := ih (shiftIn v r.1) kw (by omega) (fun _ => rfl) hp
      refine ⟨?_, fun i h1 h2 => ?_⟩
      · have hb := k2 n le_rfl (by omega)
        rw [Nat.sub_self, hb0] at hb
        rw [readBitsTrace, hb, ← List.append_assoc]
        exact k1
      · have hb := k2 i (by omega) h2
        rw [shiftIn_getLsbD v r.1 (i - n) (by omega), if_neg (by omega)] at hb
        rw [hb]
        congr 1

/-- READ_BYTE: the trace of the byte it assembles; SCL low and SDA released at the end. -/
theorem Ends.readByte (h : Ends s t a x y) (sendAck : Bool) :
    Ends s (readByteBody sendAck t).2 (a ++ readByteTrace (readByteBody sendAck t).1 sendAck) false true := by
  have k := (((h.worked { t.work with shreg := .written 0 }).readBits 8 0 le_rfl (by omega) (by omega)).1.writeCell
    (!sendAck)).sda true |>.delayed
  simpa [readByteTrace, readByteBody, setShreg] using k

/-! ## START and STOP (R135, R136): they set and clear the transaction bit, so they end no `Ends` chain by themselves -/

/-- A run that may also have set or cleared the transaction bit, to `z`. -/
structure TxnEnds (s t : State) (events : List Event) (scl sda z : Level) : Prop extends BusRun s t events where
  sclOut : t.sclOut = scl
  sdaOut : t.sdaOut = sda
  inTxn  : t.inTxn = z
  seq    : t.seq = Seq.advance^[events.length] s.seq

theorem TxnEnds.then {s t u : State} {a b : List Event} {x y z x' y' : Level} (h : TxnEnds s t a x y z)
    (k : Ends t u b x' y') : TxnEnds s u (a ++ b) x' y' z :=
  { toBusFrame := h.toBusFrame.trans k.toBusFrame
    toRecorded := h.toRecorded.trans h.cfg k.toRecorded
    sclOut := k.sclOut
    sdaOut := k.sdaOut
    inTxn := k.inTxn.trans h.inTxn
    seq := by rw [k.seq, h.seq, ← Function.iterate_add_apply, List.length_append, Nat.add_comm] }

theorem TxnEnds.trans {s t u : State} {a b : List Event} {x y z x' y' z' : Level} (h : TxnEnds s t a x y z)
    (k : TxnEnds t u b x' y' z') : TxnEnds s u (a ++ b) x' y' z' :=
  { toBusFrame := h.toBusFrame.trans k.toBusFrame
    toRecorded := h.toRecorded.trans h.cfg k.toRecorded
    sclOut := k.sclOut
    sdaOut := k.sdaOut
    inTxn := k.inTxn
    seq := by rw [k.seq, h.seq, ← Function.iterate_add_apply, List.length_append, Nat.add_comm] }

theorem Ends.txn (h : Ends s t a x y) (z : Level) : TxnEnds s { t with inTxn := z } a x y z :=
  { toBusFrame := ⟨h.sclId, h.sdaId, h.delay, h.configured, h.dispAddr, h.initialized, h.fb, h.cfg, h.host⟩
    toRecorded := ⟨h.trace, h.env, h.drawn, h.port⟩
    sclOut := h.sclOut, sdaOut := h.sdaOut, inTxn := rfl, seq := h.seq }

theorem TxnEnds.refl (s : State) : TxnEnds s s [] s.sclOut s.sdaOut s.inTxn :=
  { toBusRun := (Ends.refl s).toBusRun, sclOut := rfl, sdaOut := rfl, inTxn := rfl, seq := rfl }

theorem startBody_ends (s : State) : TxnEnds s (startBody s) startTrace false false true :=
  ((((((((Ends.refl s).sda true).delayed.scl true).delayed).sda false).delayed).scl false).delayed).txn true

theorem stopBody_ends (s : State) : TxnEnds s (stopBody s) stopTrace true true false :=
  ((((((Ends.refl s).sda false).delayed.scl true).delayed).sda true).delayed).txn false

/-! ## WRITE and WRITE_REGISTER (R140 to R142) -/

theorem stopsAtNak_cons_ack (b : Byte) (bs : List Byte) (acks : List Level) :
    stopsAtNak (b :: bs) (false :: acks) = stopsAtNak bs acks := by simp [stopsAtNak]

/-- The payload loop: the byte frames sent, up to the first one not acknowledged. -/
theorem Ends.sendPayload (bs : List Byte) (k : Nat) {t : State} {a : List Event} {x y : Level} (h : Ends s t a x y)
    (hx : x = false) (hy : y = true) :
    ∃ acks, stopsAtNak bs acks = true ∧ (sendPayload k bs t).1 = allAcked acks ∧
      Ends s (sendPayload k bs t).2 (a ++ framesTrace (bs.zip acks)) false true := by
  subst hx hy
  induction bs generalizing k t a with
  | nil => exact ⟨[], rfl, rfl, by simpa [Machine.sendPayload, framesTrace] using h⟩
  | cons b bs ih =>
    obtain ⟨v, hv, hr⟩ := (h.worked { t.work with k := .written k }).writeByte b
    have e : Machine.sendPayload k (b :: bs) t = if (writeByteBody b (setK k t)).1
        then Machine.sendPayload (k + 1) bs (writeByteBody b (setK k t)).2 else (false, (writeByteBody b (setK k t)).2) := rfl
    change (writeByteBody b (setK k t)).1 = !v at hv
    change Ends s (writeByteBody b (setK k t)).2 _ _ _ at hr
    rw [e, hv]
    cases v with
    | true => exact ⟨[true], by simp [stopsAtNak], by simp [allAcked, ackSeen], by simpa [framesTrace] using hr⟩
    | false =>
      obtain ⟨acks, h1, h2, h3⟩ := ih (k + 1) hr
      exact ⟨false :: acks, by simpa [stopsAtNak] using h1, by simpa [allAcked, ackSeen] using h2,
        by simpa [framesTrace] using h3⟩

/-- A whole transaction: what WRITE, WRITE_REGISTER and through them every display operation does (R92, R143). -/
structure Txn (s t : State) (bytes : List Byte) (acks : List Level) : Prop where
  acked : stopsAtNak bytes acks = true
  ends  : TxnEnds s t (txnTrace bytes acks) true true false

theorem writeBody_txn (address : Addr7) (payload : List Byte) (s : State) :
    ∃ acks, (writeBody address payload s).1 = allAcked acks ∧
      Txn s (writeBody address payload s).2 (addrByte address 0 :: payload) acks := by
  obtain ⟨v, hv, hr⟩ := (Ends.refl (startBody s)).writeByte (addrByte address 0)
  unfold writeBody
  simp only [hv]
  cases v with
  | true =>
    refine ⟨[true], by simp [allAcked, ackSeen], by simp [stopsAtNak], ?_⟩
    simpa [txnTrace, framesTrace] using ((startBody_ends s).then hr).trans (stopBody_ends _)
  | false =>
    obtain ⟨acks, h1, h2, h3⟩ := hr.sendPayload payload 0 rfl rfl
    refine ⟨false :: acks, by simpa [allAcked, ackSeen] using h2, by simpa [stopsAtNak] using h1, ?_⟩
    simpa [txnTrace, framesTrace] using ((startBody_ends s).then h3).trans (stopBody_ends _)

theorem writeRegisterBody_txn (address : Addr7) (register : Byte) (payload : List Byte) (s : State) :
    ∃ acks, (writeRegisterBody address register payload s).1 = allAcked acks ∧
      Txn s (writeRegisterBody address register payload s).2 (addrByte address 0 :: register :: payload) acks := by
  obtain ⟨v, hv, hr⟩ := (Ends.refl (startBody s)).writeByte (addrByte address 0)
  unfold writeRegisterBody
  simp only [hv]
  cases v with
  | true =>
    refine ⟨[true], by simp [allAcked, ackSeen], by simp [stopsAtNak], ?_⟩
    simpa [txnTrace, framesTrace] using ((startBody_ends s).then hr).trans (stopBody_ends _)
  | false =>
    obtain ⟨w, hw, hq⟩ := hr.writeByte register
    simp only [Bool.not_false, if_true, hw]
    cases w with
    | true =>
      refine ⟨[false, true], by simp [allAcked, ackSeen], by simp [stopsAtNak], ?_⟩
      simpa [txnTrace, framesTrace] using ((startBody_ends s).then hq).trans (stopBody_ends _)
    | false =>
      obtain ⟨acks, h1, h2, h3⟩ := hq.sendPayload payload 0 rfl rfl
      refine ⟨false :: false :: acks, by simpa [allAcked, ackSeen] using h2, by simpa [stopsAtNak] using h1, ?_⟩
      simpa [txnTrace, framesTrace] using ((startBody_ends s).then h3).trans (stopBody_ends _)

/-! ## Counting (R145) -/

theorem samplesOf_writeByteTrace (b : Byte) (v : Level) : samplesOf (writeByteTrace b v) = [v] := by
  simp [writeByteTrace, bitsTrace, cellTrace, samplesOf]

theorem stopsAtNak_length {bytes : List Byte} {acks : List Level} (h : stopsAtNak bytes acks = true) :
    acks.length ≤ bytes.length := by
  induction bytes generalizing acks with
  | nil => simp [stopsAtNak] at h; simp [h]
  | cons b bs ih =>
    cases acks with
    | nil => simp
    | cons a acks =>
      simp only [stopsAtNak] at h
      split at h
      · simp at h; simp [h]
      · simpa using ih h

theorem samplesOf_framesTrace {bytes : List Byte} {acks : List Level} (h : acks.length ≤ bytes.length) :
    samplesOf (framesTrace (bytes.zip acks)) = acks := by
  induction bytes generalizing acks with
  | nil => cases acks <;> simp_all [framesTrace, samplesOf]
  | cons b bs ih =>
    cases acks with
    | nil => simp [framesTrace, samplesOf]
    | cons a acks =>
      have := ih (acks := acks) (by simpa using h)
      simp [framesTrace] at this ⊢
      simp [samplesOf_writeByteTrace, this]

/-- The SAMPLEs of a transaction are its acknowledgment levels. -/
theorem samplesOf_txnTrace {bytes : List Byte} {acks : List Level} (h : acks.length ≤ bytes.length) :
    samplesOf (txnTrace bytes acks) = acks := by
  simp [txnTrace, samplesOf_framesTrace h, startTrace, stopTrace, samplesOf]

@[simp] theorem setlines_append (a b : List Event) : setlines (a ++ b) = setlines a + setlines b := by simp [setlines]

@[simp] theorem delays_append (a b : List Event) : delays (a ++ b) = delays a + delays b := by simp [delays]

theorem setlines_framesTrace (frames : List (Byte × Level)) : setlines (framesTrace frames) = 27 * frames.length := by
  induction frames with
  | nil => rfl
  | cons f fs ih =>
    have : framesTrace (f :: fs) = writeByteTrace f.1 f.2 ++ framesTrace fs := rfl
    have e : setlines (writeByteTrace f.1 f.2) = 27 := by simp [writeByteTrace, bitsTrace, cellTrace, setlines]
    rw [this, setlines_append, ih, e, List.length_cons]
    omega

theorem delays_framesTrace (frames : List (Byte × Level)) : delays (framesTrace frames) = 36 * frames.length := by
  induction frames with
  | nil => rfl
  | cons f fs ih =>
    have : framesTrace (f :: fs) = writeByteTrace f.1 f.2 ++ framesTrace fs := rfl
    have e : delays (writeByteTrace f.1 f.2) = 36 := by simp [writeByteTrace, bitsTrace, cellTrace, delays]
    rw [this, delays_append, ih, e, List.length_cons]
    omega

theorem setlines_txnTrace {bytes : List Byte} {acks : List Level} (h : acks.length ≤ bytes.length) :
    setlines (txnTrace bytes acks) = 7 + 27 * acks.length := by
  simp only [txnTrace, setlines_append, setlines_framesTrace, List.length_zip]
  have e1 : setlines startTrace = 4 := by decide
  have e2 : setlines stopTrace = 3 := by decide
  omega

theorem delays_txnTrace {bytes : List Byte} {acks : List Level} (h : acks.length ≤ bytes.length) :
    delays (txnTrace bytes acks) = 7 + 36 * acks.length := by
  simp only [txnTrace, delays_append, delays_framesTrace, List.length_zip]
  have e1 : delays startTrace = 4 := by decide
  have e2 : delays stopTrace = 3 := by decide
  omega

end

end Sys2Proof.Machine
end

