-- ==== Sys2Proof/Laws/Exec.lean ====
section
/-!
SUPPORT. The guards as conditions on the state (R264), the one way an operation runs, and what each bus operation of the host leaves.
-/

namespace Sys2Proof.Machine

/-! ## Guards -/

theorem needWritten_none {α : Type} {name : String} {e : Elem α} : needWritten name e = none ↔ Written e := by
  cases e <;> simp [needWritten, Written]

theorem firstRefusal_none {a b : Option Refusal} : firstRefusal a b = none ↔ a = none ∧ b = none := by
  cases a <;> simp [firstRefusal]

/-- The bus guard lets through exactly the states in which the bus is ready (R29, R21). -/
theorem busGuard_none {s : State} : busGuard s = none ↔ BusReady s := by
  simp [busGuard, firstRefusal_none, needWritten_none, BusReady]

theorem cmdGuard_none {s : State} : cmdGuard s = none ↔ Written s.dispAddr ∧ BusReady s := by
  simp [cmdGuard, firstRefusal_none, needWritten_none, busGuard_none]

/-- The display guard (R175). -/
theorem displayGuard_none {s : State} :
    displayGuard s = none ↔ s.initialized = true ∧ Written s.dispAddr ∧ BusReady s := by
  simp [displayGuard, firstRefusal_none, cmdGuard_none]

/-- CONFIGURE's guard lets through exactly the operands of R132. -/
theorem configureGuard_none {c : Params} {cl dl : Nat} {f : Word} :
    configureGuard c cl dl f = none ↔ f ≠ 0 ∧ cl < c.pinCount ∧ dl < c.pinCount ∧ cl ≠ dl := by
  unfold configureGuard
  split
  · simp_all
  · split
    · simp_all
    · split
      · simp_all
      · split <;> simp_all

theorem initializeGuard_none {cl dl : Nat} {s : State} :
    initializeGuard cl dl s = none ↔
      s.initialized = false ∧ s.cfg.displayBusHz ≠ 0 ∧ cl < s.cfg.pinCount ∧ dl < s.cfg.pinCount ∧ cl ≠ dl := by
  simp [initializeGuard, firstRefusal_none, configureGuard_none]

/-! ## How an operation runs -/

/-- An operation that is let through runs from its beginning to its return. -/
theorem runOp_next {opc : Byte} {guard : Option Refusal} {body : State → Option Result × State} {s : State}
    (hs : s.seq = .idle) (hg : guard = none) :
    runOp opc guard body s = .next (returnOp (body (beginOp opc s)).1 (body (beginOp opc s)).2) := by
  simp [runOp, hs, hg]

/-- If an operation answers a next state, the sequencer was idle, the guard let it through, and the state is its return. -/
theorem runOp_eq_next {opc : Byte} {guard : Option Refusal} {body : State → Option Result × State} {s t : State}
    (h : runOp opc guard body s = .next t) :
    s.seq = .idle ∧ guard = none ∧ t = returnOp (body (beginOp opc s)).1 (body (beginOp opc s)).2 := by
  unfold runOp at h
  split at h
  · cases h
  · split at h
    · cases h
    · exact ⟨by assumption, rfl, by cases h; rfl⟩

/-- A guard's refusal is the operation's outcome, when the sequencer is idle. -/
theorem runOp_refused {opc : Byte} {guard : Option Refusal} {body : State → Option Result × State} {s : State} {r : Refusal}
    (hs : s.seq = .idle) (hg : guard = some r) : runOp opc guard body s = .refused r := by
  simp [runOp, hs, hg]

theorem runPiece_next {guard : Option Refusal} {body : State → Option Result × State} {s : State} (hg : guard = none) :
    runPiece guard body s = .next { (body s).2 with ret := (body s).1 } := by
  simp [runPiece, hg]

theorem runPiece_eq_next {guard : Option Refusal} {body : State → Option Result × State} {s t : State}
    (h : runPiece guard body s = .next t) : guard = none ∧ t = { (body s).2 with ret := (body s).1 } := by
  unfold runPiece at h
  split at h
  · cases h
  · exact ⟨rfl, by cases h; rfl⟩

/-! ## From a body's run to the operation's run -/

/-- Beginning and returning are outside every frame and record. -/
theorem BusRun.op {s t : State} {c : Byte} {r : Option Result} {es : List Event} (h : BusRun (beginOp c s) t es) :
    BusRun s (returnOp r t) es :=
  { sclId := h.sclId, sdaId := h.sdaId, delay := h.delay, configured := h.configured, dispAddr := h.dispAddr,
    initialized := h.initialized, fb := h.fb, cfg := h.cfg, host := h.host, trace := h.trace, env := h.env,
    drawn := h.drawn, port := h.port }

theorem returnOp_returned (r : Option Result) (s : State) : Returned (returnOp r s) r := ⟨rfl, rfl, rfl⟩

/-! ## CONFIGURE (R130) -/

theorem configureBody_configured (cl dl : Nat) (f : Word) (s : State) : Configured s (configureBody cl dl f s) cl dl f := by
  have h := (((((((Ends.refl { s with
      delay := .written (delayConstant s.cfg f), sclId := .written cl, sdaId := .written dl }).pinMode cl).pinMode dl).scl
        true).delayed).sda true).delayed)
  exact { record := ⟨h.trace, h.env, h.drawn, h.port⟩, sclId := h.sclId, sdaId := h.sdaId, delay := h.delay, configured := rfl,
          sclOut := h.sclOut, sdaOut := h.sdaOut, inTxn := rfl, dispAddr := h.dispAddr, initialized := h.initialized,
          fb := h.fb, cfg := h.cfg, host := h.host }

/-! ## Display commands (R160, R161) -/

theorem Txns.refl (s : State) : Txns s s [] :=
  { toBusFrame := .refl s, toRecorded := .refl s, acked := by simp, idle := by simp, none_ := by simp }

theorem Txn.txns {s t : State} {bytes : List Byte} {acks : List Level} (h : Txn s t bytes acks) : Txns s t [(bytes, acks)] :=
  { toBusRun := by simpa [txnsTrace] using h.ends.toBusRun
    acked := by simpa using h.acked
    idle := fun _ => ⟨⟨h.ends.sclOut, h.ends.sdaOut⟩, h.ends.inTxn⟩
    none_ := by simp }

theorem Txns.trans {s t u : State} {a b : List (List Byte × List Level)} (h : Txns s t a) (k : Txns t u b) :
    Txns s u (a ++ b) :=
  { toBusFrame := h.toBusFrame.trans k.toBusFrame
    toRecorded := by simpa [txnsTrace] using h.toRecorded.trans h.cfg k.toRecorded
    acked := fun x hx => (List.mem_append.1 hx).elim (h.acked x) (k.acked x)
    idle := fun hne => by
      by_cases hb : b = []
      · obtain ⟨h1, h2, h3⟩ := k.none_ hb
        have hi := h.idle (by rintro rfl; simp [hb] at hne)
        exact ⟨⟨h1.trans hi.released.1, h2.trans hi.released.2⟩, h3.trans hi.inTxn⟩
      · exact k.idle hb
    none_ := fun hn => by
      obtain ⟨ha, hb⟩ := List.append_eq_nil_iff.1 hn
      obtain ⟨h1, h2, h3⟩ := h.none_ ha
      obtain ⟨k1, k2, k3⟩ := k.none_ hb
      exact ⟨k1.trans h1, k2.trans h2, k3.trans h3⟩ }

/-- CMD (R160): one transaction of three bytes. -/
theorem cmd_txn {a : Addr7} {s : State} (h : s.dispAddr = .written a) (b : Byte) :
    ∃ acks, Txns s (cmd b s) [(cmdBytes a b, acks)] := by
  obtain ⟨acks, -, k⟩ := writeRegisterBody_txn a 0x80 [b] s
  refine ⟨acks, ?_⟩
  unfold cmd
  rw [h]
  exact k.txns

/-- Consecutive CMDs (R161): one transaction for each byte, in order, whatever was acknowledged. -/
theorem sendCmds_txns {a : Addr7} (bs : List Byte) {s : State} (h : s.dispAddr = .written a) :
    ∃ ackss : List (List Level), ackss.length = bs.length ∧ Txns s (sendCmds bs s) ((bs.map (cmdBytes a)).zip ackss) := by
  induction bs generalizing s with
  | nil => exact ⟨[], rfl, .refl s⟩
  | cons b bs ih =>
    obtain ⟨acks, h1⟩ := cmd_txn h b
    obtain ⟨ackss, hl, h2⟩ := ih (s := cmd b s) (by rw [h1.dispAddr, h])
    exact ⟨acks :: ackss, by simp [hl], by simpa [sendCmds] using h1.trans h2⟩

/-- FLUSH's body (R167): six CMD transactions and one data transaction. -/
theorem flushBody_txns {a : Addr7} {s : State} (h : s.dispAddr = .written a) :
    ∃ (ackss : List (List Level)) (acks : List Level), ackss.length = 6 ∧
      Txns s (flushBody s) (((windowSeq s.cfg).map (cmdBytes a)).zip ackss
        ++ [((a ++ 0#1) :: 0x40 :: fbBytes s.cfg s.fb, acks)]) := by
  obtain ⟨ackss, hl, h1⟩ := sendCmds_txns (windowSeq s.cfg) h
  obtain ⟨acks, -, k⟩ := writeRegisterBody_txn a 0x40 (fbBytes s.cfg s.fb) (sendCmds (windowSeq s.cfg) s)
  refine ⟨ackss, acks, by rw [hl]; rfl, h1.trans ?_⟩
  unfold flushBody sendFb
  rw [h1.dispAddr, h, h1.cfg, h1.fb]
  exact k.txns

end Sys2Proof.Machine
end

