-- ==== Sys2Proof/Laws/Alike.lean ====
section
/-!
SUPPORT. The sequencer position and the working registers decide nothing an operation does: two states that differ only in them give
the same results and again such states. The operation codes and loop counters are among what they hold.
-/

namespace Sys2Proof.Machine

/-- Equal but for the sequencer position and the working registers. -/
def Alike (s t : State) : Prop := ∃ q w, t = { s with seq := q, work := w }

theorem Alike.refl (s : State) : Alike s s := ⟨s.seq, s.work, rfl⟩

theorem alike_with (s : State) (q : Seq) (w : Work) : Alike s { s with seq := q, work := w } := ⟨q, w, rfl⟩

theorem Alike.work {s t : State} (h : Alike s t) (w w' : Work) : Alike { s with work := w } { t with work := w' } := by
  obtain ⟨q, v, rfl⟩ := h
  exact ⟨q, w', rfl⟩

theorem Alike.inTxn {s t : State} (h : Alike s t) (z : Bool) : Alike { s with inTxn := z } { t with inTxn := z } := by
  obtain ⟨q, v, rfl⟩ := h
  exact ⟨q, v, rfl⟩

/-- Alike results are alike in value and in state. -/
def AlikeResult {α : Type} (r r' : α × State) : Prop := r.1 = r'.1 ∧ Alike r.2 r'.2

theorem Alike.emit {s t : State} (h : Alike s t) (e : Event) : Alike (emit e s) (emit e t) := by
  obtain ⟨q, w, rfl⟩ := h
  exact ⟨q.advance, w, rfl⟩

theorem pinActs_with (acts : List PinAct) (s : State) (q : Seq) (w : Work) :
    pinActs acts { s with seq := q, work := w } = { pinActs acts s with seq := q, work := w } := by
  induction acts generalizing s with
  | nil => rfl
  | cons a acts ih =>
    cases a with
    | write x v => exact ih (pinAct s (.write x v))
    | modify x k v => exact ih (pinAct s (.modify x k v))

theorem Alike.pinActs {s t : State} (h : Alike s t) (acts : List PinAct) : Alike (pinActs acts s) (pinActs acts t) := by
  obtain ⟨q, w, rfl⟩ := h
  exact ⟨q, w, pinActs_with acts s q w⟩

theorem Alike.driveLine {s t : State} (h : Alike s t) (l : Line) (v : Level) : Alike (driveLine l v s) (driveLine l v t) := by
  have k := h
  obtain ⟨q, w, rfl⟩ := h
  have e : lineId l { s with seq := q, work := w } = lineId l s := by cases l <;> rfl
  unfold Machine.driveLine
  rw [e]
  cases lineId l s with
  | written id => exact k.pinActs _
  | unwritten => exact k

theorem Alike.setLine {s t : State} (h : Alike s t) (l : Line) (v : Level) : Alike (setLine l v s) (setLine l v t) := by
  have k : Alike (setLatch l v (Machine.driveLine l v s)) (setLatch l v (Machine.driveLine l v t)) := by
    obtain ⟨q, w, e⟩ := h.driveLine l v
    rw [e]
    cases l <;> exact ⟨q, w, rfl⟩
  exact k.emit _

theorem Alike.delayOp {s t : State} (h : Alike s t) : Alike (delayOp s) (delayOp t) := h.emit _

theorem Alike.sample {s t : State} (h : Alike s t) : AlikeResult (sample s) (sample t) := by
  obtain ⟨q, w, rfl⟩ := h
  unfold Machine.sample
  cases s.sdaId with
  | written id => exact ⟨rfl, ⟨q.advance, w, rfl⟩⟩
  | unwritten => exact ⟨rfl, ⟨q.advance, w, rfl⟩⟩

theorem Alike.bitCell {s t : State} (h : Alike s t) (data : Option Level) (doSample : Bool) :
    AlikeResult (bitCell data doSample s) (bitCell data doSample t) := by
  have h0 : Alike (dataAction data s) (dataAction data t) := by
    cases data with
    | none => exact h
    | some v => exact h.setLine _ _
  have h1 := (h0.delayOp.setLine .scl true).delayOp
  cases doSample with
  | false => exact ⟨rfl, ((h1.delayOp).setLine .scl false).delayOp⟩
  | true => exact ⟨h1.sample.1, ((h1.sample.2.delayOp).setLine .scl false).delayOp⟩

theorem Alike.sendBits {s t : State} (h : Alike s t) (b : Byte) (n : Nat) : Alike (sendBits b n s) (sendBits b n t) := by
  induction n generalizing s t with
  | zero => exact h
  | succ n ih => exact ih ((h.work _ _).bitCell _ _).2

theorem Alike.writeByte {s t : State} (h : Alike s t) (b : Byte) : AlikeResult (writeByteBody b s) (writeByteBody b t) := by
  have k := ((h.work { s.work with shreg := .written b } { t.work with shreg := .written b }).sendBits b 8).bitCell (some true) true
  exact ⟨congrArg ackSeen k.1, k.2.work _ _⟩

theorem Alike.sendPayload {s t : State} (h : Alike s t) (bs : List Byte) (k k' : Nat) :
    AlikeResult (sendPayload k bs s) (sendPayload k' bs t) := by
  induction bs generalizing s t k k' with
  | nil => exact ⟨rfl, h⟩
  | cons b bs ih =>
    have r := (h.work { s.work with k := .written k } { t.work with k := .written k' }).writeByte b
    change AlikeResult (writeByteBody b (setK k s)) (writeByteBody b (setK k' t)) at r
    unfold Machine.sendPayload
    dsimp only
    rw [r.1]
    split
    · exact ih r.2 (k + 1) (k' + 1)
    · exact ⟨rfl, r.2⟩

theorem Alike.startBody {s t : State} (h : Alike s t) : Alike (startBody s) (startBody t) :=
  ((((h.setLine .sda true).delayOp.setLine .scl true).delayOp.setLine .sda false).delayOp.setLine .scl
    false).delayOp.inTxn true

theorem Alike.stopBody {s t : State} (h : Alike s t) : Alike (stopBody s) (stopBody t) :=
  (((h.setLine .sda false).delayOp.setLine .scl true).delayOp.setLine .sda true).delayOp.inTxn false

/-- Alike states return to one state: the position and the working registers are put away (R24, R25). -/
theorem Alike.returnOp {s t : State} (h : Alike s t) (r : Option Result) : returnOp r s = returnOp r t := by
  obtain ⟨q, w, rfl⟩ := h
  rfl

end Sys2Proof.Machine
end

