-- ==== Sys2Proof/Laws/Decode.lean ====
section
/-!
SUPPORT. Each operand field once, in both directions: reading a written field gives it back and leaves the bytes after it, and what a
reader accepts is exactly a written field.
-/

namespace Sys2Proof

@[simp] theorem followedBy_ok {α β : Type} (a : α) (rest : List Byte) (k : α → List Byte → Parse β) :
    followedBy (.ok (a, rest)) k = k a rest := rfl

theorem followedBy_eq_ok {α β : Type} {p : Parse α} {k : α → List Byte → Parse β} {r : β × List Byte}
    (h : followedBy p k = .ok r) : ∃ a rest, p = .ok (a, rest) ∧ k a rest = .ok r := by
  cases p with
  | ok x => exact ⟨x.1, x.2, rfl, h⟩
  | error e => cases h

/-! ## Reading what was written -/

theorem wordOf_wordBytes (w : Word) :
    wordOf (w.extractLsb' 0 8) (w.extractLsb' 8 8) (w.extractLsb' 16 8) (w.extractLsb' 24 8) = w := by
  unfold wordOf
  ext i hi
  simp only [BitVec.getElem_append, BitVec.getElem_extractLsb']
  split
  · simp [BitVec.getLsbD_eq_getElem hi]
  · split
    · simp only [show 8 + (i - 8) = i by omega, BitVec.getLsbD_eq_getElem hi]
    · split
      · simp only [show 16 + (i - 8 - 8) = i by omega, BitVec.getLsbD_eq_getElem hi]
      · simp only [show 24 + (i - 8 - 8 - 8) = i by omega, BitVec.getLsbD_eq_getElem hi]

@[simp] theorem takeByte_cons (b : Byte) (rest : List Byte) : takeByte (b :: rest) = .ok (b, rest) := rfl

@[simp] theorem takeWord_wordBytes (w : Word) (rest : List Byte) : takeWord (wordBytes w ++ rest) = .ok (w, rest) := by
  simp [wordBytes, takeWord, wordOf_wordBytes]

theorem takeLine_wordBytes {id : Nat} (h : lineFits id = true) (rest : List Byte) :
    takeLine (wordBytes (BitVec.ofNat 32 id) ++ rest) = .ok (id, rest) := by
  have h' : id < 4294967296 := by simpa [lineFits] using h
  simpa [takeLine] using h'

@[simp] theorem takeAddr_setWidth (a : Addr7) (rest : List Byte) : takeAddr (a.setWidth 8 :: rest) = .ok (a, rest) := by
  have h : (a.setWidth 8).toNat < 128 := by simp; omega
  rw [takeAddr, if_pos h]
  congr 2
  ext i hi
  simp

@[simp] theorem takeBool_boolByte (b : Bool) (rest : List Byte) : takeBool (boolByte b :: rest) = .ok (b, rest) := by
  cases b <;> simp [takeBool, boolByte]

@[simp] theorem takeBool_lineByte (l : Line) (rest : List Byte) :
    takeBool (lineByte l :: rest) = .ok (decide (l = .sda), rest) := by
  cases l <;> simp [takeBool, lineByte]

@[simp] theorem takeBytes_bytesField (bs rest : List Byte) : takeBytes (bytesField bs ++ rest) = .ok (bs, rest) := by
  induction bs with
  | nil => cases rest <;> simp [bytesField, takeBytes]
  | cons b bs ih => simp [bytesField, takeBytes, ih]

@[simp] theorem takeText_textField (cs : List Word) (rest : List Byte) : takeText (textField cs ++ rest) = .ok (cs, rest) := by
  induction cs with
  | nil =>
    match rest with
    | [] => simp [textField, takeText]
    | [_] => simp [textField, takeText]
    | [_, _] => simp [textField, takeText]
    | [_, _, _] => simp [textField, takeText]
    | _ :: _ :: _ :: _ :: _ => simp [textField, takeText]
  | cons c cs ih => simp [textField, takeText, wordBytes, ih, wordOf_wordBytes]

/-! ## What is read was written -/

theorem wordBytes_wordOf (a b c d : Byte) : wordBytes (wordOf a b c d) = [a, b, c, d] := by
  unfold wordBytes wordOf
  congr 1
  · ext i hi
    simp only [BitVec.getElem_extractLsb', BitVec.getLsbD_append]
    simp [hi]
  congr 1
  · ext i hi
    simp only [BitVec.getElem_extractLsb', BitVec.getLsbD_append]
    simp [hi, show ¬ 8 + i < 8 by omega]
  congr 1
  · ext i hi
    simp only [BitVec.getElem_extractLsb', BitVec.getLsbD_append]
    simp [hi, show ¬ 16 + i < 8 by omega, show ¬ 16 + i - 8 < 8 by omega, show 16 + i - 8 - 8 = i by omega]
  congr 1
  · ext i hi
    simp only [BitVec.getElem_extractLsb', BitVec.getLsbD_append]
    simp [show ¬ 24 + i < 8 by omega, show ¬ 24 + i - 8 < 8 by omega, show ¬ 24 + i - 8 - 8 < 8 by omega,
      show 24 + i - 8 - 8 - 8 = i by omega, BitVec.getLsbD_eq_getElem hi]

theorem takeByte_eq_ok {bs rest : List Byte} {b : Byte} (h : takeByte bs = .ok (b, rest)) : bs = b :: rest := by
  cases bs with
  | nil => cases h
  | cons c cs => cases h; rfl

theorem takeWord_eq_ok {bs rest : List Byte} {w : Word} (h : takeWord bs = .ok (w, rest)) : bs = wordBytes w ++ rest := by
  match bs, h with
  | a :: b :: c :: d :: r, h => cases h; rw [wordBytes_wordOf]; rfl

theorem takeLine_eq_ok {bs rest : List Byte} {id : Nat} (h : takeLine bs = .ok (id, rest)) :
    lineFits id = true ∧ bs = wordBytes (BitVec.ofNat 32 id) ++ rest := by
  obtain ⟨w, r, hw, hk⟩ := followedBy_eq_ok h
  cases hk
  refine ⟨by simp [lineFits]; exact w.isLt, ?_⟩
  rw [takeWord_eq_ok hw]
  simp

theorem takeAddr_eq_ok {bs rest : List Byte} {a : Addr7} (h : takeAddr bs = .ok (a, rest)) :
    bs = a.setWidth 8 :: rest := by
  cases bs with
  | nil => cases h
  | cons b r =>
    simp only [takeAddr] at h
    split at h
    · rename_i hb
      cases h
      congr 1
      apply BitVec.eq_of_toNat_eq
      simp
      omega
    · cases h

theorem takeBool_eq_ok {bs rest : List Byte} {b : Bool} (h : takeBool bs = .ok (b, rest)) : bs = boolByte b :: rest := by
  cases bs with
  | nil => cases h
  | cons c r =>
    simp only [takeBool] at h
    split at h
    · cases h; simp_all [boolByte]
    · split at h
      · cases h; simp_all [boolByte]
      · cases h

theorem takeBytes_eq_ok : ∀ {bs rest p : List Byte}, takeBytes bs = .ok (p, rest) → bs = bytesField p ++ rest
  | [], _, _, h => by cases h
  | [m], rest, p, h => by
    simp only [takeBytes] at h
    split at h
    · cases h; simp_all [bytesField]
    · split at h <;> cases h
  | m :: b :: r, rest, p, h => by
    simp only [takeBytes] at h
    split at h
    · cases h; simp_all [bytesField]
    · split at h
      · split at h
        · rename_i bs' r' e
          cases h
          have ih := takeBytes_eq_ok e
          simp_all [bytesField]
        · cases h
      · cases h

theorem takeText_eq_ok : ∀ {bs rest : List Byte} {t : List Word}, takeText bs = .ok (t, rest) → bs = textField t ++ rest
  | [], _, _, h => by cases h
  | [m], rest, t, h => by
    simp only [takeText] at h
    split at h
    · cases h; simp_all [textField]
    · split at h <;> cases h
  | [m, _], rest, t, h => by
    simp only [takeText] at h
    split at h
    · cases h; simp_all [textField]
    · split at h <;> cases h
  | [m, _, _], rest, t, h => by
    simp only [takeText] at h
    split at h
    · cases h; simp_all [textField]
    · split at h <;> cases h
  | [m, _, _, _], rest, t, h => by
    simp only [takeText] at h
    split at h
    · cases h; simp_all [textField]
    · split at h <;> cases h
  | m :: a :: b :: c :: d :: r, rest, t, h => by
    simp only [takeText] at h
    split at h
    · cases h; simp_all [textField]
    · split at h
      · split at h
        · rename_i cs' r' e
          cases h
          have ih := takeText_eq_ok e
          simp_all [textField, wordBytes_wordOf]
        · cases h
      · cases h

/-! ## A request is an operation -/

/-- An instruction that a chain of readers gives, if it gives one, is of format OP. -/
def GivesOp (r : Parse Instr) : Prop := ∀ i rest, r = .ok (i, rest) → i.format = .op

theorem GivesOp.ok {i : Instr} (h : i.format = .op) (rest : List Byte) : GivesOp (.ok (i, rest)) := by
  intro j r e
  cases e
  exact h

theorem GivesOp.error (e : DecodeError) : GivesOp (.error e) := by
  intro j r e
  cases e

theorem GivesOp.followedBy {α : Type} {p : Parse α} {k : α → List Byte → Parse Instr} (h : ∀ a bs, GivesOp (k a bs)) :
    GivesOp (followedBy p k) := by
  intro i rest e
  obtain ⟨a, bs, -, hk⟩ := followedBy_eq_ok e
  exact h a bs i rest hk

theorem GivesOp.ite {c : Prop} [Decidable c] {p q : Parse Instr} (hp : GivesOp p) (hq : GivesOp q) :
    GivesOp (if c then p else q) := by
  split
  · exact hp
  · exact hq

theorem decodeOp_givesOp (c : Byte) (bs : List Byte) : GivesOp (decodeOp c bs) := by
  unfold decodeOp
  repeat' first
    | apply GivesOp.ite
    | (apply GivesOp.followedBy; intro _ _)
    | (apply GivesOp.ok; rfl)
    | apply GivesOp.error

theorem decodeRequest_format {bytes : List Byte} {i : Instr} (h : decodeRequest bytes = .ok i) : i.format = .op := by
  unfold decodeRequest at h
  split at h
  · cases h
  · rename_i j e
    cases h
    cases bytes with
    | nil => cases e
    | cons c bs => exact decodeOp_givesOp c bs _ _ e
  · cases h

end Sys2Proof
end

