-- ==== Sys2Proof/Laws/Memory.lean ====
section
/-!
SUPPORT. The framebuffer memory: a write keeps the canonical form, a read after a write gives the value written at that address and
the old value elsewhere.
-/

namespace Sys2Proof.Machine

/-- Addresses strictly rising. -/
abbrev Rising (cells : List Host.Cell) : Prop := cells.Pairwise fun p q => p.1 < q.1

theorem findCell_eq_none {a : Nat} {cells : List Host.Cell} (h : ∀ c ∈ cells, a < c.1) : findCell a cells = none := by
  induction cells with
  | nil => rfl
  | cons c rest ih =>
    have hc := h c (by simp)
    simp only [findCell]
    rw [if_neg (by omega)]
    exact ih fun d hd => h d (by simp [hd])

theorem mem_putCell {a : Nat} {v : Byte} {keep : Bool} {cells : List Host.Cell} {c : Host.Cell}
    (h : c ∈ putCell a v keep cells) : c ∈ cells ∨ (keep = true ∧ c = (a, v)) := by
  induction cells with
  | nil => cases keep <;> simp_all [putCell]
  | cons d rest ih =>
    obtain ⟨b, w⟩ := d
    simp only [putCell] at h
    split at h
    · cases keep <;> simp_all; tauto
    · split at h
      · cases keep <;> simp_all; tauto
      · rcases List.mem_cons.1 h with h | h
        · exact .inl (by simp [h])
        · rcases ih h with h | h
          · exact .inl (by simp [h])
          · exact .inr h

theorem putCell_rising {a : Nat} {v : Byte} {keep : Bool} {cells : List Host.Cell} (h : Rising cells) :
    Rising (putCell a v keep cells) := by
  induction cells with
  | nil => cases keep <;> simp [putCell]
  | cons d rest ih =>
    obtain ⟨b, w⟩ := d
    obtain ⟨hb, hr⟩ := List.pairwise_cons.1 h
    simp only [putCell]
    split
    · rename_i hab
      cases keep
      · simpa using h
      · refine List.pairwise_cons.2 ⟨fun c hc => ?_, h⟩
        rcases List.mem_cons.1 hc with rfl | hc
        · exact hab
        · have := hb c hc; simp only at this ⊢; omega
    · split
      · rename_i hab; subst hab
        cases keep
        · simpa using hr
        · exact List.pairwise_cons.2 ⟨hb, hr⟩
      · refine List.pairwise_cons.2 ⟨fun c hc => ?_, ih hr⟩
        rcases mem_putCell hc with hc | ⟨-, rfl⟩
        · exact hb c hc
        · simp only; omega

theorem findCell_putCell {a : Nat} {v : Byte} {keep : Bool} {cells : List Host.Cell} (h : Rising cells) (x : Nat) :
    findCell x (putCell a v keep cells) = if x = a then (if keep then some v else none) else findCell x cells := by
  induction cells with
  | nil => cases keep <;> simp [putCell, findCell, eq_comm]
  | cons d rest ih =>
    obtain ⟨b, w⟩ := d
    obtain ⟨hb, hr⟩ := List.pairwise_cons.1 h
    have hnone : ∀ y, y ≤ b → findCell y rest = none := fun y hy =>
      findCell_eq_none fun c hc => by have := hb c hc; simp only at this; omega
    simp only [putCell]
    split
    · rename_i hab
      by_cases hx : x = a
      · subst hx
        cases keep
        · simp [findCell, hnone x (by omega)]; omega
        · simp [findCell]
      · cases keep <;> simp [findCell, hx, eq_comm (a := a)]
    · split
      · rename_i hab; subst hab
        by_cases hx : x = a
        · subst hx
          cases keep <;> simp [findCell, hnone]
        · cases keep <;> simp [findCell, hx, eq_comm (a := a)]
      · rename_i h1 h2
        simp only [findCell, ih hr]
        by_cases hx : x = a
        · subst hx
          simp [Ne.symm h2]
        · simp [hx]

/-- Every memory write keeps the canonical form. -/
theorem Memory.write_wf {m : Memory} (h : m.wf) (a : Nat) (v : Byte) : (m.write a v).wf := by
  refine ⟨putCell_rising h.1, fun c hc => ?_⟩
  rcases mem_putCell hc with hc | ⟨hk, rfl⟩
  · exact h.2 c hc
  · simpa [Memory.unlisted, Memory.write] using hk

@[simp] theorem Memory.write_init (m : Memory) (a : Nat) (v : Byte) : (m.write a v).init = m.init := rfl

@[simp] theorem Memory.write_unlisted (m : Memory) (a : Nat) (v : Byte) (x : Nat) :
    (m.write a v).unlisted x = m.unlisted x := rfl

/-- A read after a write. -/
theorem Memory.read_write {m : Memory} (h : m.wf) (a : Nat) (v : Byte) (x : Nat) :
    (m.write a v).read x = if x = a then v else m.read x := by
  have hf := findCell_putCell (a := a) (v := v) (keep := decide (v ≠ m.unlisted a)) h.1 x
  unfold Memory.read
  rw [show (m.write a v).cells = putCell a v (decide (v ≠ m.unlisted a)) m.cells from rfl, hf]
  by_cases hx : x = a
  · subst hx
    by_cases hv : v = m.unlisted x <;> simp [hv]
  · simp [hx]

/-- The memory of the reset state is canonical: it lists nothing. -/
theorem resetWith_fb_wf (c : Params) : (State.resetWith c).fb.wf := by
  simp [State.resetWith, Memory.wf]

/-- A byte that is found is listed. -/
theorem findCell_mem {a : Nat} {v : Byte} {cells : List Host.Cell} (h : findCell a cells = some v) : (a, v) ∈ cells := by
  induction cells with
  | nil => simp [findCell] at h
  | cons c rest ih =>
    obtain ⟨b, w⟩ := c
    simp only [findCell] at h
    split at h
    · rename_i hb; subst hb; cases h; simp
    · exact List.mem_cons_of_mem _ (ih h)

end Sys2Proof.Machine
end

