-- ==== Sys2Proof/Laws/PerInstr.lean ====
section
/-!
SUPPORT. The opcode table row by row: the first byte of an instruction's encoding matches the row it stands for.
-/

namespace Sys2Proof

/-- The first byte of the encoding, under the row's mask, is the row's match value (spec/opcode_table.json). -/
def Laws.TableRow.Statement (i : Instr) : Prop :=
  ∃ b rest, encode i = b :: rest ∧ b &&& i.row.1 = i.row.2

/-- A byte that is written out. -/
theorem Laws.TableRow.fixed {i : Instr} {b : Byte} {rest : List Byte} (h : encode i = b :: rest)
    (hm : i.row.1 = 0xFF) (hb : i.row.2 = b) : Laws.TableRow.Statement i :=
  ⟨b, rest, h, by rw [hm, hb]; exact BitVec.and_allOnes⟩

theorem Laws.TableRow.configure (c d f) : Laws.TableRow.Statement (.configure c d f) := Laws.TableRow.fixed rfl rfl rfl

theorem Laws.TableRow.start : Laws.TableRow.Statement .start := Laws.TableRow.fixed rfl rfl rfl

theorem Laws.TableRow.stop : Laws.TableRow.Statement .stop := Laws.TableRow.fixed rfl rfl rfl

theorem Laws.TableRow.writeByte (b) : Laws.TableRow.Statement (.writeByte b) := Laws.TableRow.fixed rfl rfl rfl

theorem Laws.TableRow.readByte (a) : Laws.TableRow.Statement (.readByte a) := Laws.TableRow.fixed rfl rfl rfl

theorem Laws.TableRow.write (a p) : Laws.TableRow.Statement (.write a p) := Laws.TableRow.fixed rfl rfl rfl

theorem Laws.TableRow.writeRegister (a r p) : Laws.TableRow.Statement (.writeRegister a r p) := Laws.TableRow.fixed rfl rfl rfl

theorem Laws.TableRow.initDisplay (a c d) : Laws.TableRow.Statement (.initDisplay a c d) := Laws.TableRow.fixed rfl rfl rfl

theorem Laws.TableRow.clear : Laws.TableRow.Statement .clear := Laws.TableRow.fixed rfl rfl rfl

theorem Laws.TableRow.flush : Laws.TableRow.Statement .flush := Laws.TableRow.fixed rfl rfl rfl

theorem Laws.TableRow.setPixel (x y on) : Laws.TableRow.Statement (.setPixel x y on) := Laws.TableRow.fixed rfl rfl rfl

theorem Laws.TableRow.drawGlyph (x y ch) : Laws.TableRow.Statement (.drawGlyph x y ch) := Laws.TableRow.fixed rfl rfl rfl

theorem Laws.TableRow.drawText (x y t) : Laws.TableRow.Statement (.drawText x y t) := Laws.TableRow.fixed rfl rfl rfl

theorem Laws.TableRow.fillRect (x y w h on) : Laws.TableRow.Statement (.fillRect x y w h on) := Laws.TableRow.fixed rfl rfl rfl

theorem Laws.TableRow.setContrast (l) : Laws.TableRow.Statement (.setContrast l) := Laws.TableRow.fixed rfl rfl rfl

theorem Laws.TableRow.setPower (on) : Laws.TableRow.Statement (.setPower on) := Laws.TableRow.fixed rfl rfl rfl

theorem Laws.TableRow.setInverted (on) : Laws.TableRow.Statement (.setInverted on) := Laws.TableRow.fixed rfl rfl rfl

theorem Laws.TableRow.setline (l v) : Laws.TableRow.Statement (.setline l v) := Laws.TableRow.fixed rfl rfl rfl

theorem Laws.TableRow.sample : Laws.TableRow.Statement .sample := Laws.TableRow.fixed rfl rfl rfl

theorem Laws.TableRow.delay : Laws.TableRow.Statement .delay := Laws.TableRow.fixed rfl rfl rfl

theorem Laws.TableRow.pinmode (id) : Laws.TableRow.Statement (.pinmode id) := Laws.TableRow.fixed rfl rfl rfl

theorem Laws.TableRow.powerupWait : Laws.TableRow.Statement .powerupWait := Laws.TableRow.fixed rfl rfl rfl

theorem Laws.TableRow.addrWrite (a) : Laws.TableRow.Statement (.addrWrite a) := ⟨_, _, rfl, by revert a; decide⟩

theorem Laws.TableRow.addrRead (a) : Laws.TableRow.Statement (.addrRead a) := ⟨_, _, rfl, by revert a; decide⟩

theorem Laws.TableRow.ctrlCommand : Laws.TableRow.Statement .ctrlCommand := Laws.TableRow.fixed rfl rfl rfl

theorem Laws.TableRow.ctrlDataStream : Laws.TableRow.Statement .ctrlDataStream := Laws.TableRow.fixed rfl rfl rfl

theorem Laws.TableRow.cmdsDisplayOff : Laws.TableRow.Statement .cmdsDisplayOff := Laws.TableRow.fixed rfl rfl rfl

theorem Laws.TableRow.cmdsSetClockDiv (p) : Laws.TableRow.Statement (.cmdsSetClockDiv p) := Laws.TableRow.fixed rfl rfl rfl

theorem Laws.TableRow.cmdsSetMultiplex (p) : Laws.TableRow.Statement (.cmdsSetMultiplex p) := Laws.TableRow.fixed rfl rfl rfl

theorem Laws.TableRow.cmdsSetDisplayOffset (p) : Laws.TableRow.Statement (.cmdsSetDisplayOffset p) := Laws.TableRow.fixed rfl rfl rfl

theorem Laws.TableRow.cmdsSetStartLine (l) : Laws.TableRow.Statement (.cmdsSetStartLine l) := ⟨_, _, rfl, by revert l; decide⟩

theorem Laws.TableRow.cmdsChargePump (p) : Laws.TableRow.Statement (.cmdsChargePump p) := Laws.TableRow.fixed rfl rfl rfl

theorem Laws.TableRow.cmdsSetAddrMode (p) : Laws.TableRow.Statement (.cmdsSetAddrMode p) := Laws.TableRow.fixed rfl rfl rfl

theorem Laws.TableRow.cmdsSegRemap (r) : Laws.TableRow.Statement (.cmdsSegRemap r) := ⟨_, _, rfl, by revert r; decide⟩

theorem Laws.TableRow.cmdsComScanDir (d) : Laws.TableRow.Statement (.cmdsComScanDir d) := ⟨_, _, rfl, by revert d; decide⟩

theorem Laws.TableRow.cmdsSetComPins (p) : Laws.TableRow.Statement (.cmdsSetComPins p) := Laws.TableRow.fixed rfl rfl rfl

theorem Laws.TableRow.cmdsSetContrast (p) : Laws.TableRow.Statement (.cmdsSetContrast p) := Laws.TableRow.fixed rfl rfl rfl

theorem Laws.TableRow.cmdsSetPrecharge (p) : Laws.TableRow.Statement (.cmdsSetPrecharge p) := Laws.TableRow.fixed rfl rfl rfl

theorem Laws.TableRow.cmdsSetVcomDetect (p) : Laws.TableRow.Statement (.cmdsSetVcomDetect p) := Laws.TableRow.fixed rfl rfl rfl

theorem Laws.TableRow.cmdsDisplayResume : Laws.TableRow.Statement .cmdsDisplayResume := Laws.TableRow.fixed rfl rfl rfl

theorem Laws.TableRow.cmdsNormalDisplay : Laws.TableRow.Statement .cmdsNormalDisplay := Laws.TableRow.fixed rfl rfl rfl

theorem Laws.TableRow.cmdsInvertDisplay : Laws.TableRow.Statement .cmdsInvertDisplay := Laws.TableRow.fixed rfl rfl rfl

theorem Laws.TableRow.cmdsDisplayOn : Laws.TableRow.Statement .cmdsDisplayOn := Laws.TableRow.fixed rfl rfl rfl

theorem Laws.TableRow.cmdsSetColumnAddr (p1 p2) : Laws.TableRow.Statement (.cmdsSetColumnAddr p1 p2) := Laws.TableRow.fixed rfl rfl rfl

theorem Laws.TableRow.cmdsSetPageAddr (p1 p2) : Laws.TableRow.Statement (.cmdsSetPageAddr p1 p2) := Laws.TableRow.fixed rfl rfl rfl

end Sys2Proof
end

