-- ==== Sys2Proof/Laws/Render.lean ====
section
/-!
SUPPORT. What each drawing function does, once, as a picture: which pixels it lights or darkens, that it touches no byte outside the
framebuffer, and that it keeps the canonical form.
-/

namespace Sys2Proof.Machine

/-- The part of R9 the geometry needs. -/
theorem configOk_geometry {c : Params} (h : configOk c = true) : c.height % 8 = 0 ∧ 1 ≤ c.width ∧ 8 ≤ c.height := by
  simp only [configOk, Bool.and_eq_true, beq_iff_eq, decide_eq_true_eq] at h
  tauto

theorem inBounds_iff {c : Params} {x y : Int} :
    inBounds c x y = true ↔ 0 ≤ x ∧ x < c.width ∧ 0 ≤ y ∧ y < c.height := by
  simp [inBounds, and_assoc]

/-- The index of an in-bounds pixel is a framebuffer index (R51, R53). -/
theorem pixelIndex_lt {c : Params} (hc : configOk c = true) {x y : Int} (h : inBounds c x y = true) :
    pixelIndex c x y < fbSize c := by
  obtain ⟨h8, hw, hh⟩ := configOk_geometry hc
  obtain ⟨h1, h2, h3, h4⟩ := inBounds_iff.1 h
  obtain ⟨k, hk⟩ : ∃ k, c.height = 8 * k := ⟨c.height / 8, by omega⟩
  have hx : x.toNat < c.width := by omega
  have hy : y.toNat / 8 + 1 ≤ k := by omega
  have hm : (y.toNat / 8 + 1) * c.width ≤ k * c.width := Nat.mul_le_mul_right _ hy
  have hs : fbSize c = k * c.width := by
    unfold fbSize
    rw [hk, show c.width * (8 * k) = 8 * (k * c.width) by ring, Nat.mul_div_cancel_left _ (by omega)]
  unfold pixelIndex
  rw [hs]
  rw [Nat.add_mul] at hm
  omega

/-- Two in-bounds pixels with one index and one bit are one pixel (R52). -/
theorem pixel_inj {c : Params} {x y px py : Int} (h : inBounds c x y = true) (k : inBounds c px py = true)
    (hi : pixelIndex c px py = pixelIndex c x y) (hb : py.toNat % 8 = y.toNat % 8) : px = x ∧ py = y := by
  obtain ⟨h1, h2, h3, h4⟩ := inBounds_iff.1 h
  obtain ⟨k1, k2, k3, k4⟩ := inBounds_iff.1 k
  unfold pixelIndex at hi
  have hw : 0 < c.width := by omega
  have e1 : (px.toNat + py.toNat / 8 * c.width) / c.width = py.toNat / 8 := by
    rw [Nat.add_mul_div_right _ _ hw, Nat.div_eq_of_lt (by omega)]; omega
  have e2 : (x.toNat + y.toNat / 8 * c.width) / c.width = y.toNat / 8 := by
    rw [Nat.add_mul_div_right _ _ hw, Nat.div_eq_of_lt (by omega)]; omega
  have e3 : (px.toNat + py.toNat / 8 * c.width) % c.width = px.toNat := by
    rw [Nat.add_mul_mod_self_right, Nat.mod_eq_of_lt (by omega)]
  have e4 : (x.toNat + y.toNat / 8 * c.width) % c.width = x.toNat := by
    rw [Nat.add_mul_mod_self_right, Nat.mod_eq_of_lt (by omega)]
  rw [hi] at e1 e3
  omega

/-! ## SET_PIXEL -/

theorem setPixelFb_wf {m : Memory} (h : m.wf) (c : Params) (x y : Int) (on : Bool) : (setPixelFb c x y on m).wf := by
  unfold setPixelFb
  split
  · exact Memory.write_wf h _ _
  · exact h

theorem setPixelFb_init (c : Params) (x y : Int) (on : Bool) (m : Memory) : (setPixelFb c x y on m).init = m.init := by
  unfold setPixelFb
  split <;> rfl

/-- SET_PIXEL byte by byte (R202): the addressed byte with the one bit set or cleared; every other byte as it was. -/
theorem setPixelFb_read {m : Memory} (h : m.wf) (c : Params) (x y : Int) (on : Bool) (a : Nat) :
    (setPixelFb c x y on m).read a =
      if inBounds c x y = true ∧ a = pixelIndex c x y then
        (if on then m.read a ||| pixelMask y else m.read a &&& ~~~pixelMask y)
      else m.read a := by
  unfold setPixelFb
  by_cases hb : inBounds c x y = true
  · simp only [hb, if_true, true_and]
    rw [Memory.read_write h]
    split
    · rename_i ha; subst ha; rfl
    · rfl
  · simp [hb]

theorem pixelMask_getLsbD (y : Int) {i : Nat} (hi : i < 8) : (pixelMask y).getLsbD i = decide (i = y.toNat % 8) := by
  unfold pixelMask
  have hm : y.toNat % 8 < 8 := Nat.mod_lt _ (by omega)
  generalize y.toNat % 8 = k at hm
  interval_cases k <;> interval_cases i <;> decide

/-- SET_PIXEL as a picture: that one pixel, if it is in bounds. -/
theorem setPixelFb_lit {m : Memory} (h : m.wf) {c : Params} {px py : Int} (hp : inBounds c px py = true)
    (x y : Int) (on : Bool) :
    pixelLit c (setPixelFb c x y on m) px py = if px = x ∧ py = y then on else pixelLit c m px py := by
  unfold pixelLit
  rw [setPixelFb_read h]
  have hm : py.toNat % 8 < 8 := Nat.mod_lt _ (by omega)
  by_cases hxy : px = x ∧ py = y
  · obtain ⟨rfl, rfl⟩ := hxy
    simp only [hp, and_self, if_true]
    cases on <;> simp [pixelMask_getLsbD _ hm, hm]
  · rw [if_neg hxy]
    by_cases hc : inBounds c x y = true ∧ pixelIndex c px py = pixelIndex c x y
    · rw [if_pos hc]
      have hb : ¬ py.toNat % 8 = y.toNat % 8 := fun hb => hxy (pixel_inj hc.1 hp hc.2 hb)
      have hk : (pixelMask y).getLsbD (py.toNat % 8) = false := by rw [pixelMask_getLsbD y hm]; exact decide_eq_false hb
      cases on
      · simp only [Bool.false_eq_true, if_false, BitVec.getLsbD_and, BitVec.getLsbD_not, hk]; simp [hm]
      · simp only [if_true, BitVec.getLsbD_or, hk, Bool.or_false]
    · rw [if_neg hc]

/-- SET_PIXEL touches no byte outside the framebuffer. -/
theorem setPixelFb_outside {m : Memory} (h : m.wf) {c : Params} (hc : configOk c = true) (x y : Int) (on : Bool) {a : Nat}
    (ha : fbSize c ≤ a) : (setPixelFb c x y on m).read a = m.read a := by
  rw [setPixelFb_read h, if_neg]
  rintro ⟨hb, rfl⟩
  have := pixelIndex_lt hc hb
  omega

/-! ## Drawing in steps -/

/-- A drawing: it keeps the canonical form and the reset bytes, leaves every byte outside the framebuffer, and turns each in-bounds
pixel into what `f` says. -/
structure Draws (c : Params) (m n : Memory) (f : Int → Int → Bool → Bool) : Prop where
  wf      : n.wf
  init    : n.init = m.init
  lit     : ∀ px py, inBounds c px py = true → pixelLit c n px py = f px py (pixelLit c m px py)
  outside : configOk c = true → ∀ a, fbSize c ≤ a → n.read a = m.read a

theorem Draws.refl {m : Memory} (h : m.wf) (c : Params) : Draws c m m fun _ _ b => b :=
  ⟨h, rfl, fun _ _ _ => rfl, fun _ _ _ => rfl⟩

theorem Draws.trans {c : Params} {m n o : Memory} {f g : Int → Int → Bool → Bool} (h : Draws c m n f) (k : Draws c n o g) :
    Draws c m o fun x y b => g x y (f x y b) :=
  ⟨k.wf, k.init.trans h.init, fun px py hp => by rw [k.lit px py hp, h.lit px py hp],
    fun hc a ha => by rw [k.outside hc a ha, h.outside hc a ha]⟩

theorem Draws.congr {c : Params} {m n : Memory} {f g : Int → Int → Bool → Bool} (h : Draws c m n f)
    (e : ∀ x y b, f x y b = g x y b) : Draws c m n g :=
  ⟨h.wf, h.init, fun px py hp => by rw [h.lit px py hp, e], h.outside⟩

theorem setPixelFb_draws {m : Memory} (h : m.wf) (c : Params) (x y : Int) (on : Bool) :
    Draws c m (setPixelFb c x y on m) fun px py b => if px = x ∧ py = y then on else b :=
  ⟨setPixelFb_wf h c x y on, setPixelFb_init c x y on m, fun _ _ hp => setPixelFb_lit h hp x y on, fun hc _ ha => setPixelFb_outside h hc x y on ha⟩

/-! ## Drawing on the state: only the framebuffer and the working registers change (R213, R24) -/

/-- Everything a drawing does to the state, with the picture it makes. -/
structure Drawn (s t : State) (f : Int → Int → Bool → Bool) : Prop where
  rest  : ∃ w, t = { s with fb := t.fb, work := w }
  draws : s.fb.wf → Draws s.cfg s.fb t.fb f

theorem Drawn.cfg {s t : State} {f : Int → Int → Bool → Bool} (h : Drawn s t f) : t.cfg = s.cfg := by
  obtain ⟨w, e⟩ := h.rest
  rw [e]

theorem Drawn.refl (s : State) : Drawn s s fun _ _ b => b := ⟨⟨s.work, rfl⟩, fun h => Draws.refl h s.cfg⟩

theorem Drawn.trans {s t u : State} {f g : Int → Int → Bool → Bool} (h : Drawn s t f) (k : Drawn t u g) :
    Drawn s u fun x y b => g x y (f x y b) := by
  obtain ⟨w, e⟩ := h.rest
  obtain ⟨v, d⟩ := k.rest
  have hc := h.cfg
  refine ⟨⟨v, by rw [d, e]⟩, fun hw => (h.draws hw).trans ?_⟩
  rw [← hc]
  exact k.draws (h.draws hw).wf

theorem Drawn.congr {s t : State} {f g : Int → Int → Bool → Bool} (h : Drawn s t f) (e : ∀ x y b, f x y b = g x y b) :
    Drawn s t g := ⟨h.rest, fun hw => (h.draws hw).congr e⟩

/-- A working register written before the drawing is no part of the picture. -/
theorem Drawn.before {s t : State} {w : Work} {f : Int → Int → Bool → Bool} (h : Drawn { s with work := w } t f) : Drawn s t f :=
  ⟨h.rest, h.draws⟩

/-- A working register written after the drawing is no part of the picture. -/
theorem Drawn.after {s t : State} {f : Int → Int → Bool → Bool} (h : Drawn s t f) (w : Work) : Drawn s { t with work := w } f := by
  obtain ⟨v, e⟩ := h.rest
  exact ⟨⟨w, by rw [e]⟩, h.draws⟩

/-- A drawing operation of the host changes the framebuffer and nothing else: its working registers are put away (R24). -/
theorem Drawn.returned {c : Byte} {s t : State} {f : Int → Int → Bool → Bool} (h : Drawn (beginOp c s) t f) :
    RenderFrame s (returnOp none t) ∧ (s.fb.wf → Draws s.cfg s.fb (returnOp none t).fb f) := by
  obtain ⟨w, e⟩ := h.rest
  refine ⟨?_, h.draws⟩
  rw [e]
  exact ⟨rfl, rfl, rfl, rfl, rfl, rfl, rfl, rfl, rfl, rfl, rfl, rfl, rfl, rfl, rfl⟩

theorem setPixel_drawn (x y : Int) (on : Bool) (s : State) :
    Drawn s (setPixel x y on s) fun px py b => if px = x ∧ py = y then on else b :=
  ⟨⟨s.work, rfl⟩, fun h => setPixelFb_draws h s.cfg x y on⟩

/-! ## FILL_RECT (R211) -/

theorem fillRow_drawn (x y : Int) (on : Bool) (n dx : Nat) (s : State) :
    Drawn s (fillRow x y on n dx s) fun px py b => if x + dx ≤ px ∧ px < x + dx + n ∧ py = y then on else b := by
  induction n generalizing dx s with
  | zero => exact (Drawn.refl s).congr fun px py b => by rw [if_neg (by omega)]
  | succ n ih =>
    have k : Drawn s (setPixel (x + dx) y on (setDx dx s)) _ := (setPixel_drawn (x + dx) y on (setDx dx s)).before
    refine (k.trans (ih (dx + 1) _)).congr fun px py b => ?_
    by_cases h1 : px = x + dx ∧ py = y
    · rw [if_pos h1, ite_self, if_pos (by omega)]
    · rw [if_neg h1]
      push_cast
      congr 1
      apply propext
      omega

theorem fillRows_drawn (x y : Int) (w : Nat) (on : Bool) (n dy : Nat) (s : State) :
    Drawn s (fillRows x y w on n dy s) fun px py b =>
      if x ≤ px ∧ px < x + w ∧ y + dy ≤ py ∧ py < y + dy + n then on else b := by
  induction n generalizing dy s with
  | zero => exact (Drawn.refl s).congr fun px py b => by rw [if_neg (by omega)]
  | succ n ih =>
    have k : Drawn s (fillRow x (y + dy) on w 0 (setDy dy s)) _ := (fillRow_drawn x (y + dy) on w 0 (setDy dy s)).before
    refine (k.trans (ih (dy + 1) _)).congr fun px py b => ?_
    push_cast
    by_cases h1 : x + 0 ≤ px ∧ px < x + 0 + w ∧ py = y + dy
    · rw [if_pos h1, ite_self, if_pos (by omega)]
    · rw [if_neg h1]
      congr 1
      apply propext
      omega

/-- FILL_RECT as a picture: every pixel of the rectangle is `on`, every other one as it was. -/
theorem fillRect_drawn (x y w k : Int) (on : Bool) (s : State) :
    Drawn s (fillRect x y w k on s) fun px py b => if inRect x y w k px py then on else b := by
  refine (fillRows_drawn x y w.toNat on k.toNat 0 s).congr fun px py b => ?_
  congr 1
  simp only [inRect, Bool.and_eq_true, decide_eq_true_eq]
  apply propext
  omega

/-! ## DRAW_GLYPH (R205) -/

theorem drawGlyphRows_drawn (x y : Int) (g : Byte) (rows : List Nat) (s : State) :
    Drawn s (drawGlyphRows x y g rows s)
      fun px py b => b || (decide (px = x) && rows.any fun (row : Nat) => decide (py = y + row) && g.getLsbD row) := by
  induction rows generalizing s with
  | nil => exact (Drawn.refl s).congr fun px py b => by simp
  | cons row rows ih =>
    unfold drawGlyphRows at ih ⊢
    rw [List.foldl_cons]
    by_cases hg : g.getLsbD row = true
    · rw [if_pos hg]
      have k : Drawn s (setPixel x (y + row) true (setRow row s)) _ := (setPixel_drawn x (y + row) true (setRow row s)).before
      refine (k.trans (ih _)).congr fun px py b => ?_
      rw [List.any_cons, hg]
      by_cases h1 : px = x <;> by_cases h2 : py = y + row <;> simp [h1, h2]
    · rw [if_neg hg]
      refine Drawn.congr (Drawn.before (ih (setRow row s))) fun px py b => ?_
      rw [List.any_cons]
      simp [hg]

/-- One glyph column as a picture: bit r of its byte is the pixel r rows down, for the seven rows. -/
theorem drawGlyphColumn_drawn (x y : Int) (g : Byte) (s : State) :
    Drawn s (drawGlyphRows x y g (List.range 7) s) fun px py b =>
      b || (decide (px = x) && (decide (y ≤ py) && decide (py < y + 7) && g.getLsbD (py - y).toNat)) := by
  refine (drawGlyphRows_drawn x y g (List.range 7) s).congr fun px py b => ?_
  congr 2
  rw [Bool.eq_iff_iff]
  simp only [List.any_eq_true, List.mem_range, Bool.and_eq_true, decide_eq_true_eq]
  constructor
  · rintro ⟨row, hr, rfl, hg⟩
    refine ⟨⟨by omega, by omega⟩, ?_⟩
    rwa [show (y + (row : Int) - y).toNat = row by omega]
  · rintro ⟨⟨h1, h2⟩, hg⟩
    exact ⟨(py - y).toNat, by omega, by omega, hg⟩

theorem drawGlyphCols_drawn (x y : Int) (e : Nat) (cols : List Nat) (s : State) :
    Drawn s (drawGlyphCols x y e cols s)
      fun px py b => b || cols.any fun (col : Nat) => decide (px = x + col) &&
        (decide (y ≤ py) && decide (py < y + 7) && (glyphColumn s.cfg e col).getLsbD (py - y).toNat) := by
  induction cols generalizing s with
  | nil => exact (Drawn.refl s).congr fun px py b => by simp
  | cons col cols ih =>
    unfold drawGlyphCols at ih ⊢
    rw [List.foldl_cons]
    have k : Drawn s (drawGlyphRows (x + col) y (glyphColumn s.cfg e col) (List.range 7) (setCol col s)) _ :=
      (drawGlyphColumn_drawn (x + col) y (glyphColumn s.cfg e col) (setCol col s)).before
    refine (k.trans (ih _)).congr fun px py b => ?_
    rw [List.any_cons, Bool.or_assoc, k.cfg]

/-- DRAW_GLYPH as a picture: the pixels under set glyph bits are lit, every other one is as it was (R206). -/
theorem drawGlyph_drawn (x y : Int) (ch : Word) (s : State) :
    Drawn s (drawGlyph x y ch s) fun px py b => b || underGlyph s.cfg x y ch px py := by
  refine (drawGlyphCols_drawn x y (glyphEntry s.cfg ch) (List.range 5) s).congr fun px py b => ?_
  congr 1
  rw [Bool.eq_iff_iff]
  simp only [underGlyph, List.any_eq_true, List.mem_range, Bool.and_eq_true, decide_eq_true_eq]
  constructor
  · rintro ⟨col, hc, rfl, ⟨h1, h2⟩, hg⟩
    refine ⟨⟨⟨⟨by omega, by omega⟩, h1⟩, h2⟩, ?_⟩
    rwa [show (x + (col : Int) - x).toNat = col by omega]
  · rintro ⟨⟨⟨⟨h1, h2⟩, h3⟩, h4⟩, hg⟩
    exact ⟨(px - x).toNat, by omega, by omega, ⟨h3, h4⟩, hg⟩

/-! ## DRAW_TEXT (R208) -/

theorem drawTextFrom_drawn (x : Int) (k : Nat) (text : List Word) (cx cy : Int) (s : State) :
    Drawn s (drawTextFrom x k text cx cy s) fun px py b =>
      b || (textCells s.cfg x text cx cy).any fun cell => underGlyph s.cfg cell.1 cell.2.1 cell.2.2 px py := by
  induction text generalizing k cx cy s with
  | nil => exact (Drawn.refl s).congr fun px py b => by simp [textCells]
  | cons ch rest ih =>
    unfold drawTextFrom textCells
    by_cases hn : ch = s.cfg.newline
    · rw [if_pos hn, if_pos hn]
      exact Drawn.before (s := s) (ih (k + 1) x (cy + 8) (setCursor x (cy + 8) (setK k s)))
    · rw [if_neg hn, if_neg hn]
      by_cases hw : cx + 6 > s.cfg.width
      · rw [if_pos hw, if_pos (by simpa [wraps] using hw)]
        have d : Drawn s (setCursor (x + 6) (cy + 8) (drawGlyph x (cy + 8) ch (setCursor x (cy + 8) (setK k s))))
            fun px py b => b || underGlyph s.cfg x (cy + 8) ch px py :=
          (Drawn.before (s := s) (drawGlyph_drawn x (cy + 8) ch (setCursor x (cy + 8) (setK k s)))).after _
        exact (d.trans (ih (k + 1) (x + 6) (cy + 8) _)).congr fun px py b => by rw [d.cfg, List.any_cons, Bool.or_assoc]
      · rw [if_neg hw, if_neg (by simpa [wraps] using hw)]
        have d : Drawn s (setCursor (cx + 6) cy (drawGlyph cx cy ch (setK k s))) fun px py b => b || underGlyph s.cfg cx cy ch px py :=
          (Drawn.before (s := s) (drawGlyph_drawn cx cy ch (setK k s))).after _
        exact (d.trans (ih (k + 1) (cx + 6) cy _)).congr fun px py b => by rw [d.cfg, List.any_cons, Bool.or_assoc]

/-- DRAW_TEXT as a picture: the glyph of each text cell is drawn at that cell. -/
theorem drawText_drawn (x y : Int) (text : List Word) (s : State) :
    Drawn s (drawText x y text s) fun px py b =>
      b || (textCells s.cfg x text x y).any fun cell => underGlyph s.cfg cell.1 cell.2.1 cell.2.2 px py :=
  Drawn.before (drawTextFrom_drawn x 0 text x y (setCursor x y s))

/-! ## CLEAR (R200) -/

theorem clearTo_spec (n : Nat) {m : Memory} (h : m.wf) :
    ((List.range n).foldl (fun m i => m.write i 0) m).wf ∧
      ∀ a, ((List.range n).foldl (fun m i => m.write i 0) m).read a = if a < n then 0 else m.read a := by
  induction n with
  | zero => exact ⟨h, fun a => by simp⟩
  | succ n ih =>
    rw [List.range_succ, List.foldl_append]
    refine ⟨Memory.write_wf ih.1 _ _, fun a => ?_⟩
    simp only [List.foldl_cons, List.foldl_nil]
    rw [Memory.read_write ih.1, ih.2 a]
    by_cases h1 : a = n
    · simp [h1]
    · by_cases h2 : a < n
      · simp [h1, h2]; omega
      · simp [h1, h2]; omega

theorem clearFb_init (c : Params) (m : Memory) : (clearFb c m).init = m.init := by
  unfold clearFb
  induction fbSize c with
  | zero => rfl
  | succ n ih => rw [List.range_succ, List.foldl_append]; exact ih

theorem clearFb_wf {m : Memory} (h : m.wf) (c : Params) : (clearFb c m).wf := (clearTo_spec (fbSize c) h).1

/-- CLEAR: every framebuffer byte reads 0, every other address as before. -/
theorem clearFb_read {m : Memory} (h : m.wf) (c : Params) (a : Nat) :
    (clearFb c m).read a = if a < fbSize c then 0 else m.read a := (clearTo_spec (fbSize c) h).2 a

/-! ## The overflow test (R204) -/

/-- A coordinate is at least the least signed 32-bit number. -/
theorem coord_ge (x : Word) : -2147483648 ≤ x.toInt := by
  have := BitVec.le_toInt x
  simpa using this

/-- No sum of the glyph leaves the range: no overflow. -/
theorem glyph_not_overflows {c : Params} {x y : Int} {ch : Word} (h : ∀ v, GlyphSum c x y ch v → InRange v) :
    glyphOverflows c x y ch = false := by
  unfold glyphOverflows glyphBitOverflows
  simp only [Bool.and_eq_false_iff]
  right
  simp only [List.any_eq_false, List.mem_range]
  intro col hc hh
  simp only [List.any_eq_true, List.mem_range, Bool.and_eq_true, Bool.not_eq_true', Bool.and_eq_false_iff, sumFits, decide_eq_false_iff_not] at hh
  obtain ⟨row, hr, hg, hv⟩ := hh
  rcases hv with hv | hv
  · exact hv (h _ ⟨col, row, hc, hr, hg, .inl rfl⟩).2
  · exact hv (h _ ⟨col, row, hc, hr, hg, .inr rfl⟩).2

/-- A sum of the glyph leaves the range: an overflow. -/
theorem glyph_overflows {c : Params} {x y : Int} {ch : Word} {v : Int} (hx : -2147483648 ≤ x) (hy : -2147483648 ≤ y)
    (h : GlyphSum c x y ch v) (hv : ¬ InRange v) : glyphOverflows c x y ch = true := by
  obtain ⟨col, row, hc, hr, hg, e⟩ := h
  have hb : 2147483647 < v := by unfold InRange at hv; omega
  unfold glyphOverflows glyphBitOverflows
  simp only [Bool.and_eq_true, Bool.not_eq_true', Bool.and_eq_false_iff, sumFits, decide_eq_false_iff_not, List.any_eq_true, List.mem_range]
  refine ⟨by omega, col, hc, row, hr, hg, by omega⟩

theorem text_not_overflows {c : Params} {x : Int} {text : List Word} {cx cy : Int} (h : ∀ v, TextSum c x text cx cy v → InRange v) :
    textOverflows c x text cx cy = false := by
  induction text generalizing cx cy with
  | nil => rfl
  | cons ch rest ih =>
    unfold textOverflows
    unfold TextSum at h
    by_cases hn : ch = c.newline
    · simp only [hn, if_true] at h ⊢
      rw [ih fun v hv => h v (.inr hv)]
      have := (h _ (.inl rfl)).2
      simp [sumFits, this]
    · simp only [hn, if_false] at h ⊢
      have h0 := (h _ (.inl rfl)).2
      by_cases hw : cx + 6 > c.width
      · simp only [hw, if_true] at h
        have hw' : wraps c cx = true := by simpa [wraps] using hw
        rw [if_pos hw', ih fun v hv => h v (.inr (.inr (.inr (.inr hv)))), glyph_not_overflows fun v hv => h v (.inr (.inr (.inl hv)))]
        have h1 := (h _ (.inr (.inl rfl))).2
        have h2 := (h _ (.inr (.inr (.inr (.inl rfl))))).2
        simp [sumFits, h0, h1, h2]
      · simp only [hw, if_false] at h
        have hw' : ¬ wraps c cx = true := by simpa [wraps] using hw
        rw [if_neg hw', ih fun v hv => h v (.inr (.inr hv)), glyph_not_overflows fun v hv => h v (.inr (.inl hv))]
        simp [sumFits, h0]

theorem text_overflows {c : Params} {x : Int} {text : List Word} {cx cy v : Int} (hx : -2147483648 ≤ x)
    (hcx : -2147483648 ≤ cx) (hcy : -2147483648 ≤ cy)
    (h : TextSum c x text cx cy v) (hv : ¬ InRange v) : textOverflows c x text cx cy = true := by
  have hb : ∀ u, -2147483648 ≤ u → v = u → sumFits u = false := by
    rintro u hu rfl; unfold InRange at hv; simp [sumFits]; omega
  induction text generalizing cx cy with
  | nil => exact h.elim
  | cons ch rest ih =>
    unfold textOverflows
    unfold TextSum at h
    by_cases hn : ch = c.newline
    · simp only [hn, if_true] at h ⊢
      rcases h with h | h
      · rw [hb _ (by omega) h]; rfl
      · rw [ih hx (by omega) h]; simp
    · simp only [hn, if_false] at h ⊢
      rcases h with h | h
      · rw [hb _ (by omega) h]; rfl
      · by_cases hw : cx + 6 > c.width
        · simp only [hw, if_true] at h
          have hw' : wraps c cx = true := by simpa [wraps] using hw
          rw [if_pos hw']
          rcases h with h | h | h | h
          · rw [hb _ (by omega) h]; simp
          · rw [glyph_overflows hx (by omega) h hv]; simp
          · rw [hb _ (by omega) h]; simp
          · rw [ih (by omega) (by omega) h]; simp
        · simp only [hw, if_false] at h
          have hw' : ¬ wraps c cx = true := by simpa [wraps] using hw
          rw [if_neg hw']
          rcases h with h | h
          · rw [glyph_overflows hcx hcy h hv]; simp
          · rw [ih (by omega) (by omega) h]; simp

theorem rect_not_overflows {x y w h : Int} (k : ∀ v, RectSum x y w h v → InRange v) : rectOverflows x y w h = false := by
  unfold rectOverflows
  by_cases hw : 0 < w
  · by_cases hh : 0 < h
    · have h1 := (k _ ⟨w - 1, h - 1, by omega, by omega, by omega, by omega, .inl rfl⟩).2
      have h2 := (k _ ⟨w - 1, h - 1, by omega, by omega, by omega, by omega, .inr rfl⟩).2
      simp [sumFits, h1, h2]
    · simp [hh]
  · simp [hw]

theorem rect_overflows {x y w h v : Int} (hx : -2147483648 ≤ x) (hy : -2147483648 ≤ y) (k : RectSum x y w h v)
    (hv : ¬ InRange v) : rectOverflows x y w h = true := by
  obtain ⟨dx, dy, a, b, c, d, e⟩ := k
  have hb : 2147483647 < v := by unfold InRange at hv; omega
  simp only [rectOverflows, sumFits, Bool.and_eq_true, decide_eq_true_eq, Bool.not_eq_true', Bool.and_eq_false_iff, decide_eq_false_iff_not]
  omega

/-- The guard of R204 lets through exactly the requests without an overflow. -/
theorem overflowGuard_none {b : Bool} : overflowGuard b = none ↔ b = false := by cases b <;> simp [overflowGuard]

end Sys2Proof.Machine
end

