-- ==== Sys2Proof/Laws/Step.lean ====
section
/-!
SUPPORT. INITIALIZE's body once, and everything an instruction and a step can do to the state, by kind: a run on the bus, CONFIGURE,
INITIALIZE, a drawing. Invariants are proved from these, with no meaning unfolded again.
-/

namespace Sys2Proof.Machine

/-! ## INITIALIZE (R163) -/

/-- What INITIALIZE's body leaves. -/
structure InitializedBy (s t : State) (a : Addr7) (c d : Nat) (events : List Event) : Prop where
  record      : Recorded s t events
  dispAddr    : t.dispAddr = .written a
  sclId       : t.sclId = .written c
  sdaId       : t.sdaId = .written d
  delay       : t.delay = .written (delayConstant s.cfg s.cfg.displayBusHz)
  configured  : t.configured = true
  initialized : t.initialized = true
  fb          : t.fb = clearFb s.cfg s.fb
  cfg         : t.cfg = s.cfg
  host        : t.host = s.host
  idle        : BusIdleAfter t

theorem fbBytes_clearFb {c : Params} {m : Memory} (h : m.wf) : fbBytes c (clearFb c m) = List.replicate (fbSize c) 0 := by
  apply List.ext_getElem
  · simp [fbBytes]
  · intro n h1 h2
    have hn : n < fbSize c := by simpa [fbBytes] using h1
    simp [fbBytes, clearFb_read h, hn]

theorem initializeBody_spec (a : Addr7) (c d : Nat) (s : State) :
    ∃ (ackss : List (List Level)) (acks : List Level) (txns : List (List Byte × List Level)),
      txns = ((initSeq s.cfg ++ windowSeq s.cfg).map (cmdBytes a)).zip ackss
          ++ [((a ++ 0#1) :: 0x40 :: fbBytes s.cfg (clearFb s.cfg s.fb), acks)]
        ∧ ackss.length = 31 ∧ (∀ x ∈ txns, stopsAtNak x.1 x.2 = true)
        ∧ InitializedBy s (initializeBody a c d s) a c d (configureTrace c d ++ [.powerupWait] ++ txnsTrace txns) := by
  obtain ⟨s1, e1⟩ : ∃ s1, s1 = configureBody c d s.cfg.displayBusHz { s with dispAddr := .written a } := ⟨_, rfl⟩
  have h1 := configureBody_configured c d s.cfg.displayBusHz { s with dispAddr := .written a }
  rw [← e1] at h1
  have h2 := powerupWaitOp_ends s1
  obtain ⟨ackss1, hl1, h3⟩ := sendCmds_txns (a := a) (initSeq s.cfg) (s := powerupWaitOp s1) (by rw [h2.dispAddr, h1.dispAddr])
  obtain ⟨s3, e3⟩ : ∃ s3, s3 = sendCmds (initSeq s.cfg) (powerupWaitOp s1) := ⟨_, rfl⟩
  rw [← e3] at h3
  have c3 : s3.cfg = s.cfg := by rw [h3.cfg, h2.cfg, h1.cfg]
  obtain ⟨s4, e4⟩ : ∃ s4, s4 = { s3 with fb := clearFb s.cfg s.fb } := ⟨_, rfl⟩
  have c4 : s4.cfg = s.cfg := by rw [e4]; exact c3
  have f4 : s4.fb = clearFb s.cfg s.fb := by rw [e4]
  obtain ⟨ackss2, acks, hl2, h4⟩ := flushBody_txns (a := a) (s := s4) (by rw [e4, h3.dispAddr, h2.dispAddr, h1.dispAddr])
  rw [c4, f4] at h4
  have e : initializeBody a c d s = { flushBody s4 with initialized := true } := by
    have hf : s3.fb = s.fb := by rw [h3.fb, h2.fb, h1.fb]
    have hc1 : s1.cfg = s.cfg := h1.cfg
    rw [e4, ← hf, ← c3, e3, e1]
    unfold initializeBody
    dsimp only
    rw [← e1, show (powerupWaitOp s1).cfg = s.cfg from hc1]
  have hlen : ackss1.length = ((initSeq s.cfg).map (cmdBytes a)).length := by rw [hl1, List.length_map]
  have r3 := (h1.record.trans h1.cfg h2.toRecorded).trans (by rw [h2.cfg, h1.cfg]) h3.toRecorded
  have r4 := (show Recorded _ s4 _ by rw [e4]; exact ⟨r3.trace, r3.env, r3.drawn, r3.port⟩).trans c4 h4.toRecorded
  have hi := h4.idle (by simp)
  have et : txnsTrace (((initSeq s.cfg).map (cmdBytes a)).zip ackss1) ++ txnsTrace (((windowSeq s.cfg).map (cmdBytes a)).zip ackss2
        ++ [((a ++ 0#1) :: 0x40 :: fbBytes s.cfg (clearFb s.cfg s.fb), acks)])
      = txnsTrace (((initSeq s.cfg ++ windowSeq s.cfg).map (cmdBytes a)).zip (ackss1 ++ ackss2)
        ++ [((a ++ 0#1) :: 0x40 :: fbBytes s.cfg (clearFb s.cfg s.fb), acks)]) := by
    rw [List.map_append, List.zip_append hlen.symm]
    simp [txnsTrace]
  refine ⟨ackss1 ++ ackss2, acks, _, rfl, by rw [List.length_append, hl1, hl2]; rfl, fun x hx => ?_, ?_⟩
  · rw [List.map_append, List.zip_append hlen.symm, List.append_assoc] at hx
    exact (List.mem_append.1 hx).elim (h3.acked x) (h4.acked x)
  · rw [e, ← et, ← List.append_assoc]
    exact { record := ⟨r4.trace, r4.env, r4.drawn, r4.port⟩
            dispAddr := by rw [h4.dispAddr, e4, h3.dispAddr, h2.dispAddr, h1.dispAddr]
            sclId := by rw [h4.sclId, e4, h3.sclId, h2.sclId, h1.sclId]
            sdaId := by rw [h4.sdaId, e4, h3.sdaId, h2.sdaId, h1.sdaId]
            delay := by rw [h4.delay, e4, h3.delay, h2.delay, h1.delay]
            configured := by rw [h4.configured, e4, h3.configured, h2.configured, h1.configured]
            initialized := rfl
            fb := h4.fb.trans f4
            cfg := h4.cfg.trans c4
            host := by rw [h4.host, e4, h3.host, h2.host, h1.host]
            idle := ⟨⟨hi.released.1, hi.released.2⟩, hi.inTxn⟩ }

/-! ## The kinds of effect -/

/-- What a drawing does to the framebuffer, without the picture. -/
def Drew (s t : State) : Prop :=
  s.fb.wf → t.fb.wf ∧ t.fb.init = s.fb.init
    ∧ (configOk s.cfg = true → ∀ n, fbSize s.cfg ≤ n → t.fb.read n = s.fb.read n)

theorem Draws.drew {s t : State} {f : Int → Int → Bool → Bool} (h : s.fb.wf → Draws s.cfg s.fb t.fb f) : Drew s t :=
  fun hw => ⟨(h hw).wf, (h hw).init, (h hw).outside⟩

/-- What a drawing operation of the host leaves. -/
theorem Drawn.drew {c : Byte} {s t : State} {f : Int → Int → Bool → Bool} (h : Drawn (beginOp c s) t f) :
    RenderFrame s (returnOp none t) ∧ Drew s (returnOp none t) := ⟨h.returned.1, Draws.drew h.returned.2⟩

theorem drew_clear {s t : State} (h : t.fb = clearFb s.cfg s.fb) : Drew s t := fun hw => by
  rw [h]
  exact ⟨clearFb_wf hw _, clearFb_init _ _, fun _ n hn => by rw [clearFb_read hw, if_neg (by omega)]⟩

/-- What a drawing leaves. -/
theorem renderFrame_return (c : Byte) (s : State) (m : Memory) : RenderFrame s (returnOp none { beginOp c s with fb := m }) :=
  ⟨rfl, rfl, rfl, rfl, rfl, rfl, rfl, rfl, rfl, rfl, rfl, rfl, rfl, rfl, rfl⟩

/-- A run on the bus: its frame, and that the records only grow. -/
structure Ran (s t : State) (es : List Event) : Prop extends BusFrame s t where
  trace : t.trace = s.trace ++ es
  port  : s.port <+: t.port
  env   : t.env = s.env.drop (samples es)

theorem BusRun.ran {s t : State} {es : List Event} (h : BusRun s t es) : Ran s t es :=
  { toBusFrame := h.toBusFrame, trace := h.trace, port := h.port, env := h.env }

theorem Ran.ret {s t : State} {es : List Event} (h : Ran s t es) (r : Option Result) : Ran s { t with ret := r } es :=
  { sclId := h.sclId, sdaId := h.sdaId, delay := h.delay, configured := h.configured, dispAddr := h.dispAddr,
    initialized := h.initialized, fb := h.fb, cfg := h.cfg, host := h.host, trace := h.trace, port := h.port, env := h.env }

/-- A SAMPLE at any level of SDA. -/
theorem sample_ran (s : State) : Ran s (sample s).2 [.sample (sample s).1] := by
  have hr : ∃ more, (sample s).2 = emit (.sample (sample s).1)
      { s with env := s.env.drop 1, draws := s.draws + 1, port := s.port ++ more } := by
    unfold sample
    cases hid : s.sdaId with
    | unwritten => exact ⟨[], by simp⟩
    | written id => exact ⟨_, rfl⟩
  obtain ⟨more, hr⟩ := hr
  refine { sclId := ?_, sdaId := ?_, delay := ?_, configured := ?_, dispAddr := ?_, initialized := ?_, fb := ?_, cfg := ?_,
           host := ?_, trace := ?_, port := ?_, env := ?_ }
  all_goals rw [hr]
  all_goals simp [samples, samplesOf]

/-- What a bus operation leaves the bus as: inside a transaction, idle, or, after a byte transfer, as it was. -/
def BusAfter (i : Instr) (s t : State) : Prop :=
  t.inTxn = true ∨ BusIdleAfter t ∨ (isByteTransfer i = true ∧ t.inTxn = s.inTxn)

/-- Everything an instruction can do to the state, by kind. -/
theorem exec_kinds {i : Instr} {s t : State} (h : exec i s = .next t) :
    (∃ es, Ran s t es ∧ (i.format = .op → BusAfter i s t))
    ∨ (∃ c d f, i = .configure c d f ∧ f ≠ 0 ∧ c < s.cfg.pinCount ∧ d < s.cfg.pinCount ∧ c ≠ d ∧ Configured s t c d f)
    ∨ (∃ a c d es, i = .initDisplay a c d ∧ s.initialized = false ∧ c < s.cfg.pinCount ∧ d < s.cfg.pinCount ∧ c ≠ d
        ∧ InitializedBy s t a c d es)
    ∨ (RenderFrame s t ∧ Drew s t) := by
  have ends : ∀ {u v : State} {es : List Event} {x y : Level} (r : Option Result), Ends s u es x y → v = { u with ret := r } →
      i.format ≠ .op → ∃ es, Ran s v es ∧ (i.format = .op → BusAfter i s v) := by
    rintro u v es x y r k rfl hf
    exact ⟨es, k.toBusRun.ran.ret r, fun e => absurd e hf⟩
  have frame : ∀ b, sendFrame b s = .next t → i.format ≠ .op → ∃ es, Ran s t es ∧ (i.format = .op → BusAfter i s t) := by
    intro b hb hf
    obtain ⟨-, e⟩ := runPiece_eq_next hb
    obtain ⟨v, -, k⟩ := (Ends.refl s).writeByte b
    exact ends _ k e hf
  have command : ∀ bs, sendCommand bs s = .next t → i.format ≠ .op →
      ∃ es, Ran s t es ∧ (i.format = .op → BusAfter i s t) := by
    intro bs hb hf
    obtain ⟨hg, rfl⟩ := runPiece_eq_next hb
    obtain ⟨⟨a, ha⟩, -⟩ := cmdGuard_none.1 hg
    obtain ⟨ackss, -, k⟩ := sendCmds_txns bs ha
    exact ⟨_, k.toBusRun.ran.ret none, fun e => absurd e hf⟩
  have commands : ∀ (opc : Byte) (bs : Params → List Byte),
      runOp opc (displayGuard s) (fun s => (none, sendCmds (bs s.cfg) s)) s = .next t → bs s.cfg ≠ [] → ∃ es, Ran s t es ∧ (i.format = .op → BusAfter i s t) := by
    intro opc bs hb hne
    obtain ⟨-, hg, rfl⟩ := runOp_eq_next hb
    obtain ⟨-, ⟨a, ha⟩, -⟩ := displayGuard_none.1 hg
    obtain ⟨ackss, hl, k⟩ := sendCmds_txns (bs s.cfg) (s := beginOp opc s) ha
    have hi := k.idle (by
      cases hbs : bs s.cfg with
      | nil => exact absurd hbs hne
      | cons b bs' =>
        rw [hbs] at hl
        cases ackss with
        | nil => simp at hl
        | cons x xs => simp)
    exact ⟨_, k.toBusRun.op.ran, fun _ => .inr (.inl ⟨hi.released, hi.inTxn⟩)⟩
  cases i
  case configure c d f =>
    obtain ⟨-, hg, rfl⟩ := runOp_eq_next (show execConfigure c d f s = .next t from h)
    obtain ⟨h1, h2, h3, h4⟩ := configureGuard_none.1 hg
    have k := configureBody_configured c d f (beginOp 0x01 s)
    exact .inr (.inl ⟨c, d, f, rfl, h1, h2, h3, h4,
      { record := ⟨k.record.trace, k.record.env, k.record.drawn, k.record.port⟩, sclId := k.sclId, sdaId := k.sdaId,
        delay := k.delay, configured := k.configured, sclOut := k.sclOut, sdaOut := k.sdaOut, inTxn := k.inTxn,
        dispAddr := k.dispAddr, initialized := k.initialized, fb := k.fb, cfg := k.cfg, host := k.host }⟩)
  case start =>
    obtain ⟨-, hg, rfl⟩ := runOp_eq_next (show execStart s = .next t from h)
    have k := startBody_ends (beginOp 0x02 s)
    exact .inl ⟨_, k.toBusRun.op.ran, fun _ => .inl k.inTxn⟩
  case stop =>
    obtain ⟨-, hg, rfl⟩ := runOp_eq_next (show execStop s = .next t from h)
    have k := stopBody_ends (beginOp 0x03 s)
    exact .inl ⟨_, k.toBusRun.op.ran, fun _ => .inr (.inl ⟨⟨k.sclOut, k.sdaOut⟩, k.inTxn⟩)⟩
  case writeByte b =>
    obtain ⟨-, hg, rfl⟩ := runOp_eq_next (show execWriteByte b s = .next t from h)
    obtain ⟨v, -, k⟩ := (Ends.refl (beginOp 0x04 s)).writeByte b
    exact .inl ⟨_, k.toBusRun.op.ran, fun _ => .inr (.inr ⟨rfl, k.inTxn⟩)⟩
  case readByte a =>
    obtain ⟨-, hg, rfl⟩ := runOp_eq_next (show execReadByte a s = .next t from h)
    have k := (Ends.refl (beginOp 0x05 s)).readByte a
    exact .inl ⟨_, k.toBusRun.op.ran, fun _ => .inr (.inr ⟨rfl, k.inTxn⟩)⟩
  case write a p =>
    obtain ⟨-, hg, rfl⟩ := runOp_eq_next (show execWrite a p s = .next t from h)
    obtain ⟨acks, -, k⟩ := writeBody_txn a p (beginOp 0x06 s)
    exact .inl ⟨_, k.ends.toBusRun.op.ran, fun _ => .inr (.inl ⟨⟨k.ends.sclOut, k.ends.sdaOut⟩, k.ends.inTxn⟩)⟩
  case writeRegister a r p =>
    obtain ⟨-, hg, rfl⟩ := runOp_eq_next (show execWriteRegister a r p s = .next t from h)
    obtain ⟨acks, -, k⟩ := writeRegisterBody_txn a r p (beginOp 0x07 s)
    exact .inl ⟨_, k.ends.toBusRun.op.ran, fun _ => .inr (.inl ⟨⟨k.ends.sclOut, k.ends.sdaOut⟩, k.ends.inTxn⟩)⟩
  case initDisplay a c d =>
    obtain ⟨-, hg, rfl⟩ := runOp_eq_next (show execInitialize a c d s = .next t from h)
    obtain ⟨h1, -, h2, h3, h4⟩ := initializeGuard_none.1 hg
    obtain ⟨ackss, acks, txns, -, -, -, k⟩ := initializeBody_spec a c d (beginOp 0x10 s)
    exact .inr (.inr (.inl ⟨a, c, d, _, rfl, h1, h2, h3, h4,
      { record := ⟨k.record.trace, k.record.env, k.record.drawn, k.record.port⟩, dispAddr := k.dispAddr, sclId := k.sclId,
        sdaId := k.sdaId, delay := k.delay, configured := k.configured, initialized := k.initialized, fb := k.fb,
        cfg := k.cfg, host := k.host, idle := ⟨k.idle.released, k.idle.inTxn⟩ }⟩))
  case clear =>
    obtain ⟨-, -, rfl⟩ := runOp_eq_next (show execClear s = .next t from h)
    exact .inr (.inr (.inr ⟨renderFrame_return _ _ _, drew_clear rfl⟩))
  case flush =>
    obtain ⟨-, hg, rfl⟩ := runOp_eq_next (show execFlush s = .next t from h)
    obtain ⟨-, ⟨a, ha⟩, -⟩ := displayGuard_none.1 hg
    obtain ⟨ackss, acks, -, k⟩ := flushBody_txns (s := beginOp 0x12 s) ha
    have hi := k.idle (by simp)
    exact .inl ⟨_, k.toBusRun.op.ran, fun _ => .inr (.inl ⟨hi.released, hi.inTxn⟩)⟩
  case setPixel x y on =>
    obtain ⟨-, -, rfl⟩ := runOp_eq_next (show execSetPixel x y on s = .next t from h)
    exact .inr (.inr (.inr (Drawn.drew (setPixel_drawn _ _ on _))))
  case drawGlyph x y ch =>
    obtain ⟨-, -, rfl⟩ := runOp_eq_next (show execDrawGlyph x y ch s = .next t from h)
    exact .inr (.inr (.inr (Drawn.drew (drawGlyph_drawn _ _ ch _))))
  case drawText x y text =>
    obtain ⟨-, -, rfl⟩ := runOp_eq_next (show execDrawText x y text s = .next t from h)
    exact .inr (.inr (.inr (Drawn.drew (drawText_drawn _ _ text _))))
  case fillRect x y w k on =>
    obtain ⟨-, -, rfl⟩ := runOp_eq_next (show execFillRect x y w k on s = .next t from h)
    exact .inr (.inr (.inr (Drawn.drew (fillRect_drawn _ _ _ _ on _))))
  case setContrast l => exact .inl (commands 0x17 (fun c => [c.cmds.setContrast, l]) h (by simp))
  case setPower on => exact .inl (commands 0x18 (fun c => [powerByte c on]) h (by simp))
  case setInverted on => exact .inl (commands 0x19 (fun c => [invertByte c on]) h (by simp))
  case setline l v =>
    obtain ⟨-, e⟩ := runPiece_eq_next (show execSetline l v s = .next t from h)
    exact .inl (ends _ (setLine_ends l v s) e (by simp [Instr.format]))
  case sample =>
    obtain ⟨-, rfl⟩ := runPiece_eq_next (show execSample s = .next t from h)
    exact .inl ⟨_, (sample_ran s).ret _, fun e => absurd e (by simp [Instr.format])⟩
  case delay =>
    obtain ⟨-, e⟩ := runPiece_eq_next (show execDelay s = .next t from h)
    exact .inl (ends _ (delayOp_ends s) e (by simp [Instr.format]))
  case pinmode id =>
    obtain ⟨-, e⟩ := runPiece_eq_next (show execPinmode id s = .next t from h)
    exact .inl (ends _ (pinMode_ends id s) e (by simp [Instr.format]))
  case powerupWait =>
    obtain ⟨-, e⟩ := runPiece_eq_next (show execPowerupWait s = .next t from h)
    exact .inl (ends _ (powerupWaitOp_ends s) e (by simp [Instr.format]))
  case addrWrite a => exact .inl (frame _ h (by simp [Instr.format]))
  case addrRead a => exact .inl (frame _ h (by simp [Instr.format]))
  case ctrlCommand => exact .inl (frame _ h (by simp [Instr.format]))
  case ctrlDataStream => exact .inl (frame _ h (by simp [Instr.format]))
  all_goals exact .inl (command _ h (by simp [Instr.format]))

/-! ## An operation begins and ends with an idle sequencer (R25) -/

theorem runOp_idle {opc : Byte} {guard : Option Refusal} {body : State → Option Result × State} {s t : State}
    (h : runOp opc guard body s = .next t) : s.seq = .idle ∧ t.seq = .idle := by
  obtain ⟨h1, -, rfl⟩ := runOp_eq_next h
  exact ⟨h1, rfl⟩

theorem exec_op_idle {i : Instr} {s t : State} (hf : i.format = .op) (h : exec i s = .next t) :
    s.seq = .idle ∧ t.seq = .idle := by
  cases i
  case configure c d f => exact runOp_idle (show execConfigure c d f s = .next t from h)
  case start => exact runOp_idle (show execStart s = .next t from h)
  case stop => exact runOp_idle (show execStop s = .next t from h)
  case writeByte b => exact runOp_idle (show execWriteByte b s = .next t from h)
  case readByte a => exact runOp_idle (show execReadByte a s = .next t from h)
  case write a p => exact runOp_idle (show execWrite a p s = .next t from h)
  case writeRegister a r p => exact runOp_idle (show execWriteRegister a r p s = .next t from h)
  case initDisplay a c d => exact runOp_idle (show execInitialize a c d s = .next t from h)
  case clear => exact runOp_idle (show execClear s = .next t from h)
  case flush => exact runOp_idle (show execFlush s = .next t from h)
  case setPixel x y on => exact runOp_idle (show execSetPixel x y on s = .next t from h)
  case drawGlyph x y ch => exact runOp_idle (show execDrawGlyph x y ch s = .next t from h)
  case drawText x y text => exact runOp_idle (show execDrawText x y text s = .next t from h)
  case fillRect x y w k on => exact runOp_idle (show execFillRect x y w k on s = .next t from h)
  case setContrast l => exact runOp_idle (show execSetContrast l s = .next t from h)
  case setPower on => exact runOp_idle (show execSetPower on s = .next t from h)
  case setInverted on => exact runOp_idle (show execSetInverted on s = .next t from h)
  all_goals cases hf

/-! ## The kinds of step -/

/-- Everything a step can be: nothing presented, a return, a piece, a request, a framebuffer write of the host. -/
theorem step_kinds {s t : State} (h : step s = .next t) :
    configOk s.cfg = true ∧
      ((s.host = [] ∧ s.seq = .idle ∧ t = s)
      ∨ (∃ op pos, s.host = [] ∧ s.seq = .running op pos [] ∧ t = returnOp s.ret s)
      ∨ (∃ op pos i todo, s.host = [] ∧ s.seq = .running op pos (i :: todo)
          ∧ exec i { s with seq := .running op pos todo } = .next t)
      ∨ (∃ bytes acts i, s.host = .request bytes :: acts ∧ s.seq = .idle ∧ decodeRequest bytes = .ok i
          ∧ exec i { s with host := acts } = .next t)
      ∨ (∃ index value acts, s.host = .writeFb index value :: acts ∧ s.seq = .idle ∧ index < fbSize s.cfg
          ∧ t = { s with host := acts, fb := s.fb.write index value })) := by
  unfold step advance at h
  split at h
  · refine ⟨by assumption, ?_⟩
    cases hh : s.host with
    | nil =>
      rw [hh] at h
      dsimp only at h
      unfold continueOp at h
      cases hq : s.seq with
      | idle => rw [hq] at h; cases h; exact .inl ⟨rfl, rfl, rfl⟩
      | running op pos todo =>
        rw [hq] at h
        cases todo with
        | nil => cases h; exact .inr (.inl ⟨op, pos, rfl, rfl, rfl⟩)
        | cons i todo => exact .inr (.inr (.inl ⟨op, pos, i, todo, rfl, rfl, by rw [← hh]; exact h⟩))
    | cons a acts =>
      rw [hh] at h
      dsimp only at h
      cases a with
      | request bytes =>
        unfold hostAct hostRequest at h
        cases hq : s.seq with
        | running op pos todo => simp [Seq.isRunning, hq] at h
        | idle =>
          simp only [Seq.isRunning, hq, Bool.false_eq_true, if_false] at h
          split at h
          · rename_i i hd
            exact .inr (.inr (.inr (.inl ⟨bytes, acts, i, rfl, rfl, hd, h⟩)))
          · cases h
      | writeFb index value =>
        unfold hostAct hostWrite at h
        cases hq : s.seq with
        | running op pos todo => simp [Seq.isRunning, hq] at h
        | idle =>
          simp only [Seq.isRunning, hq, Bool.false_eq_true, if_false] at h
          split at h
          · rename_i hi
            cases h
            exact .inr (.inr (.inr (.inr ⟨index, value, acts, rfl, rfl, hi, by rw [← hq]⟩)))
          · cases h
  · cases h

end Sys2Proof.Machine
end

