-- ==== Sys2Proof/Laws/Wire.lean ====
section
/-!
SUPPORT. The wires under any environment (R87): where a wire is its latch, where a device holds it, and that the two observers agree on
events without a SAMPLE when both lines are released.
-/

namespace Sys2Proof.Machine

/-- A line that BM drives low is low, in either pad mode, whatever the environment does (R87, R111). -/
theorem wireLevel_low (pad : PadMode) (env open_ : Level) : wireLevel pad false env open_ = false := by
  cases pad <;> rfl

/-- A line that no device pulls is at its latch's level, in either pad mode (R87). -/
theorem wireLevel_released (pad : PadMode) (out open_ : Level) : wireLevel pad out true open_ = out := by
  cases pad <;> cases out <;> rfl

/-- Under open_drain a line that a device pulls is low (R87). -/
theorem wireLevel_pulled (out open_ : Level) : wireLevel .openDrain out false open_ = false := by cases out <;> rfl

/-- With both lines released, both wires are at their latches. -/
theorem Bus.released {b : Bus} (h : b.around.scl = true ∧ b.around.sda = true) : b.scl = b.sclOut ∧ b.sda = b.sdaOut := by
  unfold Bus.scl Bus.sda
  rw [h.1, h.2]
  exact ⟨wireLevel_released _ _ _, wireLevel_released _ _ _⟩

/-- An event does not move the environment, and the observer's memory does not. -/
theorem Bus.decode_frame (b n : Bus) :
    (b.decode n).1.pad = n.pad ∧ (b.decode n).1.sclOut = n.sclOut ∧ (b.decode n).1.sdaOut = n.sdaOut
      ∧ (b.decode n).1.around = n.around := by
  unfold Bus.decode
  split
  · split <;> exact ⟨rfl, rfl, rfl, rfl⟩
  · split <;> exact ⟨rfl, rfl, rfl, rfl⟩

theorem Bus.after_drives (b : Bus) (e : Event) :
    (b.after (.drives e)).pad = b.pad ∧ (b.after (.drives e)).around = b.around ∧ (b.after (.drives e)).pulse = b.pulse := by
  cases e with
  | setline l v => cases l <;> exact ⟨rfl, rfl, rfl⟩
  | sample => exact ⟨rfl, rfl, rfl⟩
  | delay => exact ⟨rfl, rfl, rfl⟩
  | pinmode => exact ⟨rfl, rfl, rfl⟩
  | powerupWait => exact ⟨rfl, rfl, rfl⟩

/-- One event with both lines released: the bus and the observer of a trace decode the same. -/
theorem Bus.see_released {b : Bus} (h : b.around.scl = true ∧ b.around.sda = true) {e : Event} (he : samplesOf [e] = []) :
    (b.decode (b.after (.drives e))).2 = (see ⟨b.sclOut, b.sdaOut, b.pulse⟩ e).2
      ∧ (see ⟨b.sclOut, b.sdaOut, b.pulse⟩ e).1
        = ⟨(b.decode (b.after (.drives e))).1.sclOut, (b.decode (b.after (.drives e))).1.sdaOut, (b.decode (b.after (.drives e))).1.pulse⟩ := by
  obtain ⟨h1, h2⟩ := Bus.released h
  obtain ⟨n1, n2⟩ := Bus.released (b := b.after (.drives e)) (by rw [(b.after_drives e).2.1]; exact h)
  unfold Bus.decode
  rw [h1, h2, n1, n2]
  cases e with
  | setline l v =>
    cases l
    · cases hs : b.sclOut <;> cases v <;> simp [Bus.after, see, seeScl]
    · cases hs : b.sclOut <;> cases hd : b.sdaOut <;> cases v <;> simp [Bus.after, see, seeSda, hs]
  | sample v => simp [samplesOf] at he
  | delay => simp [Bus.after, see]
  | pinmode id => simp [Bus.after, see]
  | powerupWait => simp [Bus.after, see]

theorem samplesOf_cons {e : Event} {es : List Event} (h : samplesOf (e :: es) = []) : samplesOf [e] = [] ∧ samplesOf es = [] := by
  cases e <;> simp_all [samplesOf]

/-- Events without a SAMPLE, both lines released throughout: the bus shows what the observer of a trace decodes. -/
theorem Bus.seen_released (es : List Event) {b : Bus} (h : b.around.scl = true ∧ b.around.sda = true) (hs : samplesOf es = []) :
    b.seen (es.map .drives) = observe ⟨b.sclOut, b.sdaOut, b.pulse⟩ es := by
  induction es generalizing b with
  | nil => rfl
  | cons e es ih =>
    obtain ⟨he, hs⟩ := samplesOf_cons hs
    obtain ⟨k1, k2⟩ := Bus.see_released h he
    have ha : (b.decode (b.after (.drives e))).1.around = b.around :=
      (b.decode_frame _).2.2.2.trans (b.after_drives e).2.1
    rw [List.map_cons, Bus.seen, observe, k1, k2, ih (by rw [ha]; exact h) hs]

/-- A device that holds SDA or SCL low under open_drain: no START and no STOP is seen, whatever BM drives (R275). -/
theorem Bus.seen_stuck (es : List Event) {b : Bus} (hp : b.pad = .openDrain) (h : b.around.scl = false ∨ b.around.sda = false) :
    ∀ y ∈ b.seen (es.map .drives), y ≠ .start ∧ y ≠ .stop := by
  induction es generalizing b with
  | nil => simp [Bus.seen]
  | cons e es ih =>
    obtain ⟨a1, a2, -⟩ := b.after_drives e
    obtain ⟨d1, -, -, d4⟩ := b.decode_frame (b.after (.drives e))
    intro y hy
    rw [List.map_cons, Bus.seen, List.mem_append] at hy
    rcases hy with hy | hy
    · have hne : (b.scl && b.sda != (b.after (.drives e)).sda) = false := by
        unfold Bus.scl Bus.sda
        rw [a1, a2, hp]
        rcases h with h | h <;> rw [h]
        · rw [wireLevel_pulled]; rfl
        · rw [wireLevel_pulled, wireLevel_pulled]; simp
      unfold Bus.decode at hy
      rw [hne] at hy
      split at hy
      · simp at hy
      · split at hy
        · simp at hy
        · split at hy
          · simp at hy; subst hy; simp
          · simp at hy
    · exact ih (by rw [d1, a1, hp]) (by rw [d4, a2]; exact h) y hy

/-- A byte frame that WRITE_BYTE sends with the clock low, a device answering inside the ninth clock pulse only (R89 to R91). -/
theorem Bus.seen_frame (pad : PadMode) (out : Level) (o p q r : Level) (b : Byte) (ack : Level) (hp : pad = .openDrain ∨ ack = true) :
    (Bus.mk pad false out ⟨true, true, o, p⟩ none).seen
        ((bitsTrace b 8).map .drives ++ [.moves ⟨true, ack, o, p⟩] ++ (cellTrace (some true) (some ack)).map .drives
          ++ [.moves ⟨true, true, q, r⟩])
      = frameSymbols b ack := by
  rcases hp with rfl | rfl
  · simp [bitsTrace, cellTrace, Bus.seen, Bus.decode, Bus.after, Bus.scl, Bus.sda, wireLevel, frameSymbols]
  · cases pad <;> simp [bitsTrace, cellTrace, Bus.seen, Bus.decode, Bus.after, Bus.scl, Bus.sda, wireLevel, frameSymbols]

end Sys2Proof.Machine
end

