-- ==== Sys2Proof/Tests/Slice0.lean ====
section
/-!
SUPPORT. The model's own tests, each a named theorem. Expected values are the spec's: 95_test_vectors.md (`S`, `V`, `P`) or the
encoding tables of 30_encoding.md; operand bytes of requests follow the model's packing (log 1). After the tests, one witness for
each statement that has hypotheses.
-/

namespace Sys2Proof.Tests

open Sys2Proof Sys2Proof.Machine

-- Many small kernel evaluations: one after the other, or they fill the memory with waiting threads.
set_option Elab.async false

/-! ## The states the tests start from -/

/-- The test glyph ROM `GLYPH_T` (95_test_vectors.md); its other entries are used by no vector. -/
def glyphT (e : Nat) : List Byte :=
  if e = 3 then [0xFF, 0xFF, 0xFF, 0xFF, 0xFF]
  else if e = 33 then [0x7E, 0x11, 0x11, 0x11, 0x7E]
  else if e = 34 then [0x7F, 0x49, 0x49, 0x49, 0x36]
  else [0, 0, 0, 0, 0]

/-- A pin map entry for the tests: one word written for each level. -/
def testPin : PinEntry where
  high     := .write 1 1
  highMore := []
  low      := .write 2 1
  lowMore  := []
  mode     := [.write 3 1]
  inAddr   := 4
  inBit    := 5

/-- The parameters of the vectors. -/
def params : Params :=
  { Config.params with
    clockLessOne := 159999999, spinIterCycles := 4, pinMap := List.replicate 32 testPin, powerupDelay := 0,
    glyph := (List.range 95).map glyphT }

/-- Reset, with latches 0 and 0 (V1) and a framebuffer of zero bytes (the vectors of part 2.6). -/
def fresh : State := { State.resetWith params with sclOut := false, sdaOut := false, fb := ⟨[], []⟩ }

/-- "Configured" (95_test_vectors.md), with what the environment will contribute. -/
def configured (env : List Level) : State :=
  { fresh with
    sclId := .written 6, sdaId := .written 7, delay := .written 100, configured := true, sclOut := true, sdaOut := true,
    env := env }

/-- Configured, and a START done (V7). -/
def started (env : List Level) : State := { configured env with sclOut := false, sdaOut := false, inTxn := true }

/-- After INITIALIZE (V17). -/
def initialized (env : List Level) : State := { configured env with dispAddr := .written 0x3C, initialized := true }

/-- An operation in progress. -/
def running (todo : List Instr) : State := { initialized [] with seq := .running 0x10 0 todo }

/-- The next state of an outcome. -/
def nextOf : Outcome → Option State
  | .next t => some t
  | .fault _ => none
  | .refused _ => none

/-- The refusal of an outcome. -/
def refusalOf : Outcome → Option Refusal
  | .next _ => none
  | .fault _ => none
  | .refused r => some r

/-- The framebuffer's listed bytes after an instruction, from a framebuffer of zero bytes: its nonzero bytes. -/
def cellsAfter (i : Instr) (s : State) : Option (List Host.Cell) := (nextOf (exec i s)).map fun t => t.fb.cells

/-! ## Well-formedness: an ill-formed term for each check is refused -/

theorem test_wf_configure_clock : (Instr.configure (2 ^ 32) 7 400000).wf = false := by decide

theorem test_wf_configure_data : (Instr.configure 6 (2 ^ 32) 400000).wf = false := by decide

theorem test_wf_initDisplay_clock : (Instr.initDisplay 0x3C (2 ^ 32) 7).wf = false := by decide

theorem test_wf_initDisplay_data : (Instr.initDisplay 0x3C 6 (2 ^ 32)).wf = false := by decide

theorem test_wf_pinmode : (Instr.pinmode (2 ^ 32)).wf = false := by decide

/-! ## Decoding: one word for each row, written out from the encoding tables (R83, R84, R93, R94, R96) -/

theorem test_decode_configure : decode .op [0x01, 6, 0, 0, 0, 7, 0, 0, 0, 0x80, 0x1A, 0x06, 0x00] = .ok (.configure 6 7 400000, []) := by decide

theorem test_decode_start : decode .op [0x02] = .ok (.start, []) := by decide

theorem test_decode_stop : decode .op [0x03] = .ok (.stop, []) := by decide

theorem test_decode_writeByte : decode .op [0x04, 0xA5] = .ok (.writeByte 0xA5, []) := by decide

theorem test_decode_readByte : decode .op [0x05, 1] = .ok (.readByte true, []) := by decide

theorem test_decode_write : decode .op [0x06, 0x3C, 1, 0x80, 1, 0xAE, 0] = .ok (.write 0x3C [0x80, 0xAE], []) := by decide

theorem test_decode_writeRegister : decode .op [0x07, 0x3C, 0x40, 1, 0x00, 1, 0xFF, 0] = .ok (.writeRegister 0x3C 0x40 [0x00, 0xFF], []) := by decide

theorem test_decode_initDisplay : decode .op [0x10, 0x3C, 6, 0, 0, 0, 7, 0, 0, 0] = .ok (.initDisplay 0x3C 6 7, []) := by decide

theorem test_decode_clear : decode .op [0x11] = .ok (.clear, []) := by decide

theorem test_decode_flush : decode .op [0x12] = .ok (.flush, []) := by decide

theorem test_decode_setPixel : decode .op [0x13, 5, 0, 0, 0, 10, 0, 0, 0, 1] = .ok (.setPixel 5 10 true, []) := by decide

theorem test_decode_drawGlyph : decode .op [0x14, 0xFE, 0xFF, 0xFF, 0xFF, 0xFD, 0xFF, 0xFF, 0xFF, 0x41, 0, 0, 0] = .ok (.drawGlyph (-2) (-3) 0x41, []) := by decide

theorem test_decode_drawText : decode .op [0x15, 0, 0, 0, 0, 0, 0, 0, 0, 1, 0x41, 0, 0, 0, 1, 0x42, 0, 0, 0, 0] = .ok (.drawText 0 0 [0x41, 0x42], []) := by decide

theorem test_decode_fillRect : decode .op [0x16, 0xFE, 0xFF, 0xFF, 0xFF, 0xFE, 0xFF, 0xFF, 0xFF, 4, 0, 0, 0, 4, 0, 0, 0, 1] = .ok (.fillRect (-2) (-2) 4 4 true, []) := by decide

theorem test_decode_setContrast : decode .op [0x17, 0x7F] = .ok (.setContrast 0x7F, []) := by decide

theorem test_decode_setPower : decode .op [0x18, 0] = .ok (.setPower false, []) := by decide

theorem test_decode_setInverted : decode .op [0x19, 1] = .ok (.setInverted true, []) := by decide

theorem test_decode_setline : decode .uop [0x20, 1, 0] = .ok (.setline .sda false, []) := by decide

theorem test_decode_sample : decode .uop [0x21] = .ok (.sample, []) := by decide

theorem test_decode_delay : decode .uop [0x22] = .ok (.delay, []) := by decide

theorem test_decode_pinmode : decode .uop [0x23, 31, 0, 0, 0] = .ok (.pinmode 31, []) := by decide

theorem test_decode_powerupWait : decode .uop [0x24] = .ok (.powerupWait, []) := by decide

theorem test_decode_addrWrite : decode .addr [0x78] = .ok (.addrWrite 0x3C, []) := by decide

theorem test_decode_addrRead : decode .addr [0xFF] = .ok (.addrRead 0x7F, []) := by decide

theorem test_decode_ctrlCommand : decode .ctrl [0x80] = .ok (.ctrlCommand, []) := by decide

theorem test_decode_ctrlDataStream : decode .ctrl [0x40] = .ok (.ctrlDataStream, []) := by decide

theorem test_decode_cmdsDisplayOff : decode .cmd1 [0xAE] = .ok (.cmdsDisplayOff, []) := by decide

theorem test_decode_cmdsSetClockDiv : decode .cmd2 [0xD5, 0x80] = .ok (.cmdsSetClockDiv 0x80, []) := by decide

theorem test_decode_cmdsSetMultiplex : decode .cmd2 [0xA8, 0x3F] = .ok (.cmdsSetMultiplex 0x3F, []) := by decide

theorem test_decode_cmdsSetDisplayOffset : decode .cmd2 [0xD3, 0x00] = .ok (.cmdsSetDisplayOffset 0x00, []) := by decide

theorem test_decode_cmdsSetStartLine : decode .cmd1 [0x6A] = .ok (.cmdsSetStartLine 42, []) := by decide

theorem test_decode_cmdsChargePump : decode .cmd2 [0x8D, 0x14] = .ok (.cmdsChargePump 0x14, []) := by decide

theorem test_decode_cmdsSetAddrMode : decode .cmd2 [0x20, 0x00] = .ok (.cmdsSetAddrMode 0x00, []) := by decide

theorem test_decode_cmdsSegRemap : decode .cmd1 [0xA1] = .ok (.cmdsSegRemap 1, []) := by decide

theorem test_decode_cmdsComScanDir : decode .cmd1 [0xC8] = .ok (.cmdsComScanDir 1, []) := by decide

theorem test_decode_cmdsSetComPins : decode .cmd2 [0xDA, 0x12] = .ok (.cmdsSetComPins 0x12, []) := by decide

theorem test_decode_cmdsSetContrast : decode .cmd2 [0x81, 0xCF] = .ok (.cmdsSetContrast 0xCF, []) := by decide

theorem test_decode_cmdsSetPrecharge : decode .cmd2 [0xD9, 0xF1] = .ok (.cmdsSetPrecharge 0xF1, []) := by decide

theorem test_decode_cmdsSetVcomDetect : decode .cmd2 [0xDB, 0x40] = .ok (.cmdsSetVcomDetect 0x40, []) := by decide

theorem test_decode_cmdsDisplayResume : decode .cmd1 [0xA4] = .ok (.cmdsDisplayResume, []) := by decide

theorem test_decode_cmdsNormalDisplay : decode .cmd1 [0xA6] = .ok (.cmdsNormalDisplay, []) := by decide

theorem test_decode_cmdsInvertDisplay : decode .cmd1 [0xA7] = .ok (.cmdsInvertDisplay, []) := by decide

theorem test_decode_cmdsDisplayOn : decode .cmd1 [0xAF] = .ok (.cmdsDisplayOn, []) := by decide

theorem test_decode_cmdsSetColumnAddr : decode .cmd3 [0x21, 0x00, 0x7F] = .ok (.cmdsSetColumnAddr 0x00 0x7F, []) := by decide

theorem test_decode_cmdsSetPageAddr : decode .cmd3 [0x22, 0x00, 0x07] = .ok (.cmdsSetPageAddr 0x00 0x07, []) := by decide

/-- R85: reserved codes, and a micro-operation's code as a request. -/
theorem test_decode_reserved :
    [0x00, 0x08, 0x0F, 0x1A, 0x20, 0xFF].map (fun c => decodeRequest [c])
      = [.error (.illegalCode 0x00), .error (.illegalCode 0x08), .error (.illegalCode 0x0F), .error (.illegalCode 0x1A),
         .error (.illegalCode 0x20), .error (.illegalCode 0xFF)] := by decide

/-- R105: one byte value in four code spaces. -/
theorem test_decode_shared_code :
    decode .uop [0x21, 0, 0] = .ok (.sample, [0, 0]) ∧ decode .cmd3 [0x21, 0, 0] = .ok (.cmdsSetColumnAddr 0 0, [])
      ∧ decode .addr [0x21, 0, 0] = .ok (.addrRead 0x10, [0, 0]) ∧ decode .op [0x21, 0, 0] = .error (.illegalCode 0x21) := by decide

/-- V14: the address bytes. -/
theorem test_address_bytes :
    [encode (.addrWrite 0x00), encode (.addrWrite 0x3C), encode (.addrWrite 0x3D), encode (.addrWrite 0x50),
      encode (.addrWrite 0x7F), encode (.addrRead 0x3C), encode (.addrRead 0x7F)]
      = [[0x00], [0x78], [0x7A], [0xA0], [0xFE], [0x79], [0xFF]] := by decide

/-! ## Reset and the sequencer -/

/-- A word placed after reset is what the next step runs (log 2): CLEAR completes, START is refused (R29, U1). -/
theorem test_reset_runs_clear : (nextOf (step (State.reset.withFetchWord 8 0x11))).isSome = true := by decide +kernel

theorem test_reset_refuses_start : refusalOf (step (State.reset.withFetchWord 8 0x02)) = some .notConfigured := by decide +kernel

/-- R233, log 18: a host's own write past the framebuffer is refused. -/
theorem test_host_write_refused :
    refusalOf (step { fresh with host := [.writeFb 1024 0] }) = some (.noSuchFbByte 1024) := by decide +kernel

/-- R264: with no CONFIGURE yet, every bus operation is refused and CLEAR runs (V4). -/
theorem test_before_configure :
    [Instr.start, .stop, .writeByte 0, .readByte true, .write 0x3C [], .writeRegister 0x3C 0x80 []].map
        (fun i => refusalOf (exec i fresh)) = List.replicate 6 (some .notConfigured) := by decide +kernel

/-! ## CONFIGURE, START, STOP -/

/-- V1: trace and end state. -/
theorem test_configure :
    (nextOf (exec (.configure 6 7 400000) fresh)).map (fun t => (t.trace, t.configured, t.sclOut, t.sdaOut, t.inTxn))
        = some ([.pinmode 6, .pinmode 7, .setline .scl true, .delay, .setline .sda true, .delay], true, true, true, false)
      ∧ (nextOf (exec (.configure 6 7 400000) fresh)).map (fun t => (t.sclId, t.sdaId, t.delay))
        = some (.written 6, .written 7, .written 100) := by decide

/-- V2: both divisions truncate. -/
theorem test_delay_constants :
    [400000, 100000, 300000, 1000000, 1, 40000000, 40000001, 160000001, 4294967295].map (delayConstant params)
        = [100, 400, 133, 40, 40000000, 1, 0, 0, 0]
      ∧ [1, 2].map (delayConstant { params with clockLessOne := 6 }) = [1, 0] := by decide

/-- V6, START. -/
theorem test_start :
    (nextOf (exec .start (configured []))).map (fun t => (t.trace, t.sclOut, t.sdaOut, t.inTxn, t.ret))
      = some ([.setline .sda true, .delay, .setline .scl true, .delay, .setline .sda false, .delay, .setline .scl false, .delay],
          false, false, true, some (.bool true)) := by decide

/-- V6, STOP. -/
theorem test_stop :
    (nextOf (exec .stop (started []))).map (fun t => (t.trace, t.sclOut, t.sdaOut, t.inTxn, t.ret))
      = some ([.setline .sda false, .delay, .setline .scl true, .delay, .setline .sda true, .delay], true, true, false, none) := by
  decide

/-- R87: BM's 0 is 0 and a line no device pulls is the latch, in both pad modes; under open_drain a pulled line is 0. -/
theorem test_wire_levels :
    [wireLevel .openDrain false true true, wireLevel .pushPull false false true, wireLevel .pushPull true true false,
      wireLevel .openDrain true true false, wireLevel .openDrain true false true] = [false, false, true, true, false] := by decide

/-- V6 on the two wires: START from idle, and STOP after it; R275 (c): neither shows when a device holds SDA low. -/
theorem test_start_stop_on_the_wires :
    (busOf (configured []) ⟨true, true, true, true⟩).seen ((startTrace ++ stopTrace).map .drives) = [.start, .stop]
      ∧ (busOf (configured []) ⟨true, false, true, true⟩).seen ((startTrace ++ stopTrace).map .drives) = [] := by
  decide +kernel

/-- V10: a STOP on an idle bus is decoded as a START and a STOP. -/
theorem test_stop_idle_wire : observe (watch (configured [])) stopTrace = [.start, .stop] := by decide

/-! ## Byte transfers: the spec's traces, written out -/

/-- The compact notation of R12. -/
def d (v : Nat) : Event := .setline .sda (v == 1)

/-- The compact notation of R12. -/
def c (v : Nat) : Event := .setline .scl (v == 1)

/-- The dot of R12. -/
def o : Event := .delay

/-- V7, WRITE_BYTE 0xA5 acknowledged. -/
def traceV7 : List Event :=
  [d 1, o, c 1, o, o, c 0, o, d 0, o, c 1, o, o, c 0, o, d 1, o, c 1, o, o, c 0, o]
  ++ [d 0, o, c 1, o, o, c 0, o, d 0, o, c 1, o, o, c 0, o, d 1, o, c 1, o, o, c 0, o]
  ++ [d 0, o, c 1, o, o, c 0, o, d 1, o, c 1, o, o, c 0, o]
  ++ [d 1, o, c 1, o, .sample false, o, c 0, o]

/-- V11, READ_BYTE true with the samples 1, 0, 1, 1, 0, 0, 1, 0. -/
def traceV11 : List Event :=
  [d 1, o, c 1, o, .sample true, o, c 0, o, o, c 1, o, .sample false, o, c 0, o, o, c 1, o, .sample true, o, c 0, o]
  ++ [o, c 1, o, .sample true, o, c 0, o, o, c 1, o, .sample false, o, c 0, o, o, c 1, o, .sample false, o, c 0, o]
  ++ [o, c 1, o, .sample true, o, c 0, o, o, c 1, o, .sample false, o, c 0, o]
  ++ [d 0, o, c 1, o, o, c 0, o] ++ [d 1, o]

/-- V7. -/
theorem test_writeByte :
    ∃ t, exec (.writeByte 0xA5) (started [false]) = .next t ∧ t.trace = traceV7 ∧ t.ret = some (.bool true) := by
  obtain ⟨v, h, k⟩ := (Ends.refl (beginOp 0x04 (started [false]))).writeByte 0xA5
  have hv : v = false := by
    simpa [started, configured, samples, samplesOf_writeByteTrace, beginOp] using k.drawn rfl
  subst hv
  refine ⟨_, (show execWriteByte 0xA5 (started [false]) = _ from runOp_next rfl rfl), k.trace.trans (by decide), ?_⟩
  show some (Result.bool _) = _
  rw [h]
  rfl

/-- V11. -/
theorem test_readByte :
    ∃ t, exec (.readByte true) (started [true, false, true, true, false, false, true, false]) = .next t
      ∧ t.trace = traceV11 ∧ t.ret = some (.byte 0xB2) := by
  have k := (Ends.refl (beginOp 0x05 (started [true, false, true, true, false, false, true, false]))).readByte true
  have hd := k.drawn rfl
  refine ⟨_, (show execReadByte true _ = _ from runOp_next rfl rfl), k.trace.trans ?_, ?_⟩
  all_goals
    generalize (readByteBody true (beginOp 0x05 (started [true, false, true, true, false, false, true, false]))).1 = v at *
    have hv : v = 0xB2 := by
      simp [started, configured, fresh, beginOp, samples, samplesOf, readByteTrace, readBitsTrace, cellTrace] at hd
      ext n hn
      interval_cases n <;> simp_all
    subst hv
    rfl

/-- V13: the two presence probes have the same events but for the sample. -/
theorem test_write_counts :
    setlines (txnTrace [0x78] [true]) = 34 ∧ samples (txnTrace [0x78] [true]) = 1 ∧ delays (txnTrace [0x78] [true]) = 43 := by
  decide

/-- V15: the abort at a payload byte, counts. -/
theorem test_write_abort_counts :
    stopsAtNak [0x78, 0x80, 0xAE, 0x55] [false, false, true] = true
      ∧ setlines (txnTrace [0x78, 0x80, 0xAE, 0x55] [false, false, true]) = 88
      ∧ delays (txnTrace [0x78, 0x80, 0xAE, 0x55] [false, false, true]) = 115 := by
  decide +kernel

/-- V16: WRITE_REGISTER's transaction. -/
theorem test_writeRegister :
    ∃ t acks, exec (.writeRegister 0x3C 0x40 [0x00, 0xFF]) (configured [false, false, false, false]) = .next t
      ∧ t.trace = txnTrace [0x78, 0x40, 0x00, 0xFF] acks ∧ stopsAtNak [0x78, 0x40, 0x00, 0xFF] acks = true := by
  obtain ⟨acks, -, k⟩ := writeRegisterBody_txn 0x3C 0x40 [0x00, 0xFF] (beginOp 0x07 (configured [false, false, false, false]))
  exact ⟨_, acks, (show execWriteRegister 0x3C 0x40 [0x00, 0xFF] _ = _ from runOp_next rfl rfl), k.ends.trace, k.acked⟩

/-- P1: WRITE's transaction. -/
theorem test_write :
    ∃ t acks, exec (.write 0x3C [0x80, 0xAE]) (configured [false, false, false]) = .next t
      ∧ t.trace = txnTrace [0x78, 0x80, 0xAE] acks ∧ stopsAtNak [0x78, 0x80, 0xAE] acks = true := by
  obtain ⟨acks, -, k⟩ := writeBody_txn 0x3C [0x80, 0xAE] (beginOp 0x06 (configured [false, false, false]))
  exact ⟨_, acks, (show execWrite 0x3C [0x80, 0xAE] _ = _ from runOp_next rfl rfl), k.ends.trace, k.acked⟩

/-! ## Display -/

/-- P5: the 25 initialization bytes and the 6 window bytes. -/
theorem test_init_bytes :
    initSeq params = [0xAE, 0xD5, 0x80, 0xA8, 0x3F, 0xD3, 0x00, 0x40, 0x8D, 0x14, 0x20, 0x00, 0xA1, 0xC8, 0xDA, 0x12, 0x81, 0xCF,
        0xD9, 0xF1, 0xDB, 0x40, 0xA4, 0xA6, 0xAF]
      ∧ windowSeq params = [0x21, 0x00, 0x7F, 0x22, 0x00, 0x07] := by decide

/-- P5 and V3: a second INITIALIZE is refused, and equal lines are. -/
theorem test_initDisplay_refusals :
    refusalOf (exec (.initDisplay 0x3C 6 7) (initialized [])) = some .alreadyInitialized
      ∧ refusalOf (exec (.initDisplay 0x3C 6 6) fresh) = some (.equalLines 6) := by decide +kernel

/-- P3, request 9: FLUSH before INITIALIZE is refused. -/
theorem test_flush_refused : refusalOf (exec .flush fresh) = some .notInitialized := by decide +kernel

/-- V18: the command bytes of SET_POWER and SET_INVERTED. -/
theorem test_setting_bytes :
    [powerByte params false, powerByte params true, invertByte params true, invertByte params false] = [0xAE, 0xAF, 0xA7, 0xA6] := by
  decide

/-- V4: SET_CONTRAST before INITIALIZE is refused. -/
theorem test_setContrast_refused : refusalOf (exec (.setContrast 0) fresh) = some .notInitialized := by decide +kernel

/-! ## Micro-operations -/

/-- R111: SETLINE SDA drives the one latch, writes one word at a multiple of 4. -/
theorem test_setline :
    (nextOf (exec (.setline .sda false) (configured []))).map (fun t => (t.sclOut, t.sdaOut, t.trace, t.port))
      = some (true, false, [.setline .sda false], [.write 8 1]) := by decide

/-- R113: with SDA released, a SAMPLE returns what the environment contributes. -/
theorem test_sample : (sample (configured [false, true])).1 = false ∧ (sample (configured [true, false])).1 = true := by
  rw [sample_level, sample_level]
  decide

/-- R21: a SAMPLE before any CONFIGURE is refused. -/
theorem test_sample_refused : refusalOf (exec .sample fresh) = some (.unwrittenElement "S.sda_id") := by decide +kernel

/-- R82: the largest identifier is PIN_COUNT - 1. -/
theorem test_pinmode :
    (nextOf (exec (.pinmode 31) fresh)).map (fun t => (t.trace, t.port)) = some ([.pinmode 31], [.write 12 1])
      ∧ refusalOf (exec (.pinmode 32) fresh) = some (.lineOutOfRange 32) := by decide +kernel

/-- R114, R162. -/
theorem test_delay_powerupWait :
    (nextOf (exec .delay (configured []))).map (fun t => t.trace) = some [.delay]
      ∧ (nextOf (exec .powerupWait fresh)).map (fun t => t.trace) = some [.powerupWait] := by decide

/-! ## Rendering: from a framebuffer of zero bytes; only nonzero bytes are listed -/

/-- V20, V21. -/
theorem test_clear : cellsAfter .clear { fresh with fb := ⟨[], [(133, 0xFF), (1023, 0x80)]⟩ } = some [] := by decide +kernel

/-- V22 (two of its corners) and V24 (two of its clips). -/
theorem test_setPixel :
    cellsAfter (.setPixel 5 10 true) fresh = some [(133, 0x04)] ∧ cellsAfter (.setPixel 127 63 true) fresh = some [(1023, 0x80)]
      ∧ cellsAfter (.setPixel (-1) 0 true) fresh = some [] ∧ cellsAfter (.setPixel 0 64 true) fresh = some [] := by decide +kernel

/-- V23, S4: clearing one bit of FF. -/
theorem test_setPixel_clears_one_bit :
    cellsAfter (.setPixel 5 10 false) { fresh with fb := ⟨[], [(133, 0xFF)]⟩ } = some [(133, 0xFB)] := by decide +kernel

/-- V31: a glyph across two pages. -/
theorem test_drawGlyph :
    cellsAfter (.drawGlyph 10 5 0x41) fresh
      = some [(10, 0xC0), (11, 0x20), (12, 0x20), (13, 0x20), (14, 0xC0), (138, 0x0F), (139, 0x02), (140, 0x02), (141, 0x02),
          (142, 0x0F)] := by decide +kernel

/-- V32: bit 7 of a column is ignored; a code outside the range draws a space. V37 (f): clipped on two sides. -/
theorem test_drawGlyph_corners :
    cellsAfter (.drawGlyph 0 0 0x23) fresh = some [(0, 0x7F), (1, 0x7F), (2, 0x7F), (3, 0x7F), (4, 0x7F)]
      ∧ cellsAfter (.drawGlyph 0 0 0x1F600) fresh = some []
      ∧ cellsAfter (.drawGlyph (-2) (-3) 0x41) fresh = some [(0, 0x02), (1, 0x02), (2, 0x0F)] := by decide +kernel

/-- V36: the first character already wraps, and is clipped to three columns. -/
theorem test_drawText_wrap :
    cellsAfter (.drawText 125 0 [0x41, 0x41]) fresh
      = some [(253, 0x7E), (254, 0x11), (255, 0x11), (381, 0x7E), (382, 0x11), (383, 0x11)] := by decide +kernel

/-- V34: the newline returns to column 3. -/
theorem test_drawText_newline :
    cellsAfter (.drawText 3 0 [0x41, 0x0A, 0x41]) fresh
      = some [(3, 0x7E), (4, 0x11), (5, 0x11), (6, 0x11), (7, 0x7E), (131, 0x7E), (132, 0x11), (133, 0x11), (134, 0x11),
          (135, 0x7E)] := by decide +kernel

/-- V38, V39 (a). -/
theorem test_fillRect :
    cellsAfter (.fillRect 0 0 8 8 true) fresh
        = some [(0, 0xFF), (1, 0xFF), (2, 0xFF), (3, 0xFF), (4, 0xFF), (5, 0xFF), (6, 0xFF), (7, 0xFF)]
      ∧ cellsAfter (.fillRect (-2) (-2) 4 4 true) fresh = some [(0, 0x03), (1, 0x03)] := by decide +kernel

/-- V39 (d), (g): no pixel, a sum that overflows, and one that does not. -/
theorem test_fillRect_corners :
    cellsAfter (.fillRect 0 0 (-3) 5 true) fresh = some []
      ∧ refusalOf (exec (.fillRect 2147483647 0 2 1 true) fresh) = some .coordinateOverflow
      ∧ cellsAfter (.fillRect 2147483647 0 1 1 true) fresh = some [] := by decide +kernel

/-- R97, R164: COM_PINS and the multiplex parameter for both heights the table names. -/
theorem test_com_pins :
    ((initSeq Config.params).drop 14).take 2 = [0xDA, 0x12] ∧ ((initSeq (Config.paramsAt 32)).drop 14).take 2 = [0xDA, 0x02]
      ∧ ((initSeq (Config.paramsAt 32)).drop 3).take 2 = [0xA8, 0x1F] := by decide +kernel

/-- R24 with R208, R205, R211: where the cursor and the loop counters stand when the pseudocode's loops end. -/
theorem test_working_registers :
    (let w := (drawText 2 1 [0x41, 0x0A, 0x42] fresh).work
     w.cx = .written 8 ∧ w.cy = .written 9 ∧ w.k = .written 2 ∧ w.col = .written 4 ∧ w.row = .written 6)
      ∧ (let w := (fillRect 0 0 3 2 true fresh).work
         w.dx = .written 2 ∧ w.dy = .written 1 ∧ w.cx = .unwritten) := by decide +kernel

/-- R96, R101: the bytes of the three display commands whose operand is inside the opcode byte. -/
theorem test_command_bytes :
    [commandBytes params (.cmdsSetStartLine 42), commandBytes params (.cmdsSegRemap 1), commandBytes params (.cmdsComScanDir 1)]
      = [some [0x6A], some [0xA1], some [0xC8]] := by decide

/-! ## Witnesses: a state and operands that meet the hypotheses of each statement that has some -/

theorem witness_DecodeOfEncode :
    (Instr.configure 0 (2 ^ 32 - 1) 0).wf = true ∧ (Instr.pinmode (2 ^ 32 - 1)).wf = true := by decide

theorem witness_EncodeOfDecode :
    decode .op [0x17, 0xFF, 0x55] = .ok (.setContrast 0xFF, [0x55]) ∧ decode .cmd1 [0x40] = .ok (.cmdsSetStartLine 0, []) := by decide

/-- A host has presented one act. -/
def presented (a : HostAct) : State := { fresh with host := [a] }

theorem witness_StepRunsRequest :
    configOk (presented (.request [0x11])).cfg = true ∧ (presented (.request [0x11])).seq = .idle
      ∧ (presented (.request [0x11])).host = .request [0x11] :: [] ∧ decodeRequest [0x11] = .ok .clear := by decide +kernel

theorem witness_StepRunsPiece :
    configOk (running []).cfg = true ∧ (running []).host = [] ∧ (running []).seq = .running 0x10 0 []
      ∧ (running [.delay]).seq = .running 0x10 0 (.delay :: []) := by decide +kernel

theorem witness_IdleStaysIdle : configOk fresh.cfg = true ∧ fresh.seq = .idle ∧ fresh.host = [] := by decide +kernel

theorem witness_BusyIsRefused :
    (running []).seq = .running 0x10 0 [] ∧ Instr.clear.format = .op ∧ configOk (running []).cfg = true
      ∧ { running [] with host := [.writeFb 0 0] }.host = .writeFb 0 0 :: [] := by decide +kernel

theorem witness_IllegalCodeRefused :
    (∀ c ∈ ([0x00, 0x08, 0x0F, 0x1A, 0x20, 0xFF] : List Byte),
      ¬ (0x01 ≤ c.toNat ∧ c.toNat ≤ 0x07) ∧ ¬ (0x10 ≤ c.toNat ∧ c.toNat ≤ 0x19))
      ∧ configOk fresh.cfg = true ∧ (presented (.request [0x08])).host = .request (0x08 :: []) :: [] := by decide +kernel

theorem witness_WideAddressRefused :
    configOk fresh.cfg = true ∧ (presented (.request [0x06, 0x80])).seq = .idle
      ∧ (presented (.request [0x06, 0x80])).host = .request (0x06 :: 0x80 :: []) :: [] ∧ 128 ≤ (0x80 : Byte).toNat := by decide +kernel

theorem witness_ParametersChecked :
    configOk { params with height := 60 } = false ∧ configOk { params with width := 256, height := 256 } = true
      ∧ configOk { params with width := 257 } = false ∧ configOk { params with height := 8 } = true := by decide +kernel

theorem witness_SetlineEffect :
    lineId .scl (configured []) = .written 6 ∧ lineId .sda (running []) = .written 7 ∧ (running []).seq = .running 0x10 0 [] := by decide

theorem witness_SampleEffect :
    (configured [true]).sdaId = .written 7 ∧ (configured [true]).cfg.padMode = .openDrain ∧ (configured [true]).env = true :: []
      ∧ { configured [] with sdaOut := false }.sdaOut = false ∧ (running []).seq = .running 0x10 0 [] := by
  decide

theorem witness_SilentMicroOperations :
    Written (configured []).delay ∧ 0 < fresh.cfg.pinCount ∧ 31 < fresh.cfg.pinCount := ⟨⟨100, rfl⟩, by decide⟩

theorem witness_UnwrittenReadsRefused :
    fresh.sclId = .unwritten ∧ fresh.sdaId = .unwritten ∧ fresh.delay = .unwritten ∧ fresh.cfg.pinCount ≤ 32 := by decide

theorem witness_ConfigureResult :
    fresh.seq = .idle ∧ (1 : Word) ≠ 0 ∧ 0 < fresh.cfg.pinCount ∧ 31 < fresh.cfg.pinCount ∧ (0 : Nat) ≠ 31 := by decide

theorem witness_ConfigureRefusals : fresh.seq = .idle ∧ fresh.cfg.pinCount ≤ 32 ∧ 6 < fresh.cfg.pinCount ∧ (400000 : Word) ≠ 0 := by
  decide

theorem busReady_configured (env : List Level) : BusReady (configured env) := ⟨rfl, ⟨6, rfl⟩, ⟨7, rfl⟩, ⟨100, rfl⟩⟩

theorem busReady_started (env : List Level) : BusReady (started env) := ⟨rfl, ⟨6, rfl⟩, ⟨7, rfl⟩, ⟨100, rfl⟩⟩

theorem witness_StartResult : (configured []).seq = .idle ∧ BusReady (configured []) := ⟨rfl, busReady_configured []⟩

theorem witness_StopResult : (started []).seq = .idle ∧ BusReady (started []) := ⟨rfl, busReady_started []⟩

theorem witness_StartThenStop : (configured [true]).seq = .idle ∧ BusReady (configured [true]) := ⟨rfl, busReady_configured [true]⟩

theorem witness_WriteByteResult :
    (started [false]).seq = .idle ∧ BusReady (started [false]) ∧ (started [false]).cfg.padMode = .openDrain
      ∧ (started [false]).env = false :: [] := ⟨rfl, busReady_started _, rfl, rfl⟩

theorem witness_ReadByteResult :
    (started (List.replicate 8 true)).seq = .idle ∧ BusReady (started (List.replicate 8 true))
      ∧ (started (List.replicate 8 true)).cfg.padMode = .openDrain ∧ 8 ≤ (started (List.replicate 8 true)).env.length :=
  ⟨rfl, busReady_started _, rfl, by decide⟩

theorem witness_WriteResult : (configured [true]).seq = .idle ∧ BusReady (configured [true]) := ⟨rfl, busReady_configured _⟩

theorem witness_WriteRegisterResult : (started [false]).seq = .idle ∧ BusReady (started [false]) := ⟨rfl, busReady_started _⟩

/-- At both ends of j: the address byte (S3) and the last payload byte. -/
theorem witness_WriteAborts :
    BusReady (configured [true]) ∧ (configured [true]).env = List.replicate 0 false ++ true :: [] ∧ 0 ≤ ([] : List Byte).length
      ∧ BusReady (configured [false, false, true]) ∧ (configured [false, false, true]).env = List.replicate 2 false ++ true :: []
      ∧ 2 ≤ ([0x80, 0xAE] : List Byte).length ∧ (configured [true]).cfg.padMode = .openDrain :=
  ⟨busReady_configured _, rfl, by decide, busReady_configured _, rfl, by decide, rfl⟩

theorem witness_WriteAllAcknowledged :
    BusReady (configured [false, false, false]) ∧ (configured [false, false, false]).cfg.padMode = .openDrain
      ∧ (configured [false, false, false]).env = List.replicate (([0x80, 0xAE] : List Byte).length + 1) false ++ [] :=
  ⟨busReady_configured _, rfl, rfl⟩

/-- A display address, but no CONFIGURE: a state no run reaches. -/
def addressed : State := { fresh with initialized := true, dispAddr := .written 0x3C }

theorem witness_UnconfiguredBusRefused :
    fresh.configured = false ∧ fresh.seq = .idle ∧ fresh.initialized = false ∧ fresh.dispAddr = .unwritten
      ∧ (frameByte .ctrlCommand).isSome = true ∧ (commandBytes fresh.cfg .cmdsDisplayOn).isSome = true
      ∧ addressed.configured = false ∧ addressed.initialized = true ∧ { addressed with dispAddr := .unwritten }.dispAddr = .unwritten :=
  ⟨rfl, rfl, rfl, rfl, rfl, rfl, rfl, rfl, rfl⟩

theorem witness_UnconfiguredBusRefused_addressed : Written addressed.dispAddr := ⟨0x3C, rfl⟩

/-- Both lines released, and each line held. -/
theorem witness_FramingSymbols :
    (configured []).seq = .idle ∧ BusReady (configured []) ∧ LinesUsable (configured []).cfg 0 31 1
      ∧ (configured []).cfg.padMode = .openDrain ∧ (⟨true, true, false, false⟩ : Surroundings).scl = true
      ∧ (⟨true, false, true, true⟩ : Surroundings).sda = false ∧ (⟨false, true, true, true⟩ : Surroundings).scl = false :=
  ⟨rfl, busReady_configured _, by unfold LinesUsable; decide, rfl, rfl, rfl, rfl⟩

theorem witness_FramePieces :
    frameByte (.addrRead 0x7F) = some 0xFF ∧ frameByte .ctrlDataStream = some 0x40 ∧ BusReady (configured []) :=
  ⟨rfl, rfl, busReady_configured _⟩

theorem witness_BytesOnTheWire :
    (started []).seq = .idle ∧ BusReady (started []) ∧ (started []).sclOut = false := ⟨rfl, busReady_started _, rfl⟩

theorem witness_TransactionOnTheWire :
    (configured []).seq = .idle ∧ BusReady (configured []) ∧ Released (configured []) := ⟨rfl, busReady_configured _, rfl, rfl⟩

theorem witness_SpacingInvariant : Instr.stop.format = .op ∧ (nextOf (exec .stop (started []))).isSome = true := by decide

theorem witness_OperationSizeBound :
    setlineBound params (.writeByte 0) = some 27 ∧ (nextOf (exec (.writeByte 0) (started [true]))).isSome = true := by decide +kernel

theorem witness_EnvironmentChangesOnlySamples :
    (nextOf (exec (.configure 6 7 400000) fresh)).isSome = true ∧ (nextOf (exec .start (configured []))).isSome = true
      ∧ (nextOf (exec (.readByte true) (started []))).isSome = true ∧ (nextOf (exec .stop (started []))).isSome = true
      ∧ (nextOf (exec (.writeByte 0xFF) (started []))).isSome = true := by decide +kernel

theorem witness_InitializeResult :
    fresh.seq = .idle ∧ fresh.initialized = false ∧ fresh.cfg.displayBusHz ≠ 0 ∧ 0 < fresh.cfg.pinCount ∧ 31 < fresh.cfg.pinCount
      ∧ (0 : Nat) ≠ 31 ∧ fresh.fb.wf := by decide

theorem witness_InitializeRefusals :
    (initialized []).initialized = true ∧ fresh.initialized = false ∧ { params with displayBusHz := 0 }.displayBusHz = 0
      ∧ fresh.cfg.displayBusHz ≠ 0 ∧ fresh.cfg.pinCount ≤ 32 ∧ 6 < fresh.cfg.pinCount := by decide

theorem displayReady_initialized (env : List Level) : DisplayReady 0x3C (initialized env) :=
  ⟨⟨rfl, ⟨6, rfl⟩, ⟨7, rfl⟩, ⟨100, rfl⟩⟩, rfl⟩

theorem witness_FlushResult :
    (initialized []).seq = .idle ∧ (initialized []).initialized = true ∧ DisplayReady 0x3C (initialized []) :=
  ⟨rfl, rfl, displayReady_initialized _⟩

theorem witness_DisplaySettingResults :
    (initialized [true]).seq = .idle ∧ (initialized [true]).initialized = true ∧ DisplayReady 0x3C (initialized [true]) :=
  ⟨rfl, rfl, displayReady_initialized _⟩

theorem witness_UninitializedRefused : (configured []).seq = .idle ∧ (configured []).initialized = false := by decide

theorem witness_CommandPieces :
    commandBytes (running []).cfg (.cmdsSetPageAddr 0 7) = some [0x22, 0, 7] ∧ DisplayReady 0x3C (running []) :=
  ⟨rfl, ⟨rfl, ⟨6, rfl⟩, ⟨7, rfl⟩, ⟨100, rfl⟩⟩, rfl⟩

theorem witness_ClearResult : fresh.seq = .idle ∧ fresh.fb.wf := by decide

/-- Inside at both corners, and outside at each edge. -/
theorem witness_SetPixelResult :
    fresh.seq = .idle ∧ fresh.fb.wf ∧ inBounds params (0 : Word).toInt (0 : Word).toInt = true
      ∧ inBounds params (127 : Word).toInt (63 : Word).toInt = true ∧ inBounds params (-1 : Word).toInt (0 : Word).toInt = false
      ∧ inBounds params (128 : Word).toInt (0 : Word).toInt = false ∧ inBounds params (0 : Word).toInt (64 : Word).toInt = false := by
  decide

theorem witness_SetPixelLaws :
    fresh.seq = .idle ∧ fresh.fb.wf ∧ fresh.cfg.width = 128 ∧ fresh.cfg.height = 64
      ∧ (nextOf (exec (.setPixel 127 63 true) fresh)).isSome = true ∧ (nextOf (exec (.setPixel (-1) 0 true) fresh)).isSome = true := by
  decide +kernel

/-- The largest column and row from which no sum of the glyph leaves the range. -/
theorem witness_DrawGlyphResult :
    fresh.seq = .idle ∧ fresh.fb.wf ∧ configOk fresh.cfg = true
      ∧ ∀ v, GlyphSum fresh.cfg (2147483643 : Word).toInt (2147483641 : Word).toInt 0x41 v → InRange v := by
  refine ⟨rfl, by decide, by decide +kernel, ?_⟩
  rintro v ⟨col, row, hc, hr, -, rfl | rfl⟩
  · rw [show (2147483643 : Word).toInt = 2147483643 by decide]
    unfold InRange
    omega
  · rw [show (2147483641 : Word).toInt = 2147483641 by decide]
    unfold InRange
    omega

theorem witness_CharacterSubstitution :
    (0x1F : Word).toNat < fresh.cfg.printableLo.toNat ∧ fresh.cfg.printableHi.toNat < (0x7F : Word).toNat := by decide

theorem witness_DrawTextResult :
    fresh.seq = .idle ∧ fresh.fb.wf ∧ configOk fresh.cfg = true
      ∧ ∀ v, TextSum fresh.cfg (0 : Word).toInt [0x0A, 0x41] (0 : Word).toInt (0 : Word).toInt v → InRange v := by
  refine ⟨rfl, by decide, by decide +kernel, ?_⟩
  intro v h
  have e : fresh.cfg.newline = 0x0A := rfl
  have w : fresh.cfg.width = 128 := rfl
  simp only [TextSum, GlyphSum, e, w, if_true, show ((0x41 : Word) = 0x0A) = False by decide, if_false, or_false,
    show (0 : Word).toInt = 0 by decide, Nat.cast_ofNat, show ¬ ((0 : Int) + 6 > 128) by decide] at h
  unfold InRange
  rcases h with h | h | ⟨col, row, h1, h2, -, h | h⟩ <;> omega

theorem witness_TextWrapsAtRightEdge :
    fresh.seq = .idle ∧ fresh.fb.wf ∧ configOk fresh.cfg = true ∧ (0x41 : Word) ≠ fresh.cfg.newline := by decide +kernel

/-- The last column is the largest coordinate (V39 (g)). -/
theorem witness_FillRectResult :
    fresh.seq = .idle ∧ fresh.fb.wf ∧ configOk fresh.cfg = true
      ∧ ∀ v, RectSum (2147483647 : Word).toInt (0 : Word).toInt (1 : Word).toInt (1 : Word).toInt v → InRange v := by
  refine ⟨rfl, by decide, by decide +kernel, ?_⟩
  rintro v ⟨dx, dy, h1, h2, h3, h4, h5⟩
  rw [show (1 : Word).toInt = 1 by decide] at h2 h4
  rw [show (2147483647 : Word).toInt = 2147483647 by decide, show (0 : Word).toInt = 0 by decide] at h5
  unfold InRange
  omega

theorem witness_FillWholeDisplay : fresh.seq = .idle ∧ fresh.fb.wf ∧ configOk fresh.cfg = true := by decide +kernel

/-- One sum past the end for each of the three operations. -/
theorem witness_OverflowRefused :
    ¬ InRange 2147483648
      ∧ GlyphSum params (2147483647 : Word).toInt (0 : Word).toInt 0x41 2147483648
      ∧ TextSum params (2147483642 : Word).toInt [0x41] (2147483642 : Word).toInt (0 : Word).toInt 2147483648
      ∧ RectSum (2147483647 : Word).toInt (0 : Word).toInt (2 : Word).toInt (1 : Word).toInt 2147483648 := by
  refine ⟨by unfold InRange; omega, ⟨1, 0, by decide, by decide, by decide +kernel, .inl (by decide)⟩, ?_,
    ⟨1, 0, by decide, by decide, by decide, by decide, .inl (by decide)⟩⟩
  unfold TextSum
  rw [if_neg (by decide)]
  exact .inl (by decide)

theorem witness_HostFramebufferWrite :
    configOk fresh.cfg = true ∧ (presented (.writeFb 1023 0x80)).seq = .idle
      ∧ (presented (.writeFb 1023 0x80)).host = .writeFb 1023 0x80 :: [] ∧ 1023 < fbSize fresh.cfg ∧ fbSize fresh.cfg ≤ 1024
      ∧ (presented (.writeFb 1023 0x80)).fb.wf := by
  decide +kernel

theorem witness_EqualReadsEqualMemory :
    (⟨[1, 2], [(0, 7)]⟩ : Memory).wf ∧ ∀ a, (⟨[1, 2], [(0, 7)]⟩ : Memory).read a = (⟨[1, 2], [(0, 7)]⟩ : Memory).read a :=
  ⟨by decide, fun _ => rfl⟩

theorem witness_FramebufferInvariant :
    (presented (.request [0x11])).fb.wf ∧ (nextOf (step (presented (.request [0x11])))).isSome = true := by decide +kernel

theorem witness_ConfigurationInvariant :
    ConfiguredIffWritten (configured []) ∧ LinesDistinct (configured [])
      ∧ (nextOf (step { configured [] with host := [.request [0x02]] })).isSome = true := by
  refine ⟨⟨fun _ => ⟨⟨6, rfl⟩, ⟨7, rfl⟩, ⟨100, rfl⟩⟩, fun _ => rfl⟩, ?_, by decide +kernel⟩
  rintro a b ⟨⟩ ⟨⟩
  decide

theorem witness_DisplayLifecycle :
    (nextOf (step { initialized [] with host := [.request [0x11]] })).isSome = true ∧ InitializedHasAddress (initialized []) :=
  ⟨by decide +kernel, fun _ => ⟨rfl, ⟨0x3C, rfl⟩⟩⟩

/-- The host requests a STOP inside a transaction. -/
def stopping : State := { started [] with host := [.request [0x03]] }

theorem witness_IdleBusReleased :
    stopping.seq = .idle ∧ ReleasedWhenIdle stopping ∧ HostKeepsDiscipline stopping ∧ (nextOf (step stopping)).isSome = true :=
  ⟨rfl, nofun, fun _ _ _ _ _ _ => rfl, by decide +kernel⟩

theorem witness_RecordsOnlyGrow : (nextOf (step (running [.delay]))).isSome = true := by decide +kernel

/-- Both outcomes, for an operation and for a piece. -/
theorem witness_PerformedOrRefused :
    Instr.stop.format = .op ∧ (started []).seq = .idle ∧ Performed (started []) .stop ∧ ¬ Performed fresh .stop
      ∧ Performed (running []) (.setline .sda true) ∧ ¬ Performed fresh (.setline .sda true) := by
  refine ⟨rfl, rfl, busReady_started _, fun h => ?_, ⟨7, rfl⟩, ?_⟩
  · exact absurd (show fresh.configured = true from And.left h) (by decide)
  · rintro ⟨v, hv⟩
    cases hv

end Sys2Proof.Tests
end

section
/-!
PROOFS. The scope (00_scope.md): the check of the parameters (R9), and that no step changes a parameter or takes back a record
(R8, R12, R58, R270).
-/

namespace Sys2Proof.Machine

/-! ## The parameter check (R9) -/

/-- The Boolean check, constraint by constraint. -/
theorem configOk_iff (c : Params) : configOk c = true ↔
    c.height % 8 = 0 ∧ 1 ≤ c.width ∧ c.width ≤ 256 ∧ 8 ≤ c.height ∧ c.height ≤ 256
      ∧ c.printableLo.toNat ≤ c.printableHi.toNat ∧ c.printableHi.toNat - c.printableLo.toNat + 1 = 95
      ∧ c.glyph.length = 95 ∧ (∀ entry ∈ c.glyph, entry.length = 5)
      ∧ c.printableLo.toNat ≤ 0x20 ∧ 0x20 ≤ c.printableHi.toNat
      ∧ ¬ (c.printableLo.toNat ≤ c.newline.toNat ∧ c.newline.toNat ≤ c.printableHi.toNat) := by
  simp only [configOk, Bool.and_eq_true, Bool.not_eq_true', ← Bool.not_eq_true, beq_iff_eq, decide_eq_true_eq,
    List.all_eq_true, and_assoc]

/-- The check comes before everything else a step does (log 25). -/
theorem step_badConfiguration {s : State} (h : configOk s.cfg = false) : step s = .refused .badConfiguration := by
  simp [step, advance, h]

/-! ## The records only grow -/

/-- Parameters and host as they were, the records extended, the environment's contributions drawn from the front. -/
structure RecordsExtend (s t : State) : Prop where
  cfg   : t.cfg = s.cfg
  trace : s.trace <+: t.trace
  port  : s.port <+: t.port
  host  : t.host = s.host
  env   : t.env <:+ s.env

theorem Ran.recordsExtend {s t : State} {es : List Event} (h : Ran s t es) : RecordsExtend s t :=
  { cfg := h.cfg, trace := ⟨es, h.trace.symm⟩, port := h.port, host := h.host, env := h.env ▸ List.drop_suffix _ _ }

theorem Recorded.recordsExtend {s t : State} {es : List Event} (h : Recorded s t es) (hc : t.cfg = s.cfg)
    (hh : t.host = s.host) : RecordsExtend s t :=
  { cfg := hc, trace := ⟨es, h.trace.symm⟩, port := h.port, host := hh, env := h.env ▸ List.drop_suffix _ _ }

theorem RenderFrame.recordsExtend {s t : State} (h : RenderFrame s t) : RecordsExtend s t :=
  { cfg := h.cfg, trace := h.trace ▸ List.prefix_rfl, port := h.port ▸ List.prefix_rfl, host := h.host,
    env := h.env ▸ List.suffix_rfl }

/-- Every instruction, whether a host's operation or a piece, only extends the records. -/
theorem exec_recordsExtend {i : Instr} {s t : State} (h : exec i s = .next t) : RecordsExtend s t := by
  obtain ⟨es, bus, -⟩ | ⟨c, d, f, -, -, -, -, -, configured⟩ | ⟨a, c, d, es, -, -, -, -, -, initialized⟩ | ⟨render, -⟩ :=
    exec_kinds h
  · exact bus.recordsExtend
  · exact configured.record.recordsExtend configured.cfg configured.host
  · exact initialized.record.recordsExtend initialized.cfg initialized.host
  · exact render.recordsExtend

/-- A step takes at most the first of the host's acts; what it performs after that only extends the records. -/
theorem step_recordsExtend {s t : State} (h : step s = .next t) : RecordsExtend { s with host := s.host.drop 1 } t := by
  obtain ⟨-, ⟨hhost, -, rfl⟩ | ⟨op, pos, hhost, -, rfl⟩ | ⟨op, pos, i, todo, hhost, -, hexec⟩ |
    ⟨bytes, acts, i, hhost, -, -, hexec⟩ | ⟨index, value, acts, hhost, -, -, rfl⟩⟩ := step_kinds h
  · exact ⟨rfl, List.prefix_rfl, List.prefix_rfl, by simp [hhost], List.suffix_rfl⟩
  · exact ⟨rfl, List.prefix_rfl, List.prefix_rfl, by simp [hhost], List.suffix_rfl⟩
  · exact { exec_recordsExtend hexec with host := (exec_recordsExtend hexec).host.trans (by simp [hhost]) }
  · exact { exec_recordsExtend hexec with host := (exec_recordsExtend hexec).host.trans (by simp [hhost]) }
  · exact ⟨rfl, List.prefix_rfl, List.prefix_rfl, by simp [hhost], List.suffix_rfl⟩

end Sys2Proof.Machine

open Sys2Proof.Machine in
/-- Settles O58: every kind of step extends the records of the state without the host's first act. -/
theorem recordsOnlyGrow : Obligations.RecordsOnlyGrow := by
  intro s t h
  obtain ⟨hcfg, htrace, hport, hhost, henv⟩ := step_recordsExtend h
  exact ⟨hcfg, htrace, hport, hhost, henv⟩

open Sys2Proof.Machine in
/-- Settles O10: the check reads off the constraints, and a step makes it first. -/
theorem parametersChecked : Obligations.ParametersChecked :=
  ⟨configOk_iff, fun _ => step_badConfiguration⟩
end

section
/-!
PROOFS. The state (10_state.md): where it starts (R39), what a step does with what the host presents (R25, R81), which reads of an
unwritten element or of an unconfigured bus are refused (R21, R29, R175), and what every step keeps of the bus configuration (R26 to
R29), of the display's state (R32, R33) and of the lines of an idle bus (R31).
-/

namespace Sys2Proof.Machine

/-! ## What a step performs (R25, R81) -/

/-- A step takes the host's next act first. -/
theorem step_of_host {s : State} {a : HostAct} {acts : List HostAct} (hc : configOk s.cfg = true) (hh : s.host = a :: acts) :
    step s = hostAct a { s with host := acts } := by
  simp [step, advance, hc, hh]

/-- With nothing presented a step goes on with what is in progress. -/
theorem step_of_no_host {s : State} (hc : configOk s.cfg = true) (hh : s.host = []) : step s = continueOp s := by
  simp [step, advance, hc, hh]

/-- A request is performed by an idle sequencer. -/
theorem hostRequest_idle {s : State} {bytes : List Byte} {i : Instr} (hs : s.seq = .idle) (hd : decodeRequest bytes = .ok i) :
    hostRequest bytes s = exec i s := by
  simp [hostRequest, Seq.isRunning, hs, hd]

theorem continueOp_idle {s : State} (hs : s.seq = .idle) : continueOp s = .next s := by
  simp [continueOp, hs]

theorem continueOp_piece {s : State} {op : Byte} {pos : Nat} {i : Instr} {todo : List Instr}
    (hs : s.seq = .running op pos (i :: todo)) : continueOp s = exec i { s with seq := .running op pos todo } := by
  simp [continueOp, hs]

theorem continueOp_return {s : State} {op : Byte} {pos : Nat} (hs : s.seq = .running op pos []) :
    continueOp s = .next (returnOp s.ret s) := by
  simp [continueOp, hs]

/-- A step either moves only the sequencer, the working registers, the host's acts and the framebuffer, or performs an instruction;
an operation only if the host requests it, and an idle sequencer nothing else. -/
theorem step_performs {s t : State} (h : step s = .next t) :
    (∃ q w acts m, t = { s with seq := q, work := w, host := acts, fb := m } ∧ (s.seq = .idle → q = .idle))
    ∨ ∃ q acts i, exec i { s with seq := q, host := acts } = .next t
        ∧ (i.format = .op → ∃ bytes, s.host = .request bytes :: acts ∧ decodeRequest bytes = .ok i)
        ∧ (s.seq = .idle → i.format = .op) := by
  obtain ⟨-, ⟨-, -, rfl⟩ | ⟨op, pos, -, hseq, rfl⟩ | ⟨op, pos, i, todo, -, hseq, hexec⟩ |
    ⟨bytes, acts, i, hhost, -, hdecode, hexec⟩ | ⟨index, value, acts, -, -, -, rfl⟩⟩ := step_kinds h
  · exact .inl ⟨_, _, _, _, rfl, id⟩
  · exact .inl ⟨.idle, Work.dead, s.host, s.fb, rfl, fun _ => rfl⟩
  · refine .inr ⟨_, s.host, i, hexec, fun hop => ?_, fun hidle => ?_⟩
    · cases (exec_op_idle hop hexec).1
    · cases hseq.symm.trans hidle
  · exact .inr ⟨s.seq, acts, i, hexec, fun _ => ⟨bytes, hhost, hdecode⟩, fun _ => decodeRequest_format hdecode⟩
  · exact .inl ⟨s.seq, s.work, acts, _, rfl, id⟩

/-! ## The configuration elements (R26 to R29) -/

/-- The configuration elements are as they were. -/
structure LinesKept (s t : State) : Prop where
  cfg        : t.cfg = s.cfg
  configured : t.configured = s.configured
  delay      : t.delay = s.delay
  sclId      : t.sclId = s.sclId
  sdaId      : t.sdaId = s.sdaId

/-- The bus was configured anew, with operands that CONFIGURE accepts (R130, R132). -/
structure LinesSet (p : Params) (t : State) : Prop where
  cfg        : t.cfg = p
  configured : t.configured = true
  delay      : Written t.delay
  lines      : ∃ c d, t.sclId = .written c ∧ t.sdaId = .written d ∧ c < p.pinCount ∧ d < p.pinCount ∧ c ≠ d

/-- CONFIGURE and INITIALIZE set all the configuration elements; no other row changes one. -/
theorem exec_lines {i : Instr} {s t : State} (h : exec i s = .next t) : LinesKept s t ∨ LinesSet s.cfg t := by
  obtain ⟨es, bus, -⟩ | ⟨c, d, f, -, -, hc, hd, hne, conf⟩ | ⟨a, c, d, es, -, -, hc, hd, hne, init⟩ | ⟨render, -⟩ :=
    exec_kinds h
  · exact .inl ⟨bus.cfg, bus.configured, bus.delay, bus.sclId, bus.sdaId⟩
  · exact .inr ⟨conf.cfg, conf.configured, ⟨_, conf.delay⟩, c, d, conf.sclId, conf.sdaId, hc, hd, hne⟩
  · exact .inr ⟨init.cfg, init.configured, ⟨_, init.delay⟩, c, d, init.sclId, init.sdaId, hc, hd, hne⟩
  · exact .inl ⟨render.cfg, render.configured, render.delay, render.sclId, render.sdaId⟩

theorem step_lines {s t : State} (h : step s = .next t) : LinesKept s t ∨ LinesSet s.cfg t := by
  obtain ⟨q, w, acts, m, rfl, -⟩ | ⟨q, acts, i, hexec, -, -⟩ := step_performs h
  · exact .inl ⟨rfl, rfl, rfl, rfl, rfl⟩
  · exact (exec_lines hexec).imp (fun k => ⟨k.cfg, k.configured, k.delay, k.sclId, k.sdaId⟩) id

theorem LinesKept.configuredIffWritten {s t : State} (k : LinesKept s t) (h : ConfiguredIffWritten s) :
    ConfiguredIffWritten t := by
  unfold ConfiguredIffWritten
  rw [k.configured, k.sclId, k.sdaId, k.delay]
  exact h

theorem LinesKept.linesDistinct {s t : State} (k : LinesKept s t) (h : LinesDistinct s) : LinesDistinct t := by
  unfold LinesDistinct
  rw [k.cfg, k.sclId, k.sdaId]
  exact h

theorem LinesSet.configuredIffWritten {p : Params} {t : State} (k : LinesSet p t) : ConfiguredIffWritten t := by
  obtain ⟨c, d, hc, hd, -⟩ := k.lines
  exact ⟨fun _ => ⟨⟨c, hc⟩, ⟨d, hd⟩, k.delay⟩, fun _ => k.configured⟩

theorem LinesSet.linesDistinct {p : Params} {t : State} (k : LinesSet p t) : LinesDistinct t := by
  obtain ⟨c, d, hc, hd, hcp, hdp, hne⟩ := k.lines
  intro c' d' hc' hd'
  cases hc.symm.trans hc'
  cases hd.symm.trans hd'
  rw [k.cfg]
  exact ⟨hcp, hdp, hne⟩

/-- `S.configured` is never cleared (R29). -/
theorem step_keeps_configured {s t : State} (h : step s = .next t) (hs : s.configured = true) : t.configured = true := by
  obtain kept | set := step_lines h
  · exact kept.configured.trans hs
  · exact set.configured

/-! ## The display's state (R32, R33) -/

/-- What a completed INITIALIZE leaves of the display's state, and of the bus. -/
structure DisplaySet (t : State) (a : Addr7) : Prop where
  dispAddr    : t.dispAddr = .written a
  initialized : t.initialized = true
  configured  : t.configured = true

/-- Only INITIALIZE changes the display's state, and it is performed once. -/
theorem exec_display {i : Instr} {s t : State} (h : exec i s = .next t) :
    (t.dispAddr = s.dispAddr ∧ t.initialized = s.initialized)
    ∨ ∃ a c d, i = .initDisplay a c d ∧ s.initialized = false ∧ DisplaySet t a := by
  obtain ⟨es, bus, -⟩ | ⟨c, d, f, -, -, -, -, -, conf⟩ | ⟨a, c, d, es, hi, hs, -, -, -, init⟩ | ⟨render, -⟩ :=
    exec_kinds h
  · exact .inl ⟨bus.dispAddr, bus.initialized⟩
  · exact .inl ⟨conf.dispAddr, conf.initialized⟩
  · exact .inr ⟨a, c, d, hi, hs, init.dispAddr, init.initialized, init.configured⟩
  · exact .inl ⟨render.dispAddr, render.initialized⟩

theorem step_display {s t : State} (h : step s = .next t) :
    (t.dispAddr = s.dispAddr ∧ t.initialized = s.initialized)
    ∨ ∃ bytes acts a c d, s.host = .request bytes :: acts ∧ decodeRequest bytes = .ok (.initDisplay a c d)
        ∧ s.initialized = false ∧ DisplaySet t a := by
  obtain ⟨q, w, acts, m, rfl, -⟩ | ⟨q, acts, i, hexec, hreq, -⟩ := step_performs h
  · exact .inl ⟨rfl, rfl⟩
  · obtain kept | ⟨a, c, d, rfl, hs, set⟩ := exec_display hexec
    · exact .inl kept
    · obtain ⟨bytes, hhost, hdecode⟩ := hreq rfl
      exact .inr ⟨bytes, acts, a, c, d, hhost, hdecode, hs, set⟩

/-! ## The lines of an idle bus (R31, R143) -/

/-- An operation that leaves no transaction in progress leaves both lines released, unless it is a byte transfer outside one. -/
theorem exec_releasedWhenIdle {i : Instr} {s t : State} (h : exec i s = .next t) (hop : i.format = .op)
    (hbyte : isByteTransfer i = true → s.inTxn = true) (hr : ReleasedWhenIdle s) : ReleasedWhenIdle t := by
  intro htc htx
  obtain ⟨es, -, after⟩ | ⟨c, d, f, -, -, -, -, -, conf⟩ | ⟨a, c, d, es, -, -, -, -, -, init⟩ | ⟨render, -⟩ :=
    exec_kinds h
  · obtain inside | idle | ⟨hb, same⟩ := after hop
    · cases htx.symm.trans inside
    · exact idle.released
    · cases htx.symm.trans (same.trans (hbyte hb))
  · exact ⟨conf.sclOut, conf.sdaOut⟩
  · exact init.idle.released
  · obtain ⟨hscl, hsda⟩ := hr (render.configured.symm.trans htc) (render.inTxn.symm.trans htx)
    exact ⟨render.sclOut.trans hscl, render.sdaOut.trans hsda⟩

/-! ## Refusals of pieces and operations (R21, R29, R175) -/

/-- A guard's refusal is the piece's outcome. -/
theorem runPiece_refused {guard : Option Refusal} {body : State → Option Result × State} {s : State} {r : Refusal}
    (hg : guard = some r) : runPiece guard body s = .refused r := by
  simp [runPiece, hg]

theorem needWritten_unwritten {α : Type} {e : Elem α} (name : String) (h : e = .unwritten) :
    needWritten name e = some (.unwrittenElement name) := by
  subst h
  rfl

theorem busGuard_unconfigured {s : State} (h : s.configured = false) : busGuard s = some .notConfigured := by
  simp [busGuard, firstRefusal, h]

theorem cmdGuard_unaddressed {s : State} (h : s.dispAddr = .unwritten) :
    cmdGuard s = some (.unwrittenElement "S.disp_addr") := by
  simp [cmdGuard, firstRefusal, needWritten_unwritten _ h]

theorem cmdGuard_unconfigured {s : State} (ha : Written s.dispAddr) (h : s.configured = false) :
    cmdGuard s = some .notConfigured := by
  simp [cmdGuard, firstRefusal, (needWritten_none (name := "S.disp_addr")).2 ha, busGuard_unconfigured h]

theorem displayGuard_uninitialized {s : State} (h : s.initialized = false) : displayGuard s = some .notInitialized := by
  simp [displayGuard, firstRefusal, h]

theorem displayGuard_initialized {s : State} (h : s.initialized = true) : displayGuard s = cmdGuard s := by
  simp [displayGuard, firstRefusal, h]

/-- The six operations of BM that are refused by the bus guard. -/
theorem exec_busOperation_refused {i : Instr} {s : State} {r : Refusal} (hs : s.seq = .idle) (hg : busGuard s = some r)
    (hi : i = .start ∨ i = .stop ∨ (∃ b, i = .writeByte b) ∨ (∃ k, i = .readByte k) ∨ (∃ a p, i = .write a p)
      ∨ ∃ a r p, i = .writeRegister a r p) : exec i s = .refused r := by
  obtain rfl | rfl | ⟨b, rfl⟩ | ⟨k, rfl⟩ | ⟨a, p, rfl⟩ | ⟨a, g, p, rfl⟩ := hi
  all_goals
    dsimp only [exec]
    exact runOp_refused hs hg

/-- The four operations of DD that are refused by the display guard. -/
theorem exec_displayOperation_refused {i : Instr} {s : State} {r : Refusal} (hs : s.seq = .idle) (hg : displayGuard s = some r)
    (hi : i = .flush ∨ (∃ l, i = .setContrast l) ∨ (∃ on, i = .setPower on) ∨ ∃ on, i = .setInverted on) :
    exec i s = .refused r := by
  obtain rfl | ⟨l, rfl⟩ | ⟨on, rfl⟩ | ⟨on, rfl⟩ := hi
  all_goals
    dsimp only [exec]
    exact runOp_refused hs hg

/-- The rows that send one byte frame (R93, R94). -/
theorem exec_of_frameByte {i : Instr} {b : Byte} (h : frameByte i = some b) (s : State) : exec i s = sendFrame b s := by
  cases i
  case addrWrite a => cases h; rfl
  case addrRead a => cases h; rfl
  case ctrlCommand => cases h; rfl
  case ctrlDataStream => cases h; rfl
  all_goals cases h

/-- The rows that send a display command (R96, R161); the other rows have no command bytes. -/
theorem exec_of_commandBytes {i : Instr} {s : State} {bs : List Byte} (h : commandBytes s.cfg i = some bs) :
    exec i s = sendCommand bs s := by
  cases i <;> cases h
  all_goals rfl

end Sys2Proof.Machine

open Sys2Proof Sys2Proof.Machine

/-- Settles O55: a step keeps the configuration elements or sets them all, as CONFIGURE does. -/
theorem configurationInvariant : Obligations.ConfigurationInvariant := by
  intro s t hiff hdistinct h
  obtain kept | set := step_lines h
  · exact ⟨kept.configuredIffWritten hiff, kept.linesDistinct hdistinct, step_keeps_configured h⟩
  · exact ⟨set.configuredIffWritten, set.linesDistinct, step_keeps_configured h⟩

/-- Settles O56: a step keeps the display's state, or it is the one INITIALIZE that the host requests. -/
theorem displayLifecycle : Obligations.DisplayLifecycle := by
  intro s t h
  obtain ⟨haddr, hinit⟩ | ⟨bytes, acts, a, c, d, hhost, hdecode, hs, set⟩ := step_display h
  · refine ⟨fun hs => ⟨hinit.trans hs, haddr⟩, fun hne => ?_, fun hinv ht => ?_⟩
    · exact absurd hne (by simp [haddr, hinit])
    · obtain ⟨hconf, hwritten⟩ := hinv (hinit.symm.trans ht)
      exact ⟨step_keeps_configured h hconf, haddr ▸ hwritten⟩
  · refine ⟨fun hi => ?_, fun _ => ?_, fun _ _ => ?_⟩
    · cases hs.symm.trans hi
    · exact ⟨bytes, acts, a, c, d, hhost, hdecode, set.dispAddr, set.initialized⟩
    · exact ⟨set.configured, a, set.dispAddr⟩

/-- Settles O57: an idle sequencer performs only operations, and the host requests a byte transfer only inside a transaction. -/
theorem idleBusReleased : Obligations.IdleBusReleased := by
  intro s t hidle hr hhost h
  obtain ⟨q, w, acts, m, rfl, hq⟩ | ⟨q, acts, i, hexec, hreq, hop⟩ := step_performs h
  · exact ⟨hq hidle, hr⟩
  · obtain ⟨bytes, hacts, hdecode⟩ := hreq (hop hidle)
    exact ⟨(exec_op_idle (hop hidle) hexec).2,
      exec_releasedWhenIdle hexec (hop hidle) (hhost bytes acts i hacts hdecode) hr⟩

/-- Settles O28: the guard of each row, evaluated while `S.configured` is 0. -/
theorem unconfiguredBusRefused : Obligations.UnconfiguredBusRefused := by
  intro i s hc
  refine ⟨fun hs hi => ?_, fun hs hi => ⟨fun h0 => ?_, fun h1 ha => ?_, fun h1 ha => ?_⟩, fun hf => ?_, fun hb => ?_⟩
  · exact exec_busOperation_refused hs (busGuard_unconfigured hc) hi
  · exact exec_displayOperation_refused hs (displayGuard_uninitialized h0) hi
  · exact exec_displayOperation_refused hs ((displayGuard_initialized h1).trans (cmdGuard_unaddressed ha)) hi
  · exact exec_displayOperation_refused hs ((displayGuard_initialized h1).trans (cmdGuard_unconfigured ha hc)) hi
  · obtain ⟨b, hb⟩ := Option.isSome_iff_exists.1 hf
    exact (exec_of_frameByte hb s).trans (runPiece_refused (busGuard_unconfigured hc))
  · obtain ⟨bs, hbs⟩ := Option.isSome_iff_exists.1 hb
    rw [exec_of_commandBytes hbs]
    exact ⟨fun ha => runPiece_refused (cmdGuard_unaddressed ha), fun ha => runPiece_refused (cmdGuard_unconfigured ha hc)⟩

/-- Settles O4: the host's act is taken off, and the request it is runs. -/
theorem stepRunsRequest : Obligations.StepRunsRequest := by
  intro s bytes acts i hc hs hh hd
  exact (step_of_host hc hh).trans (hostRequest_idle hs hd)

/-- Settles O5: with nothing presented a step goes on with the pieces still to do. -/
theorem stepRunsPiece : Obligations.StepRunsPiece := by
  intro s op pos hc hh
  exact ⟨fun i todo hs => (step_of_no_host hc hh).trans (continueOp_piece hs),
    fun hs => (step_of_no_host hc hh).trans (continueOp_return hs)⟩

/-- Settles O6: with nothing presented and nothing in progress there is nothing to perform. -/
theorem idleStaysIdle : Obligations.IdleStaysIdle := by
  intro s hc hs hh
  exact (step_of_no_host hc hh).trans (continueOp_idle hs)

/-- Settles O11: every element is read off the reset state; the framebuffer has one reset byte for each index. -/
theorem resetState : Obligations.ResetState := by
  intro c
  exact ⟨rfl, rfl, rfl, rfl, rfl, rfl, rfl, rfl, rfl, rfl, by simp [State.resetWith]⟩

/-- Settles O15: the guard of each micro-operation is its refusal. -/
theorem unwrittenReadsRefused : Obligations.UnwrittenReadsRefused := by
  intro s
  refine ⟨fun v h => ?_, fun v h => ?_, fun h => ?_, fun h => ?_, fun id h => ?_⟩
  · exact runPiece_refused (needWritten_unwritten _ h)
  · exact runPiece_refused (needWritten_unwritten _ h)
  · exact runPiece_refused (needWritten_unwritten _ h)
  · exact runPiece_refused (needWritten_unwritten _ h)
  · exact runPiece_refused (if_pos h)

/-- Settles O59: nothing is configured, written, initialized or listed at reset. -/
theorem resetMeetsInvariants : Obligations.ResetMeetsInvariants := by
  intro c
  refine ⟨resetWith_fb_wf c, ⟨fun h => ?_, fun h => ?_⟩, fun a b h _ => ?_, fun h => ?_, fun h => ?_⟩
  · cases h
  · obtain ⟨⟨v, hv⟩, -⟩ := h
    cases hv
  all_goals cases h
end

section
/-!
PROOFS. The framebuffer memory (20_memory.md): its canonical form has one representation for each contents (R54, R34), and every step
keeps the form and the bytes outside the framebuffer (R51, R54).
-/

namespace Sys2Proof.Machine

/-! ## The canonical form is determined by its reads (R54, R34) -/

/-- In a rising list, a listed byte is the one that is found. -/
theorem findCell_of_mem {a : Nat} {v : Byte} {cells : List Host.Cell} (h : Rising cells) (hm : (a, v) ∈ cells) :
    findCell a cells = some v := by
  induction cells with
  | nil => cases hm
  | cons d rest ih =>
    obtain ⟨b, w⟩ := d
    obtain ⟨hb, hr⟩ := List.pairwise_cons.1 h
    simp only [findCell]
    obtain heq | hrest := List.mem_cons.1 hm
    · cases heq
      exact if_pos rfl
    · have hlt : b < a := hb _ hrest
      rw [if_neg (by omega)]
      exact ih hr hrest

theorem Memory.read_of_mem {m : Memory} (h : m.wf) {a : Nat} {v : Byte} (hm : (a, v) ∈ m.cells) : m.read a = v := by
  simp [Memory.read, findCell_of_mem h.1 hm]

/-- A byte that differs from the one at reset is listed. -/
theorem Memory.mem_of_read {m : Memory} {a : Nat} (h : m.read a ≠ m.unlisted a) : (a, m.read a) ∈ m.cells := by
  cases hf : findCell a m.cells with
  | none => exact absurd (by simp [Memory.read, hf]) h
  | some w =>
    have hr : m.read a = w := by simp [Memory.read, hf]
    exact hr ▸ findCell_mem hf

/-- What the canonical form lists, said by reads alone: each address that does not read as it did at reset, with its byte. -/
theorem Memory.mem_cells_iff {m : Memory} (h : m.wf) (a : Nat) (v : Byte) :
    (a, v) ∈ m.cells ↔ m.read a = v ∧ v ≠ m.unlisted a := by
  constructor
  · exact fun hm => ⟨Memory.read_of_mem h hm, h.2 _ hm⟩
  · rintro ⟨rfl, hne⟩
    exact Memory.mem_of_read hne

/-- Rising lists of the same cells are one list. -/
theorem Rising.eq_of_mem_iff {cells cells' : List Host.Cell} (h : Rising cells) (h' : Rising cells')
    (hmem : ∀ c, c ∈ cells ↔ c ∈ cells') : cells = cells' := by
  have irrefl : Std.Irrefl fun p q : Host.Cell => p.1 < q.1 := ⟨fun p => Nat.lt_irrefl p.1⟩
  have antisymm : Std.Antisymm fun p q : Host.Cell => p.1 < q.1 := ⟨fun _ _ hpq hqp => absurd hqp (Nat.lt_asymm hpq)⟩
  exact List.Pairwise.eq_of_mem_iff h h' hmem

/-! ## What a step does to the framebuffer (R51, R54) -/

/-- A framebuffer left as it was is a drawing of nothing. -/
theorem drew_of_fb_eq {s t : State} (h : t.fb = s.fb) : Drew s t := by
  intro hw
  rw [h]
  exact ⟨hw, rfl, fun _ _ _ => rfl⟩

/-- One byte written at a framebuffer index. -/
theorem drew_of_write {s t : State} {index : Nat} {value : Byte} (hi : index < fbSize s.cfg)
    (h : t.fb = s.fb.write index value) : Drew s t := by
  intro hw
  rw [h]
  refine ⟨Memory.write_wf hw _ _, Memory.write_init _ _ _, fun _ n hn => ?_⟩
  rw [Memory.read_write hw, if_neg (by omega)]

/-- Every instruction, whether a host's operation or a piece: the bus leaves the framebuffer alone, INITIALIZE clears it, and the rest
draws. -/
theorem exec_drew {i : Instr} {s t : State} (h : exec i s = .next t) : Drew s t := by
  obtain ⟨es, bus, -⟩ | ⟨c, d, f, -, -, -, -, -, conf⟩ | ⟨a, c, d, es, -, -, -, -, -, init⟩ | ⟨-, drew⟩ := exec_kinds h
  · exact drew_of_fb_eq bus.fb
  · exact drew_of_fb_eq conf.fb
  · exact drew_clear init.fb
  · exact drew

theorem step_drew {s t : State} (h : step s = .next t) : Drew s t := by
  obtain ⟨-, ⟨-, -, rfl⟩ | ⟨op, pos, -, -, rfl⟩ | ⟨op, pos, i, todo, -, -, hexec⟩ | ⟨bytes, acts, i, -, -, -, hexec⟩ |
    ⟨index, value, acts, -, -, hi, rfl⟩⟩ := step_kinds h
  · exact drew_of_fb_eq rfl
  · exact drew_of_fb_eq rfl
  · exact exec_drew (s := { s with seq := .running op pos todo }) hexec
  · exact exec_drew (s := { s with host := acts }) hexec
  · exact drew_of_write hi rfl

end Sys2Proof.Machine

open Sys2Proof.Machine in
/-- Settles O54: every kind of step is a drawing, and a step is only made with a configuration that meets R9. -/
theorem framebufferInvariant : Obligations.FramebufferInvariant := by
  intro s t hw h
  obtain ⟨hc, -⟩ := step_kinds h
  obtain ⟨hwf, hinit, houtside⟩ := step_drew h hw
  exact ⟨hwf, hinit, houtside hc⟩

open Sys2Proof.Machine in
/-- Settles O53: the reads and the reset bytes decide which cells a canonical memory lists, and their order is fixed. -/
theorem equalReadsEqualMemory : Obligations.EqualReadsEqualMemory := by
  intro m n hm hn hinit hread
  have hmem : ∀ c, c ∈ m.cells ↔ c ∈ n.cells := fun ⟨a, v⟩ => by
    rw [Memory.mem_cells_iff hm, Memory.mem_cells_iff hn, hread, Memory.unlisted, Memory.unlisted, hinit]
  have hcells : m.cells = n.cells := Rising.eq_of_mem_iff hm.1 hn.1 hmem
  cases m
  cases n
  cases hinit
  cases hcells
  rfl
end

section
/-!
PROOFS. The encoding (30_encoding.md): each format's decoder reads exactly the encodings of its own rows (R83 to R85, R93, R94, R96,
R105), and the requests whose code or address no operation has are refused (R85, R93).
-/

namespace Sys2Proof

/-! ## Codes that carry an operand (R93, R96) -/

/-- The address is in bits 7 to 1, the direction in bit 0 (R93). -/
theorem addressCode (a : Addr7) :
    (a ++ 0#1).getLsbD 0 = false ∧ (a ++ 0#1).extractLsb' 1 7 = a
      ∧ (a ++ 1#1).getLsbD 0 = true ∧ (a ++ 1#1).extractLsb' 1 7 = a := by
  revert a
  decide

/-- A start-line code matches its row and no row before it, and carries the line (R96). -/
theorem startLineCode (l : BitVec 6) :
    0b01#2 ++ l ≠ 0xAE#8 ∧ (0b01#2 ++ l) &&& 0xC0#8 = 0x40#8 ∧ (0b01#2 ++ l).extractLsb' 0 6 = l := by
  revert l
  decide

/-- A segment remap code matches its row and no row before it, and carries the remap bit (R96). -/
theorem segRemapCode (r : BitVec 1) :
    0b1010000#7 ++ r ≠ 0xAE#8 ∧ (0b1010000#7 ++ r) &&& 0xC0#8 ≠ 0x40#8 ∧ (0b1010000#7 ++ r) &&& 0xFE#8 = 0xA0#8
      ∧ (0b1010000#7 ++ r).extractLsb' 0 1 = r := by
  revert r
  decide

/-- A scan direction code matches its row and no row before it, and carries the direction (R96). -/
theorem comScanCode (d : BitVec 1) :
    0b1100#4 ++ d ++ 0b000#3 ≠ 0xAE#8 ∧ (0b1100#4 ++ d ++ 0b000#3) &&& 0xC0#8 ≠ 0x40#8
      ∧ (0b1100#4 ++ d ++ 0b000#3) &&& 0xFE#8 ≠ 0xA0#8 ∧ (0b1100#4 ++ d ++ 0b000#3) &&& 0xF7#8 = 0xC0#8
      ∧ (0b1100#4 ++ d ++ 0b000#3).extractLsb' 3 1 = d := by
  revert d
  decide

/-- An address byte is its address and its direction. -/
theorem addressCode_of_direction (c : Byte) :
    (c.getLsbD 0 = true → c = c.extractLsb' 1 7 ++ 1#1) ∧ (c.getLsbD 0 = false → c = c.extractLsb' 1 7 ++ 0#1) := by
  revert c
  decide

/-- A code under the pattern of the start-line, segment remap or scan direction row is the code of the operand it carries. -/
theorem commandCode_of_pattern (c : Byte) :
    (c &&& 0xC0 = 0x40 → c = 0b01#2 ++ c.extractLsb' 0 6) ∧ (c &&& 0xFE = 0xA0 → c = 0b1010000#7 ++ c.extractLsb' 0 1)
      ∧ (c &&& 0xF7 = 0xC0 → c = 0b1100#4 ++ c.extractLsb' 3 1 ++ 0b000#3) := by
  revert c
  decide

/-! ## Decoding what was encoded -/

/-- The decoder of an instruction's format finds the row by its code, then reads each operand field back. -/
theorem decode_encode (i : Instr) (rest : List Byte) (h : i.wf = true) :
    decode i.format (encode i ++ rest) = .ok (i, rest) := by
  cases i
  case configure c d f =>
    obtain ⟨hc, hd⟩ : lineFits c = true ∧ lineFits d = true := by simpa [Instr.wf] using h
    simp [Instr.format, encode, decode, decodeOp, takeLine_wordBytes hc, takeLine_wordBytes hd]
  case initDisplay a c d =>
    obtain ⟨hc, hd⟩ : lineFits c = true ∧ lineFits d = true := by simpa [Instr.wf] using h
    simp [Instr.format, encode, decode, decodeOp, takeLine_wordBytes hc, takeLine_wordBytes hd]
  case start | stop | writeByte | readByte | write | writeRegister | clear | flush | setPixel | drawGlyph | drawText | fillRect
      | setContrast | setPower | setInverted =>
    simp [Instr.format, encode, decode, decodeOp]
  case setline l v => cases l <;> simp [Instr.format, encode, decode, decodeUop, lineOf]
  case pinmode id =>
    have hid : lineFits id = true := h
    simp [Instr.format, encode, decode, decodeUop, takeLine_wordBytes hid]
  case sample | delay | powerupWait => simp [Instr.format, encode, decode, decodeUop]
  case addrWrite a | addrRead a =>
    obtain ⟨hw, haw, hr, har⟩ := addressCode a
    simp only [Instr.format, encode, decode, decodeAddr, List.cons_append, List.nil_append, hw, haw, hr, har, if_true,
      Bool.false_eq_true, if_false]
  case ctrlCommand | ctrlDataStream => simp [Instr.format, encode, decode, decodeCtrl]
  case cmdsSetStartLine l =>
    obtain ⟨h1, h2, hl⟩ := startLineCode l
    simp [Instr.format, encode, decode, decodeCmd1, h1, h2, hl]
  case cmdsSegRemap r =>
    obtain ⟨h1, h2, h3, hr⟩ := segRemapCode r
    simp [Instr.format, encode, decode, decodeCmd1, h1, h2, h3, hr]
  case cmdsComScanDir d =>
    obtain ⟨h1, h2, h3, h4, hd⟩ := comScanCode d
    simp [Instr.format, encode, decode, decodeCmd1, h1, h2, h3, h4, hd]
  case cmdsDisplayOff | cmdsDisplayResume | cmdsNormalDisplay | cmdsInvertDisplay | cmdsDisplayOn =>
    simp [Instr.format, encode, decode, decodeCmd1]
  case cmdsSetClockDiv | cmdsSetMultiplex | cmdsSetDisplayOffset | cmdsChargePump | cmdsSetAddrMode | cmdsSetComPins
      | cmdsSetContrast | cmdsSetPrecharge | cmdsSetVcomDetect =>
    simp [Instr.format, encode, decode, decodeCmd2, cmd2Of]
  case cmdsSetColumnAddr | cmdsSetPageAddr => simp [Instr.format, encode, decode, decodeCmd3]

/-! ## What a decoder reads is an encoding -/

/-- If a reader of `bytes` gives an instruction, it is a well-formed one of the format, and `bytes` are its encoding and the bytes
left. -/
def ReadsEncoding (f : Format) (bytes : List Byte) (r : Parse Instr) : Prop :=
  ∀ i rest, r = .ok (i, rest) → i.format = f ∧ i.wf = true ∧ bytes = encode i ++ rest

section
variable {f : Format} {bytes bs : List Byte}

theorem ReadsEncoding.ok {i : Instr} {rest : List Byte} (hf : i.format = f) (hw : i.wf = true) (hb : bytes = encode i ++ rest) :
    ReadsEncoding f bytes (.ok (i, rest)) := by
  intro j r e
  cases e
  exact ⟨hf, hw, hb⟩

theorem ReadsEncoding.error (e : DecodeError) : ReadsEncoding f bytes (.error e) := by
  intro j r h
  cases h

theorem ReadsEncoding.ite {c : Prop} [Decidable c] {p q : Parse Instr} (hp : c → ReadsEncoding f bytes p)
    (hq : ¬ c → ReadsEncoding f bytes q) : ReadsEncoding f bytes (if c then p else q) := by
  split
  · exact hp ‹_›
  · exact hq ‹_›

theorem ReadsEncoding.reading {α : Type} {p : Parse α} {k : α → List Byte → Parse Instr}
    (h : ∀ a rest, p = .ok (a, rest) → ReadsEncoding f bytes (k a rest)) : ReadsEncoding f bytes (followedBy p k) := by
  intro i rest e
  obtain ⟨a, r, hp, hk⟩ := followedBy_eq_ok e
  exact h a r hp i rest hk

theorem ReadsEncoding.byte {k : Byte → List Byte → Parse Instr}
    (h : ∀ b rest, bs = b :: rest → ReadsEncoding f bytes (k b rest)) :
    ReadsEncoding f bytes (followedBy (takeByte bs) k) :=
  .reading fun b rest e => h b rest (takeByte_eq_ok e)

theorem ReadsEncoding.bool {k : Bool → List Byte → Parse Instr}
    (h : ∀ b rest, bs = boolByte b :: rest → ReadsEncoding f bytes (k b rest)) :
    ReadsEncoding f bytes (followedBy (takeBool bs) k) :=
  .reading fun b rest e => h b rest (takeBool_eq_ok e)

theorem ReadsEncoding.addr {k : Addr7 → List Byte → Parse Instr}
    (h : ∀ a rest, bs = a.setWidth 8 :: rest → ReadsEncoding f bytes (k a rest)) :
    ReadsEncoding f bytes (followedBy (takeAddr bs) k) :=
  .reading fun a rest e => h a rest (takeAddr_eq_ok e)

theorem ReadsEncoding.word {k : Word → List Byte → Parse Instr}
    (h : ∀ w rest, bs = wordBytes w ++ rest → ReadsEncoding f bytes (k w rest)) :
    ReadsEncoding f bytes (followedBy (takeWord bs) k) :=
  .reading fun w rest e => h w rest (takeWord_eq_ok e)

theorem ReadsEncoding.line {k : Nat → List Byte → Parse Instr}
    (h : ∀ id rest, lineFits id = true → bs = wordBytes (BitVec.ofNat 32 id) ++ rest → ReadsEncoding f bytes (k id rest)) :
    ReadsEncoding f bytes (followedBy (takeLine bs) k) :=
  .reading fun id rest e => h id rest (takeLine_eq_ok e).1 (takeLine_eq_ok e).2

theorem ReadsEncoding.sequence {k : List Byte → List Byte → Parse Instr}
    (h : ∀ p rest, bs = bytesField p ++ rest → ReadsEncoding f bytes (k p rest)) :
    ReadsEncoding f bytes (followedBy (takeBytes bs) k) :=
  .reading fun p rest e => h p rest (takeBytes_eq_ok e)

theorem ReadsEncoding.text {k : List Word → List Byte → Parse Instr}
    (h : ∀ t rest, bs = textField t ++ rest → ReadsEncoding f bytes (k t rest)) :
    ReadsEncoding f bytes (followedBy (takeText bs) k) :=
  .reading fun t rest e => h t rest (takeText_eq_ok e)

end

/-- Format OP, code by code: the bytes read are the code and the operand fields (R83, R85). -/
theorem decodeOp_readsEncoding (c : Byte) (bs : List Byte) : ReadsEncoding .op (c :: bs) (decodeOp c bs) := by
  unfold decodeOp
  refine .ite (fun hc => .line fun cl b1 hcl h1 => .line fun dl b2 hdl h2 => .word fun w b3 h3 => .ok rfl ?_ ?_) fun _ => ?_
  · simp [Instr.wf, hcl, hdl]
  · simp [hc, h1, h2, h3, encode]
  refine .ite (fun hc => .ok rfl rfl (by simp [hc, encode])) fun _ => ?_
  refine .ite (fun hc => .ok rfl rfl (by simp [hc, encode])) fun _ => ?_
  refine .ite (fun hc => .byte fun b b1 h1 => .ok rfl rfl (by simp [hc, h1, encode])) fun _ => ?_
  refine .ite (fun hc => .bool fun a b1 h1 => .ok rfl rfl (by simp [hc, h1, encode])) fun _ => ?_
  refine .ite (fun hc => .addr fun a b1 h1 => .sequence fun p b2 h2 => .ok rfl rfl (by simp [hc, h1, h2, encode])) fun _ => ?_
  refine .ite (fun hc => .addr fun a b1 h1 => .byte fun r b2 h2 => .sequence fun p b3 h3 => .ok rfl rfl ?_) fun _ => ?_
  · simp [hc, h1, h2, h3, encode]
  refine .ite (fun hc => .addr fun a b1 h1 => .line fun cl b2 hcl h2 => .line fun dl b3 hdl h3 => .ok rfl ?_ ?_) fun _ => ?_
  · simp [Instr.wf, hcl, hdl]
  · simp [hc, h1, h2, h3, encode]
  refine .ite (fun hc => .ok rfl rfl (by simp [hc, encode])) fun _ => ?_
  refine .ite (fun hc => .ok rfl rfl (by simp [hc, encode])) fun _ => ?_
  refine .ite (fun hc => .word fun x b1 h1 => .word fun y b2 h2 => .bool fun on b3 h3 => .ok rfl rfl ?_) fun _ => ?_
  · simp [hc, h1, h2, h3, encode]
  refine .ite (fun hc => .word fun x b1 h1 => .word fun y b2 h2 => .word fun ch b3 h3 => .ok rfl rfl ?_) fun _ => ?_
  · simp [hc, h1, h2, h3, encode]
  refine .ite (fun hc => .word fun x b1 h1 => .word fun y b2 h2 => .text fun t b3 h3 => .ok rfl rfl ?_) fun _ => ?_
  · simp [hc, h1, h2, h3, encode]
  refine .ite (fun hc => .word fun x b1 h1 => .word fun y b2 h2 => .word fun w b3 h3 => .word fun h b4 h4 =>
    .bool fun on b5 h5 => .ok rfl rfl ?_) fun _ => ?_
  · simp [hc, h1, h2, h3, h4, h5, encode]
  refine .ite (fun hc => .byte fun l b1 h1 => .ok rfl rfl (by simp [hc, h1, encode])) fun _ => ?_
  refine .ite (fun hc => .bool fun on b1 h1 => .ok rfl rfl (by simp [hc, h1, encode])) fun _ => ?_
  exact .ite (fun hc => .bool fun on b1 h1 => .ok rfl rfl (by simp [hc, h1, encode])) fun _ => .error _

theorem lineByte_lineOf (b : Bool) : lineByte (lineOf b) = boolByte b := by cases b <;> rfl

/-- Format UOP (R84). -/
theorem decodeUop_readsEncoding (c : Byte) (bs : List Byte) : ReadsEncoding .uop (c :: bs) (decodeUop c bs) := by
  unfold decodeUop
  refine .ite (fun hc => .bool fun l b1 h1 => .bool fun v b2 h2 => .ok rfl rfl ?_) fun _ => ?_
  · simp [hc, h1, h2, encode, lineByte_lineOf]
  refine .ite (fun hc => .ok rfl rfl (by simp [hc, encode])) fun _ => ?_
  refine .ite (fun hc => .ok rfl rfl (by simp [hc, encode])) fun _ => ?_
  refine .ite (fun hc => .line fun id b1 hid h1 => .ok rfl hid (by simp [hc, h1, encode])) fun _ => ?_
  exact .ite (fun hc => .ok rfl rfl (by simp [hc, encode])) fun _ => .error _

/-- Format ADDR (R93): every byte is an address byte. -/
theorem decodeAddr_readsEncoding (c : Byte) (bs : List Byte) : ReadsEncoding .addr (c :: bs) (decodeAddr c bs) := by
  obtain ⟨hread, hwrite⟩ := addressCode_of_direction c
  unfold decodeAddr
  refine .ite (fun hc => .ok rfl rfl ?_) fun hc => .ok rfl rfl ?_
  · exact congrArg (· :: bs) (hread hc)
  · exact congrArg (· :: bs) (hwrite (Bool.eq_false_iff.2 hc))

/-- Format CTRL (R94). -/
theorem decodeCtrl_readsEncoding (c : Byte) (bs : List Byte) : ReadsEncoding .ctrl (c :: bs) (decodeCtrl c bs) := by
  unfold decodeCtrl
  refine .ite (fun hc => .ok rfl rfl (by simp [hc, encode])) fun _ => ?_
  exact .ite (fun hc => .ok rfl rfl (by simp [hc, encode])) fun _ => .error _

/-- Format CMD1 (R96): a fixed code, or a pattern whose free bits are the operand. -/
theorem decodeCmd1_readsEncoding (c : Byte) (bs : List Byte) : ReadsEncoding .cmd1 (c :: bs) (decodeCmd1 c bs) := by
  obtain ⟨hline, hremap, hscan⟩ := commandCode_of_pattern c
  unfold decodeCmd1
  refine .ite (fun hc => .ok rfl rfl (by simp [hc, encode])) fun _ => ?_
  refine .ite (fun hc => .ok rfl rfl (congrArg (· :: bs) (hline hc))) fun _ => ?_
  refine .ite (fun hc => .ok rfl rfl (congrArg (· :: bs) (hremap hc))) fun _ => ?_
  refine .ite (fun hc => .ok rfl rfl (congrArg (· :: bs) (hscan hc))) fun _ => ?_
  refine .ite (fun hc => .ok rfl rfl (by simp [hc, encode])) fun _ => ?_
  refine .ite (fun hc => .ok rfl rfl (by simp [hc, encode])) fun _ => ?_
  refine .ite (fun hc => .ok rfl rfl (by simp [hc, encode])) fun _ => ?_
  exact .ite (fun hc => .ok rfl rfl (by simp [hc, encode])) fun _ => .error _

/-- Which CMD2 row a code is does not depend on the parameter byte. -/
theorem cmd2Of_isSome (c p q : Byte) : (cmd2Of c p).isSome = (cmd2Of c q).isSome := by
  simp only [cmd2Of, apply_ite Option.isSome, Option.isSome_some]

/-- A CMD2 row is encoded by its code and its parameter byte. -/
theorem cmd2Of_eq_some {c p : Byte} {i : Instr} (h : cmd2Of c p = some i) :
    i.format = .cmd2 ∧ i.wf = true ∧ encode i = [c, p] := by
  unfold cmd2Of at h
  split_ifs at h with hc hc hc hc hc hc hc hc hc <;> cases h <;> exact ⟨rfl, rfl, by rw [hc]; rfl⟩

/-- Format CMD2 (R96). -/
theorem decodeCmd2_readsEncoding (c : Byte) (bs : List Byte) : ReadsEncoding .cmd2 (c :: bs) (decodeCmd2 c bs) := by
  unfold decodeCmd2
  cases h0 : cmd2Of c 0 with
  | none => exact .error _
  | some j =>
    cases bs with
    | nil => exact .error _
    | cons p rest =>
      obtain ⟨i, hi⟩ : ∃ i, cmd2Of c p = some i := by
        rw [← Option.isSome_iff_exists, cmd2Of_isSome c p 0, h0, Option.isSome_some]
      obtain ⟨hf, hw, he⟩ := cmd2Of_eq_some hi
      simp only [hi, Option.getD_some]
      exact .ok hf hw (by rw [he]; rfl)

/-- Format CMD3 (R96). -/
theorem decodeCmd3_readsEncoding (c : Byte) (bs : List Byte) : ReadsEncoding .cmd3 (c :: bs) (decodeCmd3 c bs) := by
  unfold decodeCmd3
  refine .ite (fun hc => .byte fun p1 b1 h1 => .byte fun p2 b2 h2 => .ok rfl rfl (by simp [hc, h1, h2, encode])) fun _ => ?_
  exact .ite (fun hc => .byte fun p1 b1 h1 => .byte fun p2 b2 h2 => .ok rfl rfl (by simp [hc, h1, h2, encode])) fun _ => .error _

/-- Every format's decoder reads encodings of its own rows only (R105). -/
theorem decode_readsEncoding (f : Format) (bytes : List Byte) : ReadsEncoding f bytes (decode f bytes) := by
  cases bytes with
  | nil => exact .error _
  | cons c bs =>
    cases f with
    | op => exact decodeOp_readsEncoding c bs
    | uop => exact decodeUop_readsEncoding c bs
    | addr => exact decodeAddr_readsEncoding c bs
    | ctrl => exact decodeCtrl_readsEncoding c bs
    | cmd1 => exact decodeCmd1_readsEncoding c bs
    | cmd2 => exact decodeCmd2_readsEncoding c bs
    | cmd3 => exact decodeCmd3_readsEncoding c bs

/-! ## Requests that name no operation (R85, R93) -/

/-- A code outside the two ranges of R83 is none of the decoder's. -/
theorem decodeOp_illegalCode {c : Byte} (bs : List Byte) (h1 : ¬ (0x01 ≤ c.toNat ∧ c.toNat ≤ 0x07))
    (h2 : ¬ (0x10 ≤ c.toNat ∧ c.toNat ≤ 0x19)) : decodeOp c bs = .error (.illegalCode c) := by
  have ne : ∀ k : Byte, (0x01 ≤ k.toNat ∧ k.toNat ≤ 0x07) ∨ (0x10 ≤ k.toNat ∧ k.toNat ≤ 0x19) → c ≠ k := by
    rintro k hk rfl
    exact hk.elim h1 h2
  simp [decodeOp, ne]

/-- The operations whose first operand is a bus address refuse an address byte of 128 or more (R93, U6). -/
theorem decodeOp_badAddress {c a : Byte} (bs : List Byte) (hc : c = 0x06 ∨ c = 0x07 ∨ c = 0x10) (ha : 128 ≤ a.toNat) :
    decodeOp c (a :: bs) = .error (.badAddress a) := by
  have ht : takeAddr (a :: bs) = .error (.badAddress a) := if_neg (by omega)
  obtain rfl | rfl | rfl := hc
  all_goals simp [decodeOp, ht, followedBy]

theorem decodeRequest_error {c : Byte} {bs : List Byte} {e : DecodeError} (h : decodeOp c bs = .error e) :
    decodeRequest (c :: bs) = .error e := by
  simp [decodeRequest, decode, h]

end Sys2Proof

namespace Sys2Proof.Machine

/-- A request that decodes to nothing is refused by an idle sequencer. -/
theorem step_badRequest {s : State} {bytes : List Byte} {acts : List HostAct} {e : DecodeError} (hc : configOk s.cfg = true)
    (hs : s.seq = .idle) (hh : s.host = .request bytes :: acts) (hd : decodeRequest bytes = .error e) :
    step s = .refused (.badRequest e) := by
  rw [step_of_host hc hh]
  simp [hostAct, hostRequest, Seq.isRunning, hs, hd]

end Sys2Proof.Machine

open Sys2Proof Sys2Proof.Machine

/-- Settles O1: each row's code selects it in its format, and each operand field is read back. -/
theorem decodeOfEncode : Obligations.DecodeOfEncode :=
  decode_encode

/-- Settles O2: branch by branch, each decoder reads a code and operand fields of a row of its format. -/
theorem encodeOfDecode : Obligations.EncodeOfDecode := by
  intro f bytes i rest h
  exact decode_readsEncoding f bytes i rest h

/-- Settles O3: the decoders are run on the twelve words. -/
theorem sampleWordsDecode : Obligations.SampleWordsDecode := by
  unfold Obligations.SampleWordsDecode
  decide

/-- Settles O8: the code is none of format OP, so the request decodes to nothing. -/
theorem illegalCodeRefused : Obligations.IllegalCodeRefused := by
  intro s c bytes acts hc hs hh h1 h2
  exact step_badRequest hc hs hh (decodeRequest_error (decodeOp_illegalCode bytes h1 h2))

/-- Settles O9: the address byte is refused where it is read, so the request decodes to nothing. -/
theorem wideAddressRefused : Obligations.WideAddressRefused := by
  intro s c a bytes acts hc hs hh hop ha
  exact step_badRequest hc hs hh (decodeRequest_error (decodeOp_badAddress bytes hop ha))
end

section
/-!
PROOFS. The encoding on the bus (30_encoding.md): the byte frames and display commands that the pieces send (R93 to R96), and what an
observer of the two wires decodes from the operations of the host (R87 to R92).
-/

namespace Sys2Proof.Machine

/-! ## Pieces (R90, R93 to R96) -/

/-- What an operation delivers is outside every frame and record. -/
theorem BusRun.ret {s t : State} {es : List Event} (h : BusRun s t es) (r : Option Result) : BusRun s { t with ret := r } es :=
  { sclId := h.sclId, sdaId := h.sdaId, delay := h.delay, configured := h.configured, dispAddr := h.dispAddr,
    initialized := h.initialized, fb := h.fb, cfg := h.cfg, host := h.host, trace := h.trace, env := h.env,
    drawn := h.drawn, port := h.port }

theorem Txns.ret {s t : State} {txns : List (List Byte × List Level)} (h : Txns s t txns) (r : Option Result) :
    Txns s { t with ret := r } txns :=
  { toBusRun := h.toBusRun.ret r, acked := h.acked, idle := fun hne => ⟨(h.idle hne).released, (h.idle hne).inTxn⟩,
    none_ := h.none_ }

/-- With the bus ready a byte frame piece sends its byte and delivers whether it was acknowledged (R90, R91). -/
theorem sendFrame_run {s : State} (hs : BusReady s) (b : Byte) :
    ∃ (t : State) (ack : Level), sendFrame b s = .next t ∧ Ends s t (writeByteTrace b ack) false true
      ∧ t.ret = some (.bool (!ack)) := by
  obtain ⟨ack, hack, h⟩ := (Ends.refl s).writeByte b
  refine ⟨_, ack, runPiece_next (busGuard_none.2 hs), ?_, congrArg (some ∘ Result.bool) hack⟩
  exact { toBusRun := h.toBusRun.ret _, sclOut := h.sclOut, sdaOut := h.sdaOut, inTxn := h.inTxn, seq := h.seq }

/-- Every display command has an opcode byte. -/
theorem commandBytes_ne_nil {c : Params} {i : Instr} {bs : List Byte} (h : commandBytes c i = some bs) : bs ≠ [] := by
  cases i <;> cases h
  all_goals exact List.cons_ne_nil _ _

/-- With the display ready a command piece sends one transaction for each of its bytes (R160, R161). -/
theorem sendCommand_run {a : Addr7} {s : State} (hs : DisplayReady a s) {bs : List Byte} (hne : bs ≠ []) :
    ∃ (t : State) (ackss : List (List Level)), sendCommand bs s = .next t ∧ ackss.length = bs.length
      ∧ Txns s t ((bs.map (cmdBytes a)).zip ackss) ∧ BusIdleAfter t ∧ t.ret = none := by
  obtain ⟨hready, haddr⟩ := hs
  obtain ⟨ackss, hlen, h⟩ := sendCmds_txns bs haddr
  have hsent : (bs.map (cmdBytes a)).zip ackss ≠ [] := by
    have := List.length_pos_iff.2 hne
    rw [← List.length_pos_iff, List.length_zip, List.length_map]
    omega
  exact ⟨_, ackss, runPiece_next (cmdGuard_none.2 ⟨⟨a, haddr⟩, hready⟩), hlen, h.ret none, (h.ret none).idle hsent, rfl⟩

/-! ## Operations let through by their guard (R264) -/

section
variable {s : State}

theorem exec_start_next (hs : s.seq = .idle) (hr : BusReady s) :
    exec .start s = .next (returnOp (some (.bool true)) (startBody (beginOp 0x02 s))) :=
  show execStart s = _ from runOp_next hs (busGuard_none.2 hr)

theorem exec_stop_next (hs : s.seq = .idle) (hr : BusReady s) :
    exec .stop s = .next (returnOp none (stopBody (beginOp 0x03 s))) :=
  show execStop s = _ from runOp_next hs (busGuard_none.2 hr)

theorem exec_writeByte_next (hs : s.seq = .idle) (hr : BusReady s) (b : Byte) :
    exec (.writeByte b) s
      = .next (returnOp (some (.bool (writeByteBody b (beginOp 0x04 s)).1)) (writeByteBody b (beginOp 0x04 s)).2) :=
  show execWriteByte b s = _ from runOp_next hs (busGuard_none.2 hr)

theorem exec_readByte_next (hs : s.seq = .idle) (hr : BusReady s) (sendAck : Bool) :
    exec (.readByte sendAck) s
      = .next (returnOp (some (.byte (readByteBody sendAck (beginOp 0x05 s)).1)) (readByteBody sendAck (beginOp 0x05 s)).2) :=
  show execReadByte sendAck s = _ from runOp_next hs (busGuard_none.2 hr)

theorem exec_write_next (hs : s.seq = .idle) (hr : BusReady s) (a : Addr7) (p : List Byte) :
    exec (.write a p) s
      = .next (returnOp (some (.bool (writeBody a p (beginOp 0x06 s)).1)) (writeBody a p (beginOp 0x06 s)).2) :=
  show execWrite a p s = _ from runOp_next hs (busGuard_none.2 hr)

theorem exec_configure_next (hs : s.seq = .idle) {c d : Nat} {f : Word} (hl : LinesUsable s.cfg c d f) :
    exec (.configure c d f) s = .next (returnOp none (configureBody c d f (beginOp 0x01 s))) :=
  show execConfigure c d f s = _ from runOp_next hs (configureGuard_none.2 hl)

end

/-! ## What an observer decodes (R88 to R92) -/

theorem observe_append (w : Wires) (a b : List Event) : observe w (a ++ b) = observe w a ++ observe (observed w a) b := by
  induction a generalizing w with
  | nil => rfl
  | cons e es ih => simp [observe, observed, ih]

theorem observed_append (w : Wires) (a b : List Event) : observed w (a ++ b) = observed (observed w a) b := by
  induction a generalizing w with
  | nil => rfl
  | cons e es ih => exact ih _

/-- An observer who sees events from `w` on decodes these symbols and goes on from `w'`. -/
structure Decodes (w : Wires) (events : List Event) (symbols : List Symbol) (w' : Wires) : Prop where
  symbols : observe w events = symbols
  after   : observed w events = w'

theorem Decodes.nil (w : Wires) : Decodes w [] [] w := ⟨rfl, rfl⟩

theorem Decodes.append {w w' w'' : Wires} {a b : List Event} {p q : List Symbol} (h : Decodes w a p w') (k : Decodes w' b q w'') :
    Decodes w (a ++ b) (p ++ q) w'' :=
  ⟨by rw [observe_append, h.after, h.symbols, k.symbols], by rw [observed_append, h.after, k.after]⟩

/-- The wires between two bit cells: the clock low, the data wire at `y`, no pulse in progress. -/
def clockLow (y : Level) : Wires := ⟨false, y, none⟩

/-- A bit cell is one clock pulse; it carries the level sampled in it, and the level of the data wire if there is no SAMPLE
(R89, R117). -/
theorem cellTrace_decodes (y : Level) (data sampled : Option Level) :
    Decodes (clockLow y) (cellTrace data sampled) [.bit (sampled.getD (data.getD y))] (clockLow (data.getD y)) := by
  cases data with
  | none => cases sampled <;> exact ⟨rfl, rfl⟩
  | some v =>
    constructor
    · cases sampled <;> cases y <;> cases v <;> rfl
    · cases sampled <;> cases y <;> cases v <;> rfl

/-- The bits n-1 down to 0 of a byte, the highest first (R90). -/
def bitSymbols (b : Byte) : Nat → List Symbol
  | 0 => []
  | n + 1 => .bit (b.getLsbD n) :: bitSymbols b n

theorem frameSymbols_eq (b : Byte) (ack : Level) : frameSymbols b ack = bitSymbols b 8 ++ [.bit ack] := rfl

/-- The data cells of a byte carry its bits. -/
theorem bitsTrace_decodes (y : Level) (b : Byte) (n : Nat) :
    ∃ z, Decodes (clockLow y) (bitsTrace b n) (bitSymbols b n) (clockLow z) := by
  induction n generalizing y with
  | zero => exact ⟨y, .nil _⟩
  | succ n ih =>
    obtain ⟨z, h⟩ := ih (b.getLsbD n)
    exact ⟨z, (cellTrace_decodes y (some (b.getLsbD n)) none).append h⟩

/-- The reading cells of a byte carry the bits that were sampled. -/
theorem readBitsTrace_decodes (y : Level) (v : Byte) (n : Nat) :
    ∃ z, Decodes (clockLow y) (readBitsTrace v n) (bitSymbols v n) (clockLow z) := by
  induction n generalizing y with
  | zero => exact ⟨y, .nil _⟩
  | succ n ih =>
    obtain ⟨z, h⟩ := ih ((if n = 7 then some true else none : Option Level).getD y)
    exact ⟨z, (cellTrace_decodes y (if n = 7 then some true else none) (some (v.getLsbD n))).append h⟩

/-- WRITE_BYTE: the byte, then the acknowledgment that was sampled (R90, R91). -/
theorem writeByteTrace_decodes (y : Level) (b : Byte) (ack : Level) :
    Decodes (clockLow y) (writeByteTrace b ack) (frameSymbols b ack) (clockLow true) := by
  obtain ⟨z, h⟩ := bitsTrace_decodes y b 8
  exact h.append (cellTrace_decodes z (some true) (some ack))

/-- READ_BYTE: the byte, then the acknowledgment that is sent, and a release that carries nothing (R90, R91, R139). -/
theorem readByteTrace_decodes (y : Level) (v : Byte) (sendAck : Bool) :
    Decodes (clockLow y) (readByteTrace v sendAck) (frameSymbols v (!sendAck)) (clockLow true) := by
  obtain ⟨z, h⟩ := readBitsTrace_decodes y v 8
  have release : Decodes (clockLow (!sendAck)) [.setline .sda true, .delay] [] (clockLow true) := by
    cases sendAck <;> exact ⟨rfl, rfl⟩
  have k := (h.append (cellTrace_decodes z (some (!sendAck)) none)).append release
  rw [List.append_nil] at k
  exact k

/-- Byte frames one after the other (R92). -/
theorem framesTrace_decodes (y : Level) (frames : List (Byte × Level)) :
    ∃ z, Decodes (clockLow y) (framesTrace frames) (frames.flatMap fun f => frameSymbols f.1 f.2) (clockLow z) := by
  induction frames generalizing y with
  | nil => exact ⟨y, .nil _⟩
  | cons f fs ih =>
    obtain ⟨z, h⟩ := ih true
    exact ⟨z, (writeByteTrace_decodes y f.1 f.2).append h⟩

/-- START as an observer sees it from any latches (R88): a START, after a STOP if SDA was low on a high clock. -/
theorem startTrace_decodes (scl sda : Level) :
    Decodes ⟨scl, sda, none⟩ startTrace ((if scl && !sda then [.stop] else []) ++ [.start]) (clockLow false) := by
  cases scl <;> cases sda <;> exact ⟨rfl, rfl⟩

/-- STOP as an observer sees it from any latches (R88): a STOP, after a START if both lines were high. -/
theorem stopTrace_decodes (scl sda : Level) :
    Decodes ⟨scl, sda, none⟩ stopTrace ((if scl && sda then [.start] else []) ++ [.stop]) ⟨true, true, none⟩ := by
  cases scl <;> cases sda <;> exact ⟨rfl, rfl⟩

/-- CONFIGURE as an observer sees it from any latches (R88): a STOP if SDA was low. -/
theorem configureTrace_observe (scl sda : Level) (c d : Nat) :
    observe ⟨scl, sda, none⟩ (configureTrace c d) = if sda then [] else [.stop] := by
  cases scl <;> cases sda <;> rfl

/-- A transaction from released lines: one START, its byte frames, one STOP (R92). -/
theorem txnTrace_decodes (bytes : List Byte) (acks : List Level) :
    Decodes ⟨true, true, none⟩ (txnTrace bytes acks) (txnSymbols (bytes.zip acks)) ⟨true, true, none⟩ := by
  obtain ⟨z, h⟩ := framesTrace_decodes false (bytes.zip acks)
  exact ((startTrace_decodes true true).append h).append (stopTrace_decodes false z)

/-! ## On the wires (R87, R275) -/

/-- Events without a SAMPLE show on released wires what an observer of the trace decodes, and no framing symbol on a held wire. -/
theorem shows_of_silent {s : State} {events : List Event} {symbols : List Symbol} (x : Surroundings) (hs : samplesOf events = [])
    (h : observe (watch s) events = symbols) : Shows s x events symbols :=
  { traced := h
    released := fun hscl hsda => (Bus.seen_released events (b := busOf s x) ⟨hscl, hsda⟩ hs).trans h
    stuck := fun hpad hheld => Bus.seen_stuck events (b := busOf s x) hpad hheld }

end Sys2Proof.Machine

open Sys2Proof Sys2Proof.Machine

/-- Settles O29: the row sends the byte frame of its byte. -/
theorem framePieces : Obligations.FramePieces := by
  intro i b s hb hs
  obtain ⟨t, ack, hexec, h, hret⟩ := sendFrame_run hs b
  exact ⟨t, ack, (exec_of_frameByte hb s).trans hexec, h.toBusRun, hret, h.sclOut, h.sdaOut, h.inTxn⟩

/-- Settles O41: the row sends its command bytes, at least the opcode, each in a transaction of its own. -/
theorem commandPieces : Obligations.CommandPieces := by
  intro a i bytes s hbytes hs
  obtain ⟨t, ackss, hexec, h⟩ := sendCommand_run hs (commandBytes_ne_nil hbytes)
  exact ⟨t, ackss, (exec_of_commandBytes hbytes).trans hexec, h⟩

/-- Settles O30: the trace of each of the three, as an observer sees it from the latches at entry. -/
theorem framingSymbols : Obligations.FramingSymbols := by
  intro s x hs
  refine ⟨fun hready => ⟨?_, ?_⟩, fun c d f hlines => ?_⟩
  · exact ⟨_, startTrace, exec_start_next hs hready, (startBody_ends (beginOp 0x02 s)).trace,
      shows_of_silent x rfl (startTrace_decodes s.sclOut s.sdaOut).symbols⟩
  · exact ⟨_, stopTrace, exec_stop_next hs hready, (stopBody_ends (beginOp 0x03 s)).trace,
      shows_of_silent x rfl (stopTrace_decodes s.sclOut s.sdaOut).symbols⟩
  · exact ⟨_, configureTrace c d, exec_configure_next hs hlines,
      (configureBody_configured c d f (beginOp 0x01 s)).record.trace,
      shows_of_silent x rfl (configureTrace_observe s.sclOut s.sdaOut c d)⟩

/-- Settles O31: with the clock low each cell of a byte is one clock pulse, so each is one bit. -/
theorem bytesOnTheWire : Obligations.BytesOnTheWire := by
  intro s hs hready hscl
  have hwatch : watch s = clockLow s.sdaOut := by simp [watch, clockLow, hscl]
  rw [hwatch]
  refine ⟨fun b => ?_, fun sendAck => ?_⟩
  · obtain ⟨ack, hack, h⟩ := (Ends.refl (beginOp 0x04 s)).writeByte b
    exact ⟨_, writeByteTrace b ack, ack, exec_writeByte_next hs hready b, h.trace, congrArg (some ∘ Result.bool) hack,
      (writeByteTrace_decodes s.sdaOut b ack).symbols⟩
  · have h := (Ends.refl (beginOp 0x05 s)).readByte sendAck
    exact ⟨_, _, _, exec_readByte_next hs hready sendAck, h.trace, rfl, (readByteTrace_decodes s.sdaOut _ sendAck).symbols⟩

/-- Settles O32: WRITE's trace is that of one transaction, seen from released lines. -/
theorem transactionOnTheWire : Obligations.TransactionOnTheWire := by
  intro a p s hs hready ⟨hscl, hsda⟩
  have hwatch : watch s = ⟨true, true, none⟩ := by simp [watch, hscl, hsda]
  rw [hwatch]
  obtain ⟨acks, hack, h⟩ := writeBody_txn a p (beginOp 0x06 s)
  exact ⟨_, _, acks, exec_write_next hs hready a p, h.ends.trace, congrArg (some ∘ Result.bool) hack, h.acked,
    (txnTrace_decodes _ acks).symbols⟩
end

section
/-!
PROOFS. The micro-operations (40_line_primitives.md): what each one records, drives and leaves unchanged (R111, R113, R114, R116), and that
every operation of the host spaces its SETLINEs by DELAYs (R118).
-/

namespace Sys2Proof.Machine

/-! ## Register Access writes no working register (R56, R24) -/

theorem pinActs_work (acts : List PinAct) (s : State) : (pinActs acts s).work = s.work := by
  obtain ⟨more, n, h⟩ := pinActs_eq acts s
  rw [h]

theorem setLine_work (l : Line) (v : Level) (s : State) : (setLine l v s).work = s.work := by
  obtain ⟨more, n, h⟩ := driveLine_eq l v s
  simp [setLine, h]

/-- SETLINE's accesses are those of the line's PinMap entry (R57, R111). -/
theorem setLine_port {l : Line} {s : State} {id : Nat} (hid : lineId l s = .written id) (v : Level) :
    (setLine l v s).port = (pinActs (levelActs (pinEntry s.cfg id) v) s).port := by
  simp [setLine, driveLine, hid]

theorem levelActs_ne_nil (p : PinEntry) (v : Level) : levelActs p v ≠ [] := by
  cases v <;> simp [levelActs]

/-- A run of one micro-operation advances the position of an operation in progress by one (R25). -/
theorem Ends.position {s t : State} {e : Event} {x y : Level} (h : Ends s t [e] x y) {op : Byte} {pos : Nat} {todo : List Instr}
    (hs : s.seq = .running op pos todo) : t.seq = .running op (pos + 1) todo := by
  rw [h.seq, hs]
  rfl

/-- The one word a SAMPLE reads, its level, and everything it changes (R113). -/
theorem sample_of_written {s : State} {id : Nat} (hid : s.sdaId = .written id) :
    sample s = (sdaLevel s, emit (.sample (sdaLevel s))
      { s with env := s.env.drop 1, draws := s.draws + 1,
               port := s.port ++ [.read (wordAddr (pinEntry s.cfg id).inAddr) (sampleWord id s)] }) := by
  simp only [sample, hid, sampleWord_bit]

/-! ## Micro-operations let through by their guard (R264) -/

section
variable {s : State}

theorem exec_setline_next {l : Line} (hw : Written (lineId l s)) (v : Level) :
    exec (.setline l v) s = .next { setLine l v s with ret := none } := by
  cases l with
  | scl => exact runPiece_next (needWritten_none.2 hw)
  | sda => exact runPiece_next (needWritten_none.2 hw)

theorem exec_sample_next (hw : Written s.sdaId) :
    exec .sample s = .next { (sample s).2 with ret := some (.level (sample s).1) } :=
  show execSample s = _ from runPiece_next (needWritten_none.2 hw)

theorem exec_delay_next (hw : Written s.delay) : exec .delay s = .next { delayOp s with ret := none } :=
  show execDelay s = _ from runPiece_next (needWritten_none.2 hw)

theorem exec_pinmode_next {id : Nat} (hid : id < s.cfg.pinCount) :
    exec (.pinmode id) s = .next { pinMode id s with ret := none } :=
  show execPinmode id s = _ from runPiece_next (if_neg (Nat.not_le.2 hid))

theorem exec_powerupWait_next : exec .powerupWait s = .next { powerupWaitOp s with ret := none } :=
  show execPowerupWait s = _ from runPiece_next rfl

end

/-! ## Spaced traces (R118) -/

/-- A trace that ends with no DELAY owed may be followed by any spaced trace. -/
theorem spaced_append {owed : Bool} {a b : List Event} (ha : spaced owed a = true) (hb : spaced false b = true) :
    spaced owed (a ++ b) = true := by
  induction a generalizing owed with
  | nil =>
    obtain rfl : owed = false := by simpa [spaced] using ha
    exact hb
  | cons e es ih =>
    cases e with
    | setline l v =>
      obtain ⟨h, hs⟩ : owed = false ∧ spaced true es = true := by simpa [spaced] using ha
      simp [spaced, h, ih hs]
    | sample v => exact ih (owed := owed) ha
    | delay => exact ih (owed := false) ha
    | pinmode id => exact ih (owed := owed) ha
    | powerupWait => exact ih (owed := owed) ha

theorem spaced_flatMap {α : Type} {f : α → List Event} (hf : ∀ x, spaced false (f x) = true) (xs : List α) :
    spaced false (xs.flatMap f) = true := by
  induction xs with
  | nil => rfl
  | cons x xs ih => exact spaced_append (hf x) ih

theorem cellTrace_spaced (data sampled : Option Level) : spaced false (cellTrace data sampled) = true := by
  cases data <;> cases sampled <;> rfl

theorem bitsTrace_spaced (b : Byte) (n : Nat) : spaced false (bitsTrace b n) = true := by
  induction n with
  | zero => rfl
  | succ n ih => exact spaced_append (cellTrace_spaced _ _) ih

theorem readBitsTrace_spaced (v : Byte) (n : Nat) : spaced false (readBitsTrace v n) = true := by
  induction n with
  | zero => rfl
  | succ n ih => exact spaced_append (cellTrace_spaced _ _) ih

theorem writeByteTrace_spaced (b : Byte) (ack : Level) : spaced false (writeByteTrace b ack) = true :=
  spaced_append (bitsTrace_spaced b 8) (cellTrace_spaced _ _)

theorem readByteTrace_spaced (v : Byte) (sendAck : Bool) : spaced false (readByteTrace v sendAck) = true :=
  spaced_append (spaced_append (readBitsTrace_spaced v 8) (cellTrace_spaced _ _)) rfl

theorem framesTrace_spaced (frames : List (Byte × Level)) : spaced false (framesTrace frames) = true :=
  spaced_flatMap (fun f : Byte × Level => writeByteTrace_spaced f.1 f.2) frames

theorem txnTrace_spaced (bytes : List Byte) (acks : List Level) : spaced false (txnTrace bytes acks) = true :=
  spaced_append (spaced_append (a := startTrace) rfl (framesTrace_spaced _)) rfl

theorem txnsTrace_spaced (txns : List (List Byte × List Level)) : spaced false (txnsTrace txns) = true :=
  spaced_flatMap (fun x : List Byte × List Level => txnTrace_spaced x.1 x.2) txns

/-! ## The trace of an operation is spaced (R118) -/

/-- The events appended to the trace from `s` to `t` are spaced. -/
def AppendsSpaced (s t : State) : Prop := ∃ events, t.trace = s.trace ++ events ∧ spaced false events = true

/-- A drawing appends no event (R213). -/
theorem Drawn.appendsSpaced {s t : State} {f : Int → Int → Bool → Bool} (h : Drawn s t f) : AppendsSpaced s t := by
  obtain ⟨w, e⟩ := h.rest
  exact ⟨[], by rw [e, List.append_nil], rfl⟩

theorem Txns.appendsSpaced {s t : State} {txns : List (List Byte × List Level)} (h : Txns s t txns) : AppendsSpaced s t :=
  ⟨_, h.trace, txnsTrace_spaced txns⟩

/-- Beginning and returning append no event (R81). -/
theorem runOp_appendsSpaced {opc : Byte} {guard : Option Refusal} {body : State → Option Result × State} {s t : State}
    (h : runOp opc guard body s = .next t) (hbody : guard = none → AppendsSpaced (beginOp opc s) (body (beginOp opc s)).2) :
    AppendsSpaced s t := by
  obtain ⟨-, hg, rfl⟩ := runOp_eq_next h
  exact hbody hg

/-- An operation let through by the display guard has an address to send to (R175). -/
theorem sendCmds_appendsSpaced {s : State} (hg : displayGuard s = none) (opc : Byte) (bs : List Byte) :
    AppendsSpaced (beginOp opc s) (sendCmds bs (beginOp opc s)) := by
  obtain ⟨-, ⟨a, ha⟩, -⟩ := displayGuard_none.1 hg
  obtain ⟨ackss, -, k⟩ := sendCmds_txns bs (s := beginOp opc s) ha
  exact k.appendsSpaced

/-- Row by row of format OP: the trace is the one its body is known to leave, and a drawing leaves none. -/
theorem exec_op_appendsSpaced {i : Instr} {s t : State} (hop : i.format = .op) (h : exec i s = .next t) : AppendsSpaced s t := by
  cases i
  all_goals dsimp only [exec] at h
  case configure c d f =>
    exact runOp_appendsSpaced h fun _ => ⟨_, (configureBody_configured c d f _).record.trace, rfl⟩
  case start => exact runOp_appendsSpaced h fun _ => ⟨_, (startBody_ends _).trace, rfl⟩
  case stop => exact runOp_appendsSpaced h fun _ => ⟨_, (stopBody_ends _).trace, rfl⟩
  case writeByte b =>
    refine runOp_appendsSpaced h fun _ => ?_
    obtain ⟨ack, -, k⟩ := (Ends.refl (beginOp 0x04 s)).writeByte b
    exact ⟨_, k.trace, writeByteTrace_spaced b ack⟩
  case readByte sendAck =>
    exact runOp_appendsSpaced h fun _ => ⟨_, ((Ends.refl _).readByte sendAck).trace, readByteTrace_spaced _ sendAck⟩
  case write a p =>
    refine runOp_appendsSpaced h fun _ => ?_
    obtain ⟨acks, -, k⟩ := writeBody_txn a p (beginOp 0x06 s)
    exact k.txns.appendsSpaced
  case writeRegister a r p =>
    refine runOp_appendsSpaced h fun _ => ?_
    obtain ⟨acks, -, k⟩ := writeRegisterBody_txn a r p (beginOp 0x07 s)
    exact k.txns.appendsSpaced
  case initDisplay a c d =>
    refine runOp_appendsSpaced h fun _ => ?_
    obtain ⟨ackss, acks, txns, -, -, -, k⟩ := initializeBody_spec a c d (beginOp 0x10 s)
    exact ⟨_, k.record.trace, spaced_append (a := configureTrace c d ++ [.powerupWait]) rfl (txnsTrace_spaced txns)⟩
  case clear => exact runOp_appendsSpaced h fun _ => ⟨[], (List.append_nil _).symm, rfl⟩
  case flush =>
    refine runOp_appendsSpaced h fun hg => ?_
    obtain ⟨-, ⟨a, ha⟩, -⟩ := displayGuard_none.1 hg
    obtain ⟨ackss, acks, -, k⟩ := flushBody_txns (s := beginOp 0x12 s) ha
    exact k.appendsSpaced
  case setPixel x y on => exact runOp_appendsSpaced h fun _ => (setPixel_drawn _ _ on _).appendsSpaced
  case drawGlyph x y ch => exact runOp_appendsSpaced h fun _ => (drawGlyph_drawn _ _ ch _).appendsSpaced
  case drawText x y text => exact runOp_appendsSpaced h fun _ => (drawText_drawn _ _ text _).appendsSpaced
  case fillRect x y w k on => exact runOp_appendsSpaced h fun _ => (fillRect_drawn _ _ _ _ on _).appendsSpaced
  case setContrast l => exact runOp_appendsSpaced h fun hg => sendCmds_appendsSpaced hg _ _
  case setPower on => exact runOp_appendsSpaced h fun hg => sendCmds_appendsSpaced hg _ _
  case setInverted on => exact runOp_appendsSpaced h fun hg => sendCmds_appendsSpaced hg _ _
  all_goals cases hop

end Sys2Proof.Machine

open Sys2Proof Sys2Proof.Machine

/-- Settles O12: the line's PinMap entry is written to, then the latch and the event. -/
theorem setlineEffect : Obligations.SetlineEffect := by
  intro l v s id hid
  have k := setLine_ends l v s
  have hport := setLine_port hid v
  obtain ⟨accesses, happend, hwrite, haddr⟩ := pinActs_port (levelActs (pinEntry s.cfg id) v) s
  exact ⟨_, accesses, exec_setline_next ⟨id, hid⟩ v, k.sclOut, k.sdaOut, k.toBusRun.ret none, k.inTxn, setLine_work l v s, rfl,
    fun _ _ _ => k.position, hport, hport.trans happend, hwrite (levelActs_ne_nil _ v), haddr⟩

/-- Settles O13: the sampled bit of the word read is the level of the data wire, which the latch and the contribution decide. -/
theorem sampleEffect : Obligations.SampleEffect := by
  intro s id hid
  have hexec := exec_sample_next ⟨id, hid⟩
  rw [sample_of_written hid] at hexec
  refine ⟨_, sdaLevel s, sampleWord id s, hexec, rfl, rfl, rfl, sampleWord_bit id s, rfl, fun hlow => ?_,
    fun l rest henv => ⟨fun hpad => ?_, fun hl => ?_⟩, ⟨rfl, rfl, rfl, rfl, rfl, rfl, rfl, rfl, rfl⟩, rfl, rfl, rfl, rfl, rfl,
    fun op pos todo hs => congrArg Seq.advance hs⟩
  · rw [sdaLevel, hlow, wireLevel_low]
  · simp [sdaLevel, wireLevel, envLevel, henv, hpad]
  · simp [sdaLevel, envLevel, henv, hl, wireLevel_released]

/-- Settles O14: each of the three runs one micro-operation that records its event and leaves the block as it is. -/
theorem silentMicroOperations : Obligations.SilentMicroOperations := by
  rintro i e s (⟨rfl, rfl, hw⟩ | ⟨id, rfl, rfl, hid⟩ | ⟨rfl, rfl⟩)
  · have k := delayOp_ends s
    exact ⟨_, exec_delay_next hw, k.toBusRun.ret none, k.sclOut, k.sdaOut, k.inTxn, rfl, rfl, .inl rfl, nofun,
      fun _ _ _ => k.position⟩
  · have k := pinMode_ends id s
    exact ⟨_, exec_pinmode_next hid, k.toBusRun.ret none, k.sclOut, k.sdaOut, k.inTxn, pinActs_work _ s, rfl, .inr ⟨id, rfl⟩,
      by rintro _ ⟨⟩; rfl, fun _ _ _ => k.position⟩
  · have k := powerupWaitOp_ends s
    exact ⟨_, exec_powerupWait_next, k.toBusRun.ret none, k.sclOut, k.sdaOut, k.inTxn, rfl, rfl, .inl rfl, nofun,
      fun _ _ _ => k.position⟩

/-- Settles O33: every operation's trace is put together from traces that end in a DELAY after their last SETLINE. -/
theorem spacingInvariant : Obligations.SpacingInvariant := by
  intro i s t hop h
  exact exec_op_appendsSpaced hop h
end

section
/-!
PROOFS. The bus master (41_bus_master.md): what each of its seven operations leaves (R130 to R143), what the acknowledgments of the
environment decide of a WRITE (R141), how many SETLINEs an operation performs at most (R145, R276), and that the environment changes
nothing but sampled levels (R144).
-/

namespace Sys2Proof.Machine

/-! ## CONFIGURE (R130 to R133) -/

/-- Beginning and returning are outside what CONFIGURE leaves. -/
theorem Configured.op {c : Byte} {s t : State} {cl dl : Nat} {f : Word} (h : Configured (beginOp c s) t cl dl f)
    (r : Option Result) : Configured s (returnOp r t) cl dl f :=
  { record := ⟨h.record.trace, h.record.env, h.record.drawn, h.record.port⟩, sclId := h.sclId, sdaId := h.sdaId,
    delay := h.delay, configured := h.configured, sclOut := h.sclOut, sdaOut := h.sdaOut, inTxn := h.inTxn,
    dispAddr := h.dispAddr, initialized := h.initialized, fb := h.fb, cfg := h.cfg, host := h.host }

theorem delayConstant_toNat (c : Params) (f : Word) : (delayConstant c f).toNat = c.assumedClockHz.toNat / f.toNat / 4 := by
  simp [delayConstant]

theorem exec_configure_refused {c d : Nat} {f : Word} {s : State} {r : Refusal} (hs : s.seq = .idle)
    (hg : configureGuard s.cfg c d f = some r) : exec (.configure c d f) s = .refused r :=
  show execConfigure c d f s = _ from runOp_refused hs hg

/-! ## The bus stays ready (R29) -/

/-- A bus operation leaves the bus as ready as it was. -/
theorem BusFrame.busReady {s t : State} (h : BusFrame s t) (hr : BusReady s) : BusReady t := by
  unfold BusReady
  rw [h.configured, h.sclId, h.sdaId, h.delay]
  exact hr

theorem BusFrame.symm {s t : State} (h : BusFrame s t) : BusFrame t s :=
  ⟨h.sclId.symm, h.sdaId.symm, h.delay.symm, h.configured.symm, h.dispAddr.symm, h.initialized.symm, h.fb.symm, h.cfg.symm,
    h.host.symm⟩

/-- An operation whose body ends with the lines released and no transaction leaves the bus idle (R143). -/
theorem TxnEnds.idleAfter_returnOp {s t : State} {es : List Event} (h : TxnEnds s t es true true false) (r : Option Result) :
    BusIdleAfter (returnOp r t) := ⟨⟨h.sclOut, h.sdaOut⟩, h.inTxn⟩

/-! ## Counts of a byte transfer (R145) -/

theorem framesTrace_singleton (b : Byte) (ack : Level) : framesTrace [(b, ack)] = writeByteTrace b ack :=
  List.append_nil _

theorem setlines_writeByteTrace (b : Byte) (ack : Level) : setlines (writeByteTrace b ack) = 27 :=
  framesTrace_singleton b ack ▸ setlines_framesTrace [(b, ack)]

theorem delays_writeByteTrace (b : Byte) (ack : Level) : delays (writeByteTrace b ack) = 36 :=
  framesTrace_singleton b ack ▸ delays_framesTrace [(b, ack)]

theorem samples_writeByteTrace (b : Byte) (ack : Level) : samples (writeByteTrace b ack) = 1 :=
  congrArg List.length (samplesOf_writeByteTrace b ack)

theorem setlines_readByteTrace (v : Byte) (sendAck : Bool) : setlines (readByteTrace v sendAck) = 21 := rfl

theorem delays_readByteTrace (v : Byte) (sendAck : Bool) : delays (readByteTrace v sendAck) = 37 := rfl

/-- READ_BYTE samples the bits of its byte, bit 7 first (R139). -/
theorem samplesOf_readByteTrace (v : Byte) (sendAck : Bool) :
    samplesOf (readByteTrace v sendAck) = (List.range 8).map fun n => v.getLsbD (7 - n) := rfl

theorem samples_readByteTrace (v : Byte) (sendAck : Bool) : samples (readByteTrace v sendAck) = 8 := rfl

/-! ## What a run samples from released lines (R113) -/

/-- Under open_drain, sample n of a run is the environment's contribution n, while the contributions last. -/
theorem Recorded.sampled_eq {s t : State} {es : List Event} (h : Recorded s t es) (hp : s.cfg.padMode = .openDrain) {n : Nat}
    (hs : n < samples es) (he : n < s.env.length) : (samplesOf es)[n]? = s.env[n]? := by
  rw [← List.getElem?_take_of_lt he, h.drawn hp, List.getElem?_take_of_lt hs]

/-! ## WRITE_REGISTER is WRITE (R142) -/

theorem Alike.setK_right {s t : State} (h : Alike s t) (k : Nat) : Alike s (setK k t) := by
  obtain ⟨q, w, rfl⟩ := h
  exact ⟨q, _, rfl⟩

theorem beginOp_alike (c c' : Byte) (s : State) : Alike (beginOp c s) (beginOp c' s) := ⟨_, _, rfl⟩

/-- The register selector is sent as the first payload byte would be; only the working registers can tell the two apart. -/
theorem writeRegisterBody_alike (a : Addr7) (r : Byte) (p : List Byte) {s t : State} (h : Alike s t) :
    AlikeResult (writeRegisterBody a r p s) (writeBody a (r :: p) t) := by
  have ha := h.startBody.writeByte (addrByte a 0)
  have hr := (ha.2.setK_right 0).writeByte r
  simp only [writeRegisterBody, writeBody, sendPayload, ha.1, hr.1]
  split
  · split
    · exact ⟨(hr.2.sendPayload p 0 1).1, (hr.2.sendPayload p 0 1).2.stopBody⟩
    · exact ⟨rfl, hr.2.stopBody⟩
  · exact ⟨rfl, ha.2.stopBody⟩

/-- Operations with one guard and alike bodies have one outcome. -/
theorem runOp_congr {opc opc' : Byte} {guard : Option Refusal} {body body' : State → Option Result × State} {s : State}
    (h : AlikeResult (body (beginOp opc s)) (body' (beginOp opc' s))) : runOp opc guard body s = runOp opc' guard body' s := by
  simp only [runOp, h.1, h.2.returnOp]

/-! ## What the environment's answers decide (R141) -/

/-- The levels sampled in a transaction are the environment's answers to its bytes, up to the first NAK. -/
theorem stopsAtNak_unique {bytes : List Byte} {acks answers rest : List Level} (h : stopsAtNak bytes acks = true)
    (k : stopsAtNak bytes answers = true)
    (hdrawn : acks.take (answers ++ rest).length = (answers ++ rest).take acks.length) : acks = answers := by
  induction bytes generalizing acks answers with
  | nil =>
    obtain rfl : acks = [] := by simpa [stopsAtNak] using h
    simpa [stopsAtNak] using k.symm
  | cons b bytes ih =>
    cases acks with
    | nil => simp [stopsAtNak] at h
    | cons x acks =>
      cases answers with
      | nil => simp [stopsAtNak] at k
      | cons y answers =>
        obtain ⟨rfl, htail⟩ : x = y ∧ acks.take (answers ++ rest).length = (answers ++ rest).take acks.length := by
          simpa using hdrawn
        cases x with
        | true =>
          obtain rfl : acks = [] := by simpa [stopsAtNak] using h
          obtain rfl : answers = [] := by simpa [stopsAtNak] using k
          rfl
        | false =>
          rw [stopsAtNak_cons_ack] at h k
          rw [ih h k htail]

/-- Every byte acknowledged: one level 0 for each. -/
theorem stopsAtNak_allAcknowledged (bytes : List Byte) : stopsAtNak bytes (List.replicate bytes.length false) = true := by
  induction bytes with
  | nil => rfl
  | cons b bytes ih => exact ih

/-- The abort at byte j: j bytes acknowledged and the next one not. -/
theorem stopsAtNak_abort {bytes : List Byte} {j : Nat} (h : j < bytes.length) :
    stopsAtNak bytes (List.replicate j false ++ [true]) = true := by
  induction bytes generalizing j with
  | nil => cases h
  | cons b bytes ih =>
    cases j with
    | zero => rfl
    | succ j => exact ih (Nat.lt_of_succ_lt_succ h)

/-- Under open_drain the environment's answers to WRITE's bytes decide its trace and its result. -/
theorem exec_write_answered {a : Addr7} {p : List Byte} {answers rest : List Level} {s : State} (hs : s.seq = .idle)
    (hr : BusReady s) (hp : s.cfg.padMode = .openDrain) (hk : stopsAtNak ((a ++ 0#1) :: p) answers = true)
    (he : s.env = answers ++ rest) :
    ∃ t, exec (.write a p) s = .next t ∧ t.trace = s.trace ++ txnTrace ((a ++ 0#1) :: p) answers
      ∧ t.ret = some (.bool (allAcked answers)) ∧ BusIdleAfter t ∧ t.env = rest := by
  obtain ⟨acks, hack, h⟩ := writeBody_txn a p (beginOp 0x06 s)
  have hsampled := samplesOf_txnTrace (stopsAtNak_length h.acked)
  have hdrawn := h.ends.drawn hp
  have henv := h.ends.env
  rw [samples, hsampled] at hdrawn henv
  change acks.take s.env.length = s.env.take acks.length at hdrawn
  change _ = s.env.drop acks.length at henv
  rw [he] at hdrawn henv
  obtain rfl := stopsAtNak_unique h.acked hk hdrawn
  rw [List.drop_left] at henv
  exact ⟨_, exec_write_next hs hr a p, h.ends.trace, congrArg (some ∘ Result.bool) hack, h.ends.idleAfter_returnOp _, henv⟩

/-- A transaction that was stopped sent only the bytes that have an acknowledgment level. -/
theorem txnTrace_take {bytes : List Byte} {acks : List Level} (h : acks.length ≤ bytes.length) :
    startTrace ++ framesTrace ((bytes.take acks.length).zip acks) ++ stopTrace = txnTrace bytes acks := by
  rw [txnTrace, List.zip_eq_zip_take_min (l₁ := bytes) (l₂ := acks), Nat.min_eq_right h, List.take_length]

/-! ## The size of an operation (R144, R145, R276) -/

/-- At most n SETLINE events were appended to the trace from `s` to `t`. -/
def SetlinesAtMost (n : Nat) (s t : State) : Prop := ∃ events, t.trace = s.trace ++ events ∧ setlines events ≤ n

/-- A drawing performs no SETLINE (R213). -/
theorem Drawn.setlinesAtMost {s t : State} {f : Int → Int → Bool → Bool} (h : Drawn s t f) : SetlinesAtMost 0 s t := by
  obtain ⟨w, e⟩ := h.rest
  exact ⟨[], by rw [e, List.append_nil], le_rfl⟩

/-- A transaction performs at most its all-acknowledged count: a NAK only shortens it (R145). -/
theorem setlines_txnTrace_le {bytes : List Byte} {acks : List Level} (h : stopsAtNak bytes acks = true) :
    setlines (txnTrace bytes acks) ≤ 7 + 27 * bytes.length := by
  have hlen := stopsAtNak_length h
  rw [setlines_txnTrace hlen]
  omega

theorem txnsTrace_append (xs ys : List (List Byte × List Level)) : txnsTrace (xs ++ ys) = txnsTrace xs ++ txnsTrace ys :=
  List.flatMap_append

theorem Txn.setlinesAtMost {s t : State} {bytes : List Byte} {acks : List Level} (h : Txn s t bytes acks) :
    SetlinesAtMost (7 + 27 * bytes.length) s t := ⟨_, h.ends.trace, setlines_txnTrace_le h.acked⟩

/-- CMD transactions, one for each command byte (R160, R161). -/
theorem setlines_commands_le (a : Addr7) (bs : List Byte) (ackss : List (List Level))
    (h : ∀ x ∈ (bs.map (cmdBytes a)).zip ackss, stopsAtNak x.1 x.2 = true) :
    setlines (txnsTrace ((bs.map (cmdBytes a)).zip ackss)) ≤ bs.length * cmdSetlines := by
  induction bs generalizing ackss with
  | nil => exact Nat.zero_le _
  | cons b bs ih =>
    cases ackss with
    | nil => exact Nat.zero_le _
    | cons acks ackss =>
      have hfirst : setlines (txnTrace (cmdBytes a b) acks) ≤ cmdSetlines := setlines_txnTrace_le (h _ List.mem_cons_self)
      have hrest := ih ackss fun x hx => h x (List.mem_cons_of_mem _ hx)
      calc setlines (txnsTrace (((b :: bs).map (cmdBytes a)).zip (acks :: ackss)))
          = setlines (txnTrace (cmdBytes a b) acks) + setlines (txnsTrace ((bs.map (cmdBytes a)).zip ackss)) :=
            setlines_append _ _
        _ ≤ (b :: bs).length * cmdSetlines := by rw [List.length_cons, Nat.succ_mul]; omega

/-- CMD transactions and then one more transaction: FLUSH, and INITIALIZE after its CONFIGURE (R163, R167). -/
theorem setlines_commands_data_le {a : Addr7} {bs data : List Byte} {ackss : List (List Level)} {acks : List Level}
    (h : ∀ x ∈ (bs.map (cmdBytes a)).zip ackss ++ [(data, acks)], stopsAtNak x.1 x.2 = true) :
    setlines (txnsTrace ((bs.map (cmdBytes a)).zip ackss ++ [(data, acks)]))
      ≤ bs.length * cmdSetlines + (7 + 27 * data.length) := by
  have hcommands := setlines_commands_le a bs ackss fun x hx => h x (List.mem_append_left _ hx)
  have hdata : setlines (txnTrace data acks) ≤ _ := setlines_txnTrace_le (h _ (List.mem_append_right _ List.mem_cons_self))
  have hone : txnsTrace [(data, acks)] = txnTrace data acks := List.append_nil _
  rw [txnsTrace_append, setlines_append, hone]
  exact Nat.add_le_add hcommands hdata

theorem fbBytes_length (c : Params) (m : Memory) : (fbBytes c m).length = fbSize c := by
  simp [fbBytes]

/-- Beginning and returning append no event (R81). -/
theorem runOp_setlinesAtMost {n : Nat} {opc : Byte} {guard : Option Refusal} {body : State → Option Result × State} {s t : State}
    (h : runOp opc guard body s = .next t) (hbody : guard = none → SetlinesAtMost n (beginOp opc s) (body (beginOp opc s)).2) :
    SetlinesAtMost n s t := by
  obtain ⟨-, hg, rfl⟩ := runOp_eq_next h
  exact hbody hg

/-- The operations of DD that only send commands (R171 to R173). -/
theorem sendCmds_setlinesAtMost {s : State} (hg : displayGuard s = none) (opc : Byte) (bs : List Byte) :
    SetlinesAtMost (bs.length * cmdSetlines) (beginOp opc s) (sendCmds bs (beginOp opc s)) := by
  obtain ⟨-, ⟨a, ha⟩, -⟩ := displayGuard_none.1 hg
  obtain ⟨ackss, -, k⟩ := sendCmds_txns bs (s := beginOp opc s) ha
  exact ⟨_, k.trace, setlines_commands_le a bs ackss k.acked⟩

theorem flushBody_setlinesAtMost {s : State} (hg : displayGuard s = none) (opc : Byte) :
    SetlinesAtMost (flushSetlines s.cfg) (beginOp opc s) (flushBody (beginOp opc s)) := by
  obtain ⟨-, ⟨a, ha⟩, -⟩ := displayGuard_none.1 hg
  obtain ⟨ackss, acks, -, k⟩ := flushBody_txns (s := beginOp opc s) ha
  refine ⟨_, k.trace, (setlines_commands_data_le k.acked).trans_eq ?_⟩
  rw [List.length_cons, List.length_cons, fbBytes_length]
  rfl

theorem initializeBody_setlinesAtMost (a : Addr7) (c d : Nat) (s : State) :
    SetlinesAtMost (2 + 25 * cmdSetlines + flushSetlines s.cfg) s (initializeBody a c d s) := by
  obtain ⟨ackss, acks, txns, rfl, -, hacked, k⟩ := initializeBody_spec a c d s
  refine ⟨_, k.record.trace, ?_⟩
  have htxns := setlines_commands_data_le hacked
  rw [List.length_cons, List.length_cons, fbBytes_length, List.length_append,
    show (initSeq s.cfg).length = 25 from rfl, show (windowSeq s.cfg).length = 6 from rfl] at htxns
  have hconfigure : setlines (configureTrace c d ++ [.powerupWait]) = 2 := rfl
  rw [setlines_append, hconfigure, flushSetlines]
  omega

/-- Row by row of format OP: what its body performs is at most the count of the row. -/
theorem exec_setlinesAtMost {i : Instr} {n : Nat} {s t : State} (hn : setlineBound s.cfg i = some n) (h : exec i s = .next t) :
    SetlinesAtMost n s t := by
  cases i
  all_goals cases hn
  all_goals dsimp only [exec] at h
  case configure c d f => exact runOp_setlinesAtMost h fun _ => ⟨_, (configureBody_configured c d f _).record.trace, le_rfl⟩
  case start => exact runOp_setlinesAtMost h fun _ => ⟨_, (startBody_ends _).trace, le_rfl⟩
  case stop => exact runOp_setlinesAtMost h fun _ => ⟨_, (stopBody_ends _).trace, le_rfl⟩
  case writeByte b =>
    refine runOp_setlinesAtMost h fun _ => ?_
    obtain ⟨ack, -, k⟩ := (Ends.refl (beginOp 0x04 s)).writeByte b
    exact ⟨_, k.trace, (setlines_writeByteTrace b ack).le⟩
  case readByte sendAck =>
    exact runOp_setlinesAtMost h fun _ => ⟨_, ((Ends.refl _).readByte sendAck).trace, (setlines_readByteTrace _ sendAck).le⟩
  case write a p =>
    refine runOp_setlinesAtMost h fun _ => ?_
    obtain ⟨acks, -, k⟩ := writeBody_txn a p (beginOp 0x06 s)
    exact k.setlinesAtMost
  case writeRegister a r p =>
    refine runOp_setlinesAtMost h fun _ => ?_
    obtain ⟨acks, -, k⟩ := writeRegisterBody_txn a r p (beginOp 0x07 s)
    exact k.setlinesAtMost
  case initDisplay a c d => exact runOp_setlinesAtMost h fun _ => initializeBody_setlinesAtMost a c d (beginOp 0x10 s)
  case clear => exact runOp_setlinesAtMost h fun _ => ⟨[], (List.append_nil _).symm, le_rfl⟩
  case flush => exact runOp_setlinesAtMost h fun hg => flushBody_setlinesAtMost hg 0x12
  case setPixel x y on => exact runOp_setlinesAtMost h fun _ => (setPixel_drawn _ _ on _).setlinesAtMost
  case drawGlyph x y ch => exact runOp_setlinesAtMost h fun _ => (drawGlyph_drawn _ _ ch _).setlinesAtMost
  case drawText x y text => exact runOp_setlinesAtMost h fun _ => (drawText_drawn _ _ text _).setlinesAtMost
  case fillRect x y w k on => exact runOp_setlinesAtMost h fun _ => (fillRect_drawn _ _ _ _ on _).setlinesAtMost
  case setContrast l => exact runOp_setlinesAtMost h fun hg => sendCmds_setlinesAtMost hg _ _
  case setPower on => exact runOp_setlinesAtMost h fun hg => sendCmds_setlinesAtMost hg _ [_]
  case setInverted on => exact runOp_setlinesAtMost h fun hg => sendCmds_setlinesAtMost hg _ [_]

/-! ## What the environment can change (R144) -/

/-- Two states that agree on everything of the spec but the levels that SAMPLEs returned. -/
structure SameButSamples (t u : State) : Prop where
  trace  : u.trace.map blank = t.trace.map blank
  frame  : BusFrame t u
  sclOut : u.sclOut = t.sclOut
  sdaOut : u.sdaOut = t.sdaOut
  inTxn  : u.inTxn = t.inTxn

theorem blank_writeByteTrace (b : Byte) (v w : Level) : (writeByteTrace b v).map blank = (writeByteTrace b w).map blank := rfl

theorem blank_readByteTrace (v w : Byte) (sendAck : Bool) :
    (readByteTrace v sendAck).map blank = (readByteTrace w sendAck).map blank := rfl

/-- Traces that differ only in sampled levels still do after events that differ only in sampled levels. -/
theorem blank_trace_append {s t s' u : State} {es es' : List Event} (h : t.trace = s.trace ++ es) (k : u.trace = s'.trace ++ es')
    (hs : s'.trace.map blank = s.trace.map blank) (he : es'.map blank = es.map blank) :
    u.trace.map blank = t.trace.map blank := by
  rw [h, k, List.map_append, List.map_append, hs, he]

/-- Two runs that record the same events but for sampled levels and leave the lines alike. -/
theorem TxnEnds.sameButSamples {s t s' u : State} {es es' : List Event} {x y z : Level} (h : TxnEnds s t es x y z)
    (k : TxnEnds s' u es' x y z) (hs : SameButSamples s s') (he : es'.map blank = es.map blank) : SameButSamples t u :=
  { trace := blank_trace_append h.trace k.trace hs.trace he
    frame := (h.toBusFrame.symm.trans hs.frame).trans k.toBusFrame
    sclOut := k.sclOut.trans h.sclOut.symm
    sdaOut := k.sdaOut.trans h.sdaOut.symm
    inTxn := k.inTxn.trans h.inTxn.symm }

/-- A run that keeps the transaction bit is a run that leaves it at what it was. -/
theorem Ends.txnEnds {s t : State} {es : List Event} {x y z : Level} (h : Ends s t es x y) (hz : s.inTxn = z) :
    TxnEnds s t es x y z :=
  { toBusRun := h.toBusRun, sclOut := h.sclOut, sdaOut := h.sdaOut, inTxn := h.inTxn.trans hz, seq := h.seq }

theorem Ends.sameButSamples {s t s' u : State} {es es' : List Event} {x y : Level} (h : Ends s t es x y)
    (k : Ends s' u es' x y) (hs : SameButSamples s s') (he : es'.map blank = es.map blank) : SameButSamples t u :=
  (h.txnEnds rfl).sameButSamples (k.txnEnds hs.inTxn) hs he

theorem Configured.sameButSamples {s t s' u : State} {c d : Nat} {f : Word} (h : Configured s t c d f)
    (k : Configured s' u c d f) (hs : SameButSamples s s') : SameButSamples t u :=
  { trace := blank_trace_append h.record.trace k.record.trace hs.trace rfl
    frame :=
      { sclId := k.sclId.trans h.sclId.symm
        sdaId := k.sdaId.trans h.sdaId.symm
        delay := by rw [k.delay, h.delay, hs.frame.cfg]
        configured := k.configured.trans h.configured.symm
        dispAddr := by rw [k.dispAddr, h.dispAddr, hs.frame.dispAddr]
        initialized := by rw [k.initialized, h.initialized, hs.frame.initialized]
        fb := by rw [k.fb, h.fb, hs.frame.fb]
        cfg := by rw [k.cfg, h.cfg, hs.frame.cfg]
        host := by rw [k.host, h.host, hs.frame.host] }
    sclOut := k.sclOut.trans h.sclOut.symm
    sdaOut := k.sdaOut.trans h.sdaOut.symm
    inTxn := k.inTxn.trans h.inTxn.symm }

/-- What an operation delivers and the return itself are outside the agreement. -/
theorem SameButSamples.op {t u : State} (h : SameButSamples t u) (r r' : Option Result) :
    SameButSamples (returnOp r t) (returnOp r' u) :=
  { trace := h.trace
    frame := { sclId := h.frame.sclId, sdaId := h.frame.sdaId, delay := h.frame.delay, configured := h.frame.configured,
               dispAddr := h.frame.dispAddr, initialized := h.frame.initialized, fb := h.frame.fb, cfg := h.frame.cfg,
               host := h.frame.host }
    sclOut := h.sclOut, sdaOut := h.sdaOut, inTxn := h.inTxn }

/-- An operation whose guard and body the environment does not reach, but for sampled levels. -/
theorem runOp_sameButSamples {opc : Byte} {guard : Option Refusal} {body : State → Option Result × State} {s t : State}
    {env : List Level} {draws : Nat} (h : runOp opc guard body s = .next t)
    (hbody : ∀ {u v}, SameButSamples u v → SameButSamples (body u).2 (body v).2) :
    ∃ u, runOp opc guard body { s with env := env, draws := draws } = .next u ∧ SameButSamples t u ∧ u.seq = t.seq := by
  obtain ⟨hs, hg, rfl⟩ := runOp_eq_next h
  have hbegin : SameButSamples (beginOp opc s) (beginOp opc { s with env := env, draws := draws }) :=
    ⟨rfl, ⟨rfl, rfl, rfl, rfl, rfl, rfl, rfl, rfl, rfl⟩, rfl, rfl, rfl⟩
  exact ⟨_, runOp_next hs hg, (hbody hbegin).op _ _, rfl⟩

theorem writeByteBody_sameButSamples (b : Byte) {s t : State} (h : SameButSamples s t) :
    SameButSamples (writeByteBody b s).2 (writeByteBody b t).2 := by
  obtain ⟨v, -, hs⟩ := (Ends.refl s).writeByte b
  obtain ⟨w, -, ht⟩ := (Ends.refl t).writeByte b
  exact hs.sameButSamples ht h (blank_writeByteTrace b w v)

theorem readByteBody_sameButSamples (sendAck : Bool) {s t : State} (h : SameButSamples s t) :
    SameButSamples (readByteBody sendAck s).2 (readByteBody sendAck t).2 :=
  ((Ends.refl s).readByte sendAck).sameButSamples ((Ends.refl t).readByte sendAck) h (blank_readByteTrace _ _ sendAck)

/-- CONFIGURE, START, STOP, WRITE_BYTE and READ_BYTE under another environment. -/
theorem exec_sameButSamples {i : Instr} {s t : State} {env : List Level} {draws : Nat}
    (hi : (∃ c d f, i = .configure c d f) ∨ i = .start ∨ i = .stop ∨ (∃ b, i = .writeByte b) ∨ ∃ k, i = .readByte k)
    (h : exec i s = .next t) :
    ∃ u, exec i { s with env := env, draws := draws } = .next u ∧ SameButSamples t u ∧ u.seq = t.seq := by
  obtain ⟨c, d, f, rfl⟩ | rfl | rfl | ⟨b, rfl⟩ | ⟨k, rfl⟩ := hi
  all_goals dsimp only [exec] at h
  · exact runOp_sameButSamples h fun hs =>
      (configureBody_configured c d f _).sameButSamples (configureBody_configured c d f _) hs
  · exact runOp_sameButSamples h fun hs => (startBody_ends _).sameButSamples (startBody_ends _) hs rfl
  · exact runOp_sameButSamples h fun hs => (stopBody_ends _).sameButSamples (stopBody_ends _) hs rfl
  · exact runOp_sameButSamples h (writeByteBody_sameButSamples b)
  · exact runOp_sameButSamples h (readByteBody_sameButSamples k)

end Sys2Proof.Machine

open Sys2Proof Sys2Proof.Machine

/-- Settles O16: CONFIGURE's body, with the delay constant as a number. -/
theorem configureResult : Obligations.ConfigureResult := by
  intro c d f s hs hf hc hd hne
  have h := (configureBody_configured c d f (beginOp 0x01 s)).op none
  exact ⟨_, delayConstant s.cfg f, exec_configure_next hs ⟨hf, hc, hd, hne⟩, h, h.delay, delayConstant_toNat s.cfg f,
    returnOp_returned none _⟩

/-- Settles O17: the guard makes its checks in this order, and its refusal is the outcome. -/
theorem configureRefusals : Obligations.ConfigureRefusals := by
  intro c d f s hs
  refine ⟨fun hf => ?_, fun hf hc => ?_, fun hf hc hd => ?_, fun hf hc hcd => ?_⟩
  all_goals apply exec_configure_refused hs
  · rw [configureGuard, if_pos hf]
  · rw [configureGuard, if_neg hf, if_pos hc]
  · rw [configureGuard, if_neg hf, if_neg (Nat.not_le.2 hc), if_pos hd]
  · rw [configureGuard, if_neg hf, if_neg (Nat.not_le.2 hc), if_neg (Nat.not_le.2 (hcd ▸ hc)), if_pos hcd]

/-- Settles O18: START's body, between its beginning and its return. -/
theorem startResult : Obligations.StartResult := by
  intro s hs hr
  have h := startBody_ends (beginOp 0x02 s)
  exact ⟨_, exec_start_next hs hr, h.toBusRun.op, h.sclOut, h.sdaOut, h.inTxn, returnOp_returned _ _⟩

/-- Settles O19: STOP's body, between its beginning and its return. -/
theorem stopResult : Obligations.StopResult := by
  intro s hs hr
  have h := stopBody_ends (beginOp 0x03 s)
  exact ⟨_, exec_stop_next hs hr, h.toBusRun.op, h.idleAfter_returnOp none, returnOp_returned _ _⟩

/-- Settles O20: START returns to an idle sequencer and a bus still ready, so STOP follows. -/
theorem startThenStop : Obligations.StartThenStop := by
  intro s hs hr
  obtain ⟨t, hstart, hrun, -, -, -, hreturned⟩ := startResult s hs hr
  obtain ⟨u, hstop, hrun', ⟨hreleased, htxn⟩, -⟩ := stopResult t hreturned.seq (hrun.toBusFrame.busReady hr)
  exact ⟨t, u, hstart, hstop, hreleased, htxn, by rw [hrun'.trace, hrun.trace, List.append_assoc], rfl, rfl, rfl⟩

/-- Settles O21: the byte frame's run; its one sample is the environment's next contribution. -/
theorem writeByteResult : Obligations.WriteByteResult := by
  intro b s hs hr
  obtain ⟨ack, hack, h⟩ := (Ends.refl (beginOp 0x04 s)).writeByte b
  have hret := returnOp_returned (some (.bool (writeByteBody b (beginOp 0x04 s)).1)) (writeByteBody b (beginOp 0x04 s)).2
  refine ⟨_, ack, exec_writeByte_next hs hr b, h.toBusRun.op, hack ▸ hret, fun l rest hp he => ?_, h.sclOut, h.sdaOut, h.inTxn,
    setlines_writeByteTrace b ack, samples_writeByteTrace b ack, delays_writeByteTrace b ack⟩
  have hsample := (h.toBusRun.op (r := none)).sampled_eq hp (n := 0) (by simp [samples_writeByteTrace]) (by simp [he])
  simpa [samplesOf_writeByteTrace, he] using hsample

/-- Settles O22: the reading cells' run; the samples are the bits of the byte, bit 7 first. -/
theorem readByteResult : Obligations.ReadByteResult := by
  intro sendAck s hs hr
  have h := (Ends.refl (beginOp 0x05 s)).readByte sendAck
  refine ⟨_, _, exec_readByte_next hs hr sendAck, h.toBusRun.op, returnOp_returned _ _, fun hp he n hn => ?_, h.sclOut, h.sdaOut,
    h.inTxn, setlines_readByteTrace _ sendAck, samples_readByteTrace _ sendAck, delays_readByteTrace _ sendAck⟩
  have hsample := (h.toBusRun.op (r := none)).sampled_eq hp (n := n) hn (hn.trans_le he)
  rw [List.nil_append, samplesOf_readByteTrace] at hsample
  simp [← hsample, hn]

/-- Settles O23: WRITE's body is one transaction. -/
theorem writeResult : Obligations.WriteResult := by
  intro a p s hs hr
  obtain ⟨acks, hack, h⟩ := writeBody_txn a p (beginOp 0x06 s)
  exact ⟨_, acks, exec_write_next hs hr a p, h.acked, h.ends.toBusRun.op, hack ▸ returnOp_returned _ _,
    h.ends.idleAfter_returnOp _⟩

/-- Settles O25: one guard, and bodies that only the working registers tell apart. -/
theorem writeRegisterIsWrite : Obligations.WriteRegisterIsWrite := by
  intro a r p s
  have h := writeRegisterBody_alike a r p (beginOp_alike 0x07 0x06 s)
  show execWriteRegister a r p s = execWrite a (r :: p) s
  exact runOp_congr ⟨congrArg (some ∘ Result.bool) h.1, h.2⟩

/-- Settles O24: WRITE of the register selector and the payload. -/
theorem writeRegisterResult : Obligations.WriteRegisterResult := by
  intro a r p s hs hr
  rw [writeRegisterIsWrite a r p s]
  exact writeResult a (r :: p) s hs hr

/-- Settles O26: the environment's answers are j acknowledgments and a NAK. -/
theorem writeAborts : Obligations.WriteAborts := by
  intro a p j rest s hs hr hp hj he
  have hbytes : j < ((a ++ 0#1 : Byte) :: p).length := Nat.lt_succ_of_le hj
  have hlen : (List.replicate j false ++ [true]).length = j + 1 := by simp
  have hle : (List.replicate j false ++ [true]).length ≤ ((a ++ 0#1 : Byte) :: p).length := hlen.trans_le hbytes
  obtain ⟨t, hexec, htrace, hret, hidle, henv⟩ :=
    exec_write_answered (rest := rest) hs hr hp (stopsAtNak_abort hbytes) (by simpa using he)
  refine ⟨t, _, ?_, hexec, htrace, ?_, hidle, henv, ?_, ?_, ?_⟩
  · rw [← txnTrace_take hle, hlen]
  · simpa [allAcked, ackSeen] using hret
  · rw [setlines_txnTrace hle, hlen]
  · rw [samples, samplesOf_txnTrace hle, hlen]
  · rw [delays_txnTrace hle, hlen]

/-- Settles O27: the environment's answers are n + 1 acknowledgments. -/
theorem writeAllAcknowledged : Obligations.WriteAllAcknowledged := by
  intro a p rest s hs hr hp he
  have hlen : (List.replicate (p.length + 1) false).length = p.length + 1 := List.length_replicate
  have hle : (List.replicate (p.length + 1) false).length ≤ ((a ++ 0#1 : Byte) :: p).length := hlen.le
  obtain ⟨t, hexec, htrace, hret, -, henv⟩ :=
    exec_write_answered hs hr hp (stopsAtNak_allAcknowledged ((a ++ 0#1) :: p)) he
  refine ⟨t, _, rfl, hexec, htrace, ?_, henv, ?_, ?_, ?_⟩
  · simpa [allAcked, ackSeen] using hret
  · rw [setlines_txnTrace hle, hlen]
  · rw [samples, samplesOf_txnTrace hle, hlen]
  · rw [delays_txnTrace hle, hlen]

/-- Settles O34: row by row, each body's trace has at most the row's count. -/
theorem operationSizeBound : Obligations.OperationSizeBound := by
  intro i n s t hn h
  exact exec_setlinesAtMost hn h

/-- Settles O35: the five operations read the environment only in their SAMPLEs. -/
theorem environmentChangesOnlySamples : Obligations.EnvironmentChangesOnlySamples := by
  intro i s t env draws hi h
  obtain ⟨u, hexec, hsame, hseq⟩ := exec_sameButSamples hi h
  exact ⟨u, hexec, hsame.trace, hsame.frame, hsame.sclOut, hsame.sdaOut, hsame.inTxn, hseq⟩
end

section
/-!
PROOFS. The display protocol (42_display_protocol.md): what INITIALIZE, FLUSH, SET_CONTRAST, SET_POWER and SET_INVERTED send and what they
leave (R163 to R173), and what is refused before and after the one INITIALIZE (R166, R175).
-/

namespace Sys2Proof.Machine

/-! ## From a body's run to the operation's run -/

/-- Beginning and returning are outside what several transactions leave. -/
theorem Txns.op {opc : Byte} {s t : State} {txns : List (List Byte × List Level)} (h : Txns (beginOp opc s) t txns)
    (r : Option Result) : Txns s (returnOp r t) txns :=
  { toBusRun := h.toBusRun.op, acked := h.acked, idle := fun hne => ⟨(h.idle hne).released, (h.idle hne).inTxn⟩,
    none_ := h.none_ }

/-- Beginning and returning are outside what INITIALIZE leaves. -/
theorem InitializedBy.op {opc : Byte} {s t : State} {a : Addr7} {c d : Nat} {es : List Event}
    (h : InitializedBy (beginOp opc s) t a c d es) (r : Option Result) : InitializedBy s (returnOp r t) a c d es :=
  { record := ⟨h.record.trace, h.record.env, h.record.drawn, h.record.port⟩, dispAddr := h.dispAddr, sclId := h.sclId,
    sdaId := h.sdaId, delay := h.delay, configured := h.configured, initialized := h.initialized, fb := h.fb, cfg := h.cfg,
    host := h.host, idle := ⟨h.idle.released, h.idle.inTxn⟩ }

/-! ## INITIALIZE (R163, R164) -/

/-- The start-line command for line 0 is the opcode byte itself (R101 (e), R164). -/
theorem startLineByte_zero (c : Params) : startLineByte c 0 = c.cmds.setStartLine := BitVec.add_zero _

/-- INITIALIZE is performed once, with lines that CONFIGURE accepts at the display's bus frequency. -/
theorem exec_initDisplay_next {a : Addr7} {c d : Nat} {s : State} (hs : s.seq = .idle) (hi : s.initialized = false)
    (hl : LinesUsable s.cfg c d s.cfg.displayBusHz) :
    exec (.initDisplay a c d) s = .next (returnOp (some (.bool true)) (initializeBody a c d (beginOp 0x10 s))) :=
  show execInitialize a c d s = _ from runOp_next hs (initializeGuard_none.2 ⟨hi, hl⟩)

/-! ## INITIALIZE's refusals (R166, R236) -/

/-- An idle sequencer refuses an operation only by its guard. -/
theorem guard_of_runOp_refused {opc : Byte} {guard : Option Refusal} {body : State → Option Result × State} {s : State}
    {r : Refusal} (hs : s.seq = .idle) (h : runOp opc guard body s = .refused r) : guard = some r := by
  cases guard with
  | none => cases (runOp_next hs rfl).symm.trans h
  | some r' =>
    cases (runOp_refused hs rfl).symm.trans h
    rfl

theorem exec_initDisplay_initialized {s : State} (hs : s.seq = .idle) (hi : s.initialized = true) (a : Addr7) (c d : Nat) :
    exec (.initDisplay a c d) s = .refused .alreadyInitialized :=
  show execInitialize a c d s = _ from runOp_refused hs (by simp [initializeGuard, firstRefusal, hi])

/-- The first INITIALIZE is refused as its inline CONFIGURE is. -/
theorem exec_initDisplay_refused {c d : Nat} {s : State} {r : Refusal} (hs : s.seq = .idle) (hi : s.initialized = false)
    (h : exec (.configure c d s.cfg.displayBusHz) s = .refused r) (a : Addr7) :
    exec (.initDisplay a c d) s = .refused r := by
  have hg : configureGuard s.cfg c d s.cfg.displayBusHz = some r :=
    guard_of_runOp_refused hs (show execConfigure c d s.cfg.displayBusHz s = _ from h)
  exact show execInitialize a c d s = _ from runOp_refused hs (by simp [initializeGuard, firstRefusal, hi, hg])

/-! ## Operations on an initialized display (R167, R171 to R173) -/

section
variable {a : Addr7} {s : State}

theorem displayGuard_ready (hi : s.initialized = true) (hr : DisplayReady a s) : displayGuard s = none :=
  displayGuard_none.2 ⟨hi, ⟨a, hr.2⟩, hr.1⟩

theorem exec_flush_next (hs : s.seq = .idle) (hi : s.initialized = true) (hr : DisplayReady a s) :
    exec .flush s = .next (returnOp none (flushBody (beginOp 0x12 s))) :=
  show execFlush s = _ from runOp_next hs (displayGuard_ready hi hr)

/-- An operation whose body is consecutive CMDs sends one transaction for each command byte (R161). -/
theorem runOp_commands (opc : Byte) (bs : Params → List Byte) (hs : s.seq = .idle) (hi : s.initialized = true)
    (hr : DisplayReady a s) (hne : bs s.cfg ≠ []) :
    ∃ (t : State) (ackss : List (List Level)),
      runOp opc (displayGuard s) (fun s => (none, sendCmds (bs s.cfg) s)) s = .next t ∧ ackss.length = (bs s.cfg).length
        ∧ Txns s t (((bs s.cfg).map (cmdBytes a)).zip ackss) ∧ BusIdleAfter t ∧ Returned t none := by
  obtain ⟨ackss, hlen, h⟩ := sendCmds_txns (bs s.cfg) (s := beginOp opc s) hr.2
  have hsent : ((bs s.cfg).map (cmdBytes a)).zip ackss ≠ [] := by
    have hpos := List.length_pos_iff.2 hne
    rw [← List.length_pos_iff, List.length_zip, List.length_map]
    omega
  exact ⟨_, ackss, runOp_next hs (displayGuard_ready hi hr), hlen, h.op none, (h.op none).idle hsent, returnOp_returned _ _⟩

end

end Sys2Proof.Machine

open Sys2Proof Sys2Proof.Machine

/-- Settles O36: INITIALIZE's body, with the start-line byte and the bytes of the cleared framebuffer written out. -/
theorem initializeResult : Obligations.InitializeResult := by
  intro a c d s hs hi hf hc hd hne hw
  obtain ⟨ackss, acks, txns, htxns, hlen, hacked, h⟩ := initializeBody_spec a c d (beginOp 0x10 s)
  change txns = ((initSeq s.cfg ++ windowSeq s.cfg).map (cmdBytes a)).zip ackss
    ++ [((a ++ 0#1) :: 0x40 :: fbBytes s.cfg (clearFb s.cfg s.fb), acks)] at htxns
  rw [fbBytes_clearFb hw] at htxns
  have k := h.op (some (.bool true))
  refine ⟨_, ackss, acks, txns, ?_, hlen, hacked, exec_initDisplay_next hs hi ⟨hf, hc, hd, hne⟩, k.record, k.dispAddr, k.sclId,
    k.sdaId, k.delay, k.configured, k.initialized, fun n => ?_, k.cfg, k.host, k.idle, returnOp_returned _ _⟩
  · rw [htxns, ← startLineByte_zero]
    rfl
  · rw [k.fb, clearFb_read hw]

/-- Settles O37: a second INITIALIZE by `S.initialized`, the first one by the refusals of CONFIGURE. -/
theorem initializeRefusals : Obligations.InitializeRefusals := by
  intro a c d s hs
  obtain ⟨hzero, hclock, hdata, hequal⟩ := configureRefusals c d s.cfg.displayBusHz s hs
  refine ⟨fun hi => exec_initDisplay_initialized hs hi a c d, fun hi => ⟨fun hf => ?_, fun hf hc => ?_, fun hf hc hd => ?_,
    fun hf hc hcd => ?_⟩⟩
  · exact exec_initDisplay_refused hs hi (hzero hf) a
  · exact exec_initDisplay_refused hs hi (hclock hf hc) a
  · exact exec_initDisplay_refused hs hi (hdata hf hc hd) a
  · exact exec_initDisplay_refused hs hi (hequal hf hc hcd) a

/-- Settles O38: FLUSH's body, six command transactions and one of data, so at least one. -/
theorem flushResult : Obligations.FlushResult := by
  intro a s hs hi hr
  obtain ⟨ackss, acks, hlen, h⟩ := flushBody_txns (s := beginOp 0x12 s) hr.2
  have hidle := (h.op none).idle (List.append_ne_nil_of_right_ne_nil _ (List.cons_ne_nil _ _))
  exact ⟨_, ackss, acks, exec_flush_next hs hi hr, hlen, h.op none, hidle, returnOp_returned _ _⟩

/-- Settles O39: the body of each of the three is consecutive CMDs, at least one. -/
theorem displaySettingResults : Obligations.DisplaySettingResults := by
  intro a i bytes s hs hi hr hrow
  obtain ⟨level, rfl, rfl⟩ | ⟨on, rfl, rfl⟩ | ⟨on, rfl, rfl⟩ := hrow
  · exact runOp_commands 0x17 (fun c => [c.cmds.setContrast, level]) hs hi hr (List.cons_ne_nil _ _)
  · exact runOp_commands 0x18 (fun c => [powerByte c on]) hs hi hr (List.cons_ne_nil _ _)
  · exact runOp_commands 0x19 (fun c => [invertByte c on]) hs hi hr (List.cons_ne_nil _ _)

/-- Settles O40: the display guard looks at `S.initialized` first. -/
theorem uninitializedRefused : Obligations.UninitializedRefused := by
  intro i s hs hi hrow
  exact exec_displayOperation_refused hs (displayGuard_uninitialized hi) hrow
end

section
/-!
PROOFS. The framebuffer and its rendering operations (43_framebuffer_render.md): CLEAR (R200), SET_PIXEL bit by bit and its laws (R202,
R203), the pictures of DRAW_GLYPH, DRAW_TEXT and FILL_RECT (R205 to R212), and the refusal of a coordinate overflow (R204).
-/

namespace Sys2Proof.Machine

/-! ## What a rendering operation leaves (R24, R81, R213) -/

/-- The state after a rendering operation of the host: the framebuffer is `m`, the working registers are dead, no result. -/
def redrawn (s : State) (m : Memory) : State := { s with seq := .idle, work := Work.dead, ret := none, fb := m }

@[simp] theorem redrawn_seq (s : State) (m : Memory) : (redrawn s m).seq = .idle := rfl
@[simp] theorem redrawn_fb (s : State) (m : Memory) : (redrawn s m).fb = m := rfl

theorem redrawn_frame (s : State) (m : Memory) : RenderFrame s (redrawn s m) :=
  ⟨rfl, rfl, rfl, rfl, rfl, rfl, rfl, rfl, rfl, rfl, rfl, rfl, rfl, rfl, rfl⟩

theorem redrawn_returned (s : State) (m : Memory) : Returned (redrawn s m) none := ⟨rfl, rfl, rfl⟩

theorem Drawn.returnOp_eq {opc : Byte} {s t : State} {f : Int → Int → Bool → Bool} (h : Drawn (beginOp opc s) t f) :
    returnOp none t = redrawn s t.fb := by
  obtain ⟨w, ht⟩ := h.rest
  rw [ht]
  rfl

/-- An operation that draws, let through by its guard, leaves the state with its picture. -/
theorem runOp_drawn {opc : Byte} {guard : Option Refusal} {draw : State → State} {s : State} {f : Int → Int → Bool → Bool}
    (hs : s.seq = .idle) (hg : guard = none) (h : Drawn (beginOp opc s) (draw (beginOp opc s)) f) :
    ∃ m, runOp opc guard (fun s => (none, draw s)) s = .next (redrawn s m) ∧ (s.fb.wf → Draws s.cfg s.fb m f) :=
  ⟨_, (runOp_next hs hg).trans (congrArg _ h.returnOp_eq), h.draws⟩

/-- Only what the body does at the beginning of the operation counts. -/
theorem runOp_eq_of_begun {opc : Byte} {guard guard' : Option Refusal} {body body' : State → Option Result × State} {s : State}
    (hg : guard = guard') (hb : body (beginOp opc s) = body' (beginOp opc s)) :
    runOp opc guard body s = runOp opc guard' body' s := by
  simp only [runOp, hg, hb]

theorem overflowGuard_some {b : Bool} (h : b = true) : overflowGuard b = some .coordinateOverflow := if_pos h

/-! ## Operations let through by their guard (R264) -/

section
variable {s : State}

theorem exec_clear_next (hs : s.seq = .idle) : exec .clear s = .next (redrawn s (clearFb s.cfg s.fb)) :=
  show execClear s = _ from runOp_next hs rfl

theorem exec_setPixel_next (hs : s.seq = .idle) (x y : Word) (on : Bool) :
    exec (.setPixel x y on) s = .next (redrawn s (setPixelFb s.cfg x.toInt y.toInt on s.fb)) :=
  show execSetPixel x y on s = _ from runOp_next hs rfl

theorem exec_setPixel_eq_next (hs : s.seq = .idle) {x y : Word} {on : Bool} {t : State}
    (h : exec (.setPixel x y on) s = .next t) : t = redrawn s (setPixelFb s.cfg x.toInt y.toInt on s.fb) := by
  cases (exec_setPixel_next hs x y on).symm.trans h
  rfl

/-- After a rendering operation SET_PIXEL goes on with the framebuffer it left. -/
theorem exec_setPixel_redrawn (s : State) (m : Memory) (x y : Word) (on : Bool) :
    exec (.setPixel x y on) (redrawn s m) = .next (redrawn s (setPixelFb s.cfg x.toInt y.toInt on m)) :=
  exec_setPixel_next (redrawn_seq s m) x y on

theorem exec_drawGlyph_next (hs : s.seq = .idle) {x y ch : Word}
    (hsums : ∀ v, GlyphSum s.cfg x.toInt y.toInt ch v → InRange v) :
    ∃ m, exec (.drawGlyph x y ch) s = .next (redrawn s m)
      ∧ (s.fb.wf → Draws s.cfg s.fb m fun px py b => b || underGlyph s.cfg x.toInt y.toInt ch px py) :=
  runOp_drawn (opc := 0x14) hs (overflowGuard_none.2 (glyph_not_overflows hsums)) (drawGlyph_drawn x.toInt y.toInt ch _)

theorem exec_drawText_next (hs : s.seq = .idle) {x y : Word} {text : List Word}
    (hsums : ∀ v, TextSum s.cfg x.toInt text x.toInt y.toInt v → InRange v) :
    ∃ m, exec (.drawText x y text) s = .next (redrawn s m)
      ∧ (s.fb.wf → Draws s.cfg s.fb m fun px py b => b ||
          (textCells s.cfg x.toInt text x.toInt y.toInt).any fun cell => underGlyph s.cfg cell.1 cell.2.1 cell.2.2 px py) :=
  runOp_drawn (opc := 0x15) hs (overflowGuard_none.2 (text_not_overflows hsums)) (drawText_drawn x.toInt y.toInt text _)

theorem exec_fillRect_next (hs : s.seq = .idle) {x y w h : Word}
    (hsums : ∀ v, RectSum x.toInt y.toInt w.toInt h.toInt v → InRange v) (on : Bool) :
    ∃ m, exec (.fillRect x y w h on) s = .next (redrawn s m)
      ∧ (s.fb.wf → Draws s.cfg s.fb m fun px py b => if inRect x.toInt y.toInt w.toInt h.toInt px py then on else b) :=
  runOp_drawn (opc := 0x16) hs (overflowGuard_none.2 (rect_not_overflows hsums))
    (fillRect_drawn x.toInt y.toInt w.toInt h.toInt on _)

end

/-! ## SET_PIXEL bit by bit (R202, R203) -/

/-- Bit k of the byte at `a` is the one that SET_PIXEL at (x, y) sets or clears (R52, R202). -/
abbrev Targets (c : Params) (x y : Int) (a k : Nat) : Prop :=
  inBounds c x y = true ∧ a = pixelIndex c x y ∧ k = y.toNat % 8

theorem Targets.unique {c : Params} {x y x' y' : Int} {a k : Nat} (h : Targets c x y a k) (h' : Targets c x' y' a k) :
    x = x' ∧ y = y' := by
  obtain ⟨hin, rfl, rfl⟩ := h
  obtain ⟨hin', hi, hk⟩ := h'
  exact pixel_inj hin' hin hi hk

theorem setPixelFb_getLsbD {m : Memory} (h : m.wf) (c : Params) (x y : Int) (on : Bool) (a : Nat) {k : Nat} (hk : k < 8) :
    ((setPixelFb c x y on m).read a).getLsbD k = if Targets c x y a k then on else (m.read a).getLsbD k := by
  rw [setPixelFb_read h]
  by_cases ha : inBounds c x y = true ∧ a = pixelIndex c x y
  · have ht : Targets c x y a k ↔ k = y.toNat % 8 := by rw [Targets, ← and_assoc, and_iff_right ha]
    have hmask := pixelMask_getLsbD y hk
    rw [if_pos ha]
    by_cases hb : k = y.toNat % 8
    · rw [decide_eq_true hb] at hmask
      rw [if_pos (ht.2 hb)]
      cases on <;> simp [hmask, -BitVec.getLsbD_eq_getElem]
    · rw [decide_eq_false hb] at hmask
      rw [if_neg (mt ht.1 hb)]
      cases on <;> simp [hmask, hk, -BitVec.getLsbD_eq_getElem]
  · rw [if_neg ha, if_neg fun ht => ha ⟨ht.1, ht.2.1⟩]

/-- The five corner pixels of R203 (d), each with its byte and its bit. -/
theorem corner_targets {c : Params} (hw : c.width = 128) (hh : c.height = 64) :
    ∀ corner ∈ [(((0 : Word), (0 : Word)), 0, 0), ((127, 0), 127, 0), ((0, 63), 896, 7), ((127, 63), 1023, 7), ((0, 8), 128, 0)],
      corner.2.2 < 8 ∧ Targets c corner.1.1.toInt corner.1.2.toInt corner.2.1 corner.2.2 := by
  simp only [Targets, inBounds, pixelIndex, hw, hh]
  decide

/-- Canonical memories with the same bits are the same data. -/
theorem Memory.eq_of_getLsbD {m n : Memory} (hm : m.wf) (hn : n.wf) (hinit : m.init = n.init)
    (h : ∀ a, ∀ k < 8, (m.read a).getLsbD k = (n.read a).getLsbD k) : m = n :=
  equalReadsEqualMemory m n hm hn hinit fun a => BitVec.eq_of_getLsbD_eq (h a)

/-- The later of two SET_PIXELs on one pixel wins. -/
theorem setPixelFb_setPixelFb {m : Memory} (h : m.wf) (c : Params) (x y : Int) (on on' : Bool) :
    setPixelFb c x y on' (setPixelFb c x y on m) = setPixelFb c x y on' m := by
  have h1 := setPixelFb_wf h c x y on
  refine Memory.eq_of_getLsbD (setPixelFb_wf h1 c x y on') (setPixelFb_wf h c x y on') (by simp only [setPixelFb_init])
    fun a k hk => ?_
  rw [setPixelFb_getLsbD h1 c x y on' a hk, setPixelFb_getLsbD h c x y on' a hk, setPixelFb_getLsbD h c x y on a hk]
  split <;> rfl

/-- Two SET_PIXELs on different pixels commute. -/
theorem setPixelFb_comm {m : Memory} (h : m.wf) (c : Params) {x y x' y' : Int} (hne : ¬ (x = x' ∧ y = y')) (on on' : Bool) :
    setPixelFb c x' y' on' (setPixelFb c x y on m) = setPixelFb c x y on (setPixelFb c x' y' on' m) := by
  have h1 := setPixelFb_wf h c x y on
  have h2 := setPixelFb_wf h c x' y' on'
  refine Memory.eq_of_getLsbD (setPixelFb_wf h1 c x' y' on') (setPixelFb_wf h2 c x y on) (by simp only [setPixelFb_init])
    fun a k hk => ?_
  rw [setPixelFb_getLsbD h1 c x' y' on' a hk, setPixelFb_getLsbD h2 c x y on a hk, setPixelFb_getLsbD h c x y on a hk,
    setPixelFb_getLsbD h c x' y' on' a hk]
  by_cases ht : Targets c x y a k
  · rw [if_pos ht, if_neg fun ht' => hne (ht.unique ht')]
    exact (if_pos ht).symm
  · rw [if_neg ht, if_neg ht]

theorem setPixelFb_outOfBounds {c : Params} {x y : Int} (h : inBounds c x y = false) (on : Bool) (m : Memory) :
    setPixelFb c x y on m = m := by
  simp [setPixelFb, h]

/-- SET_PIXEL leaves the framebuffer exactly when the pixel has the value already. -/
theorem setPixelFb_eq_self_iff {m : Memory} (h : m.wf) {c : Params} {x y : Int} (hin : inBounds c x y = true) (on : Bool) :
    setPixelFb c x y on m = m ↔ pixelLit c m x y = on := by
  constructor
  · intro heq
    rw [← heq, setPixelFb_lit h hin, if_pos ⟨rfl, rfl⟩]
  · intro hlit
    refine Memory.eq_of_getLsbD (setPixelFb_wf h c x y on) h (setPixelFb_init c x y on m) fun a k hk => ?_
    rw [setPixelFb_getLsbD h c x y on a hk]
    split
    case isTrue ht =>
      obtain ⟨-, rfl, rfl⟩ := ht
      exact hlit.symm
    case isFalse => rfl

/-! ## The framebuffer is its pixels (R51, R52) -/

/-- Each bit of a framebuffer byte is an in-bounds pixel. -/
theorem exists_pixel {c : Params} (hc : configOk c = true) {n k : Nat} (hn : n < fbSize c) (hk : k < 8) :
    ∃ px py, inBounds c px py = true ∧ ∀ m : Memory, (m.read n).getLsbD k = pixelLit c m px py := by
  obtain ⟨h8, hw, -⟩ := configOk_geometry hc
  obtain ⟨pages, hp⟩ := Nat.dvd_of_mod_eq_zero h8
  have hsize : fbSize c = c.width * pages := by
    rw [fbSize, hp, Nat.mul_left_comm, Nat.mul_div_cancel_left _ (by decide)]
  have hpage : n / c.width < pages := Nat.div_lt_of_lt_mul (hsize ▸ hn)
  have hcol : n % c.width < c.width := Nat.mod_lt _ hw
  refine ⟨(n % c.width : Nat), (8 * (n / c.width) + k : Nat), inBounds_iff.2 ⟨by omega, by omega, by omega, by omega⟩,
    fun m => ?_⟩
  have hindex : pixelIndex c (n % c.width : Nat) (8 * (n / c.width) + k : Nat) = n := by
    rw [pixelIndex, Int.toNat_natCast, Int.toNat_natCast, show (8 * (n / c.width) + k) / 8 = n / c.width by omega,
      Nat.mul_comm, Nat.mod_add_div]
  rw [pixelLit, hindex, Int.toNat_natCast, show (8 * (n / c.width) + k) % 8 = k by omega]

/-- Canonical memories that differ in no pixel and in no byte outside the framebuffer are the same data. -/
theorem Memory.eq_of_pixelLit {c : Params} (hc : configOk c = true) {m n : Memory} (hm : m.wf) (hn : n.wf)
    (hinit : m.init = n.init) (hlit : ∀ px py, inBounds c px py = true → pixelLit c m px py = pixelLit c n px py)
    (hout : ∀ a, fbSize c ≤ a → m.read a = n.read a) : m = n := by
  refine Memory.eq_of_getLsbD hm hn hinit fun a k hk => ?_
  by_cases ha : a < fbSize c
  · obtain ⟨px, py, hin, hbit⟩ := exists_pixel hc ha hk
    rw [hbit m, hbit n, hlit px py hin]
  · rw [hout a (by omega)]

/-- CLEAR as a picture: every pixel is dark. -/
theorem clearFb_draws {c : Params} (hc : configOk c = true) {m : Memory} (h : m.wf) :
    Draws c m (clearFb c m) fun _ _ _ => false where
  wf := clearFb_wf h c
  init := clearFb_init c m
  lit px py hin := by
    rw [pixelLit, clearFb_read h, if_pos (pixelIndex_lt hc hin)]
    exact BitVec.getLsbD_zero
  outside _ a ha := by rw [clearFb_read h, if_neg (by omega)]

/-! ## The whole display as a rectangle (R212) -/

theorem toInt_ofNat_of_le {n : Nat} (h : n ≤ 256) : (BitVec.ofNat 32 n).toInt = n := by
  have hn : (BitVec.ofNat 32 n).toNat = n := by rw [BitVec.toNat_ofNat, Nat.mod_eq_of_lt (by omega)]
  rw [BitVec.toInt_eq_toNat_of_lt (by omega), hn]

theorem inRect_display {c : Params} {px py : Int} (h : inBounds c px py = true) : inRect 0 0 c.width c.height px py = true := by
  obtain ⟨hx, hx', hy, hy'⟩ := inBounds_iff.1 h
  simp [inRect, hx, hx', hy, hy']

theorem exec_fillDisplay_next {s : State} (hs : s.seq = .idle) (hc : configOk s.cfg = true) (hwf : s.fb.wf) (on : Bool) :
    ∃ m, exec (.fillRect 0 0 (BitVec.ofNat 32 s.cfg.width) (BitVec.ofNat 32 s.cfg.height) on) s = .next (redrawn s m)
      ∧ Draws s.cfg s.fb m (fun px py b => if inRect 0 0 s.cfg.width s.cfg.height px py then on else b)
      ∧ ∀ px py, inBounds s.cfg px py = true → pixelLit s.cfg m px py = on := by
  obtain ⟨-, -, hw, -, hh, -⟩ := (configOk_iff s.cfg).1 hc
  have hx : (0 : Word).toInt = 0 := rfl
  have hsums : ∀ v, RectSum (0 : Word).toInt (0 : Word).toInt (BitVec.ofNat 32 s.cfg.width).toInt
      (BitVec.ofNat 32 s.cfg.height).toInt v → InRange v := by
    rw [toInt_ofNat_of_le hw, toInt_ofNat_of_le hh, hx]
    rintro v ⟨dx, dy, h1, h2, h3, h4, hv⟩
    unfold InRange
    omega
  obtain ⟨m, hexec, hdraws⟩ := exec_fillRect_next hs hsums on
  have hm := hdraws hwf
  rw [toInt_ofNat_of_le hw, toInt_ofNat_of_le hh, hx] at hm
  exact ⟨m, hexec, hm, fun px py hin => by rw [hm.lit px py hin, if_pos (inRect_display hin)]⟩

/-! ## Characters (R207) -/

theorem glyphEntry_unprintable {c : Params} {ch : Word} (h : ch.toNat < c.printableLo.toNat ∨ c.printableHi.toNat < ch.toNat) :
    glyphEntry c ch = glyphEntry c 0x20 := by
  have hp : printable c ch = false := by
    simp only [printable, Bool.and_eq_false_iff, decide_eq_false_iff_not]
    omega
  simp only [glyphEntry, hp, Bool.false_eq_true, if_false]
  split <;> rfl

/-- A character counts by its glyph alone. -/
theorem execDrawGlyph_congr {s : State} {ch ch' : Word} (h : glyphEntry s.cfg ch = glyphEntry s.cfg ch') (x y : Word) :
    execDrawGlyph x y ch s = execDrawGlyph x y ch' s := by
  have hg : glyphOverflows s.cfg (coord x) (coord y) ch = glyphOverflows s.cfg (coord x) (coord y) ch' := by
    simp only [glyphOverflows, glyphBitOverflows, h]
  have hd : drawGlyph (coord x) (coord y) ch (beginOp 0x14 s) = drawGlyph (coord x) (coord y) ch' (beginOp 0x14 s) :=
    congrArg (fun e => drawGlyphCols (coord x) (coord y) e (List.range 5) (beginOp 0x14 s)) h
  exact runOp_eq_of_begun (congrArg overflowGuard hg) (congrArg (Prod.mk none) hd)

/-! ## A row of text (R208, R209) -/

section
variable {c : Params} {x cx cy : Int}

/-- The sums of a glyph are at most 4 columns and 6 rows from its position. -/
theorem GlyphSum.bounds {y v : Int} {ch : Word} (h : GlyphSum c x y ch v) : x ≤ v ∧ v ≤ x + 4 ∨ y ≤ v ∧ v ≤ y + 6 := by
  obtain ⟨col, row, hcol, hrow, -, hv⟩ := h
  omega

/-- A text that starts left of `right`, as wide as the display or wider, forms its column sums below `right + 6`, and goes down
at most 8 rows a character. -/
theorem TextSum.bounds {right v : Int} (hx : 0 ≤ x) (hright : x + 6 ≤ right) (hw : (c.width : Int) ≤ right) {text : List Word}
    (hcx : 0 ≤ cx) (hcx' : cx ≤ right) (hcy : 0 ≤ cy) (h : TextSum c x text cx cy v) :
    0 ≤ v ∧ (v ≤ right + 6 ∨ v ≤ cy + 8 * text.length + 6) := by
  induction text generalizing cx cy with
  | nil => exact h.elim
  | cons ch rest ih =>
    unfold TextSum at h
    rw [List.length_cons]
    push_cast
    split at h
    case isTrue =>
      obtain rfl | h := h
      · omega
      · have := ih hx (by omega) (by omega) h
        omega
    case isFalse =>
      obtain rfl | h := h
      · omega
      · split at h
        case isTrue =>
          obtain rfl | h | rfl | h := h
          · omega
          · have := h.bounds
            omega
          · omega
          · have := ih (by omega) (by omega) (by omega) h
            omega
        case isFalse hfits =>
          obtain h | h := h
          · have := h.bounds
            omega
          · have := ih (by omega) (by omega) hcy h
            omega

/-- Characters fill the row while they fit; the first that does not goes to column x of the next row. -/
theorem textCells_replicate {ch : Word} (hch : ch ≠ c.newline) {n : Nat} (hfit : cx + 6 * n ≤ c.width)
    (hwrap : (c.width : Int) < cx + 6 * n + 6) :
    textCells c x (List.replicate (n + 1) ch) cx cy
      = (List.range n).map (fun j : Nat => (cx + 6 * (j : Int), cy, ch)) ++ [(x, cy + 8, ch)] := by
  induction n generalizing cx with
  | zero =>
    rw [List.replicate_succ, textCells, if_neg hch, if_pos (by omega)]
    rfl
  | succ n ih =>
    push_cast at hfit hwrap
    rw [List.replicate_succ, textCells, if_neg hch, if_neg (by omega), ih (by omega) (by omega), List.range_succ_eq_map,
      List.map_cons, List.map_map, List.cons_append]
    congr 1
    · simp
    · congr 2
      funext j
      simp only [Function.comp_apply]
      push_cast
      congr 1
      ring

end

end Sys2Proof.Machine

open Sys2Proof Sys2Proof.Machine

/-- Settles O42: the state with the cleared framebuffer, read byte by byte. -/
theorem clearResult : Obligations.ClearResult := by
  intro s hs hwf
  exact ⟨_, exec_clear_next hs, clearFb_read hwf s.cfg, redrawn_frame s _, redrawn_returned s _⟩

/-- Settles O43: the addressed bit by SET_PIXEL's bit lemma, every other byte by its byte lemma. -/
theorem setPixelResult : Obligations.SetPixelResult := by
  intro x y on s hs hwf
  refine ⟨_, exec_setPixel_next hs x y on, redrawn_frame s _, redrawn_returned s _, fun hin => ⟨fun k hk => ?_, fun n hn => ?_⟩,
    fun hout => ?_⟩
  · refine (setPixelFb_getLsbD hwf s.cfg x.toInt y.toInt on _ hk).trans (if_congr ?_ rfl rfl)
    exact ⟨fun ht => ht.2.2, fun hbit => ⟨inBounds_iff.2 hin, rfl, hbit⟩⟩
  · rw [redrawn_fb, setPixelFb_read hwf, if_neg fun ha => hn ha.2]
  · exact setPixelFb_outOfBounds (Bool.eq_false_iff.2 (mt inBounds_iff.1 hout)) on s.fb

/-- Settles O44: each law is one of the framebuffer. -/
theorem setPixelLaws : Obligations.SetPixelLaws := by
  intro s hs hwf
  refine ⟨fun x y on t h => ?_, fun x y t u hin h h' => ?_, fun x y on t hout h => ?_, fun hw hh corner hcorner on t h => ?_,
    fun x y on t hin h px py hp => ?_, fun x y x' y' on on' t t' h h' => ?_⟩
  · rw [exec_setPixel_eq_next hs h, exec_setPixel_redrawn, setPixelFb_setPixelFb hwf]
  · rw [exec_setPixel_eq_next hs h, exec_setPixel_redrawn, setPixelFb_setPixelFb hwf] at h'
    cases h'
    exact ⟨by rw [redrawn_fb, setPixelFb_lit hwf hin, if_pos ⟨rfl, rfl⟩], setPixelFb_eq_self_iff hwf hin false⟩
  · rw [exec_setPixel_eq_next hs h]
    exact setPixelFb_outOfBounds hout on s.fb
  · obtain ⟨hk, ht⟩ := corner_targets hw hh corner hcorner
    rw [exec_setPixel_eq_next hs h, redrawn_fb, setPixelFb_getLsbD hwf _ _ _ on _ hk, if_pos ht]
  · rw [exec_setPixel_eq_next hs h, redrawn_fb, setPixelFb_lit hwf hp]
  · rw [exec_setPixel_eq_next hs h, exec_setPixel_eq_next hs h', exec_setPixel_redrawn, exec_setPixel_redrawn]
    split
    case isTrue hsame => rw [hsame.1, hsame.2, setPixelFb_setPixelFb hwf]
    case isFalse hne =>
      rw [setPixelFb_comm hwf s.cfg fun heq => hne ⟨BitVec.eq_of_toInt_eq heq.1, BitVec.eq_of_toInt_eq heq.2⟩]

/-- Settles O45: the picture of DRAW_GLYPH. -/
theorem drawGlyphResult : Obligations.DrawGlyphResult := by
  intro x y ch s hs hwf hc hsums
  obtain ⟨m, hexec, hdraws⟩ := exec_drawGlyph_next hs hsums
  exact ⟨_, hexec, redrawn_frame s m, redrawn_returned s m, (hdraws hwf).lit, (hdraws hwf).outside hc⟩

/-- Settles O46: such a code has the glyph of a space. -/
theorem characterSubstitution : Obligations.CharacterSubstitution := by
  intro x y ch s h
  exact execDrawGlyph_congr (glyphEntry_unprintable h) x y

/-- Settles O47: the picture of DRAW_TEXT. -/
theorem drawTextResult : Obligations.DrawTextResult := by
  intro x y text s hs hwf hc hsums
  obtain ⟨m, hexec, hdraws⟩ := exec_drawText_next hs hsums
  exact ⟨_, hexec, redrawn_frame s m, redrawn_returned s m, (hdraws hwf).lit, (hdraws hwf).outside hc⟩

/-- Settles O48: the text cells of a repeated character; the display is too small for a sum to overflow. -/
theorem textWrapsAtRightEdge : Obligations.TextWrapsAtRightEdge := by
  intro ch s hs hwf hc hch
  obtain ⟨-, -, hw, -⟩ := (configOk_iff s.cfg).1 hc
  have hx : (0 : Word).toInt = 0 := rfl
  have hsums : ∀ v, TextSum s.cfg (0 : Word).toInt (List.replicate (s.cfg.width / 6 + 1) ch) (0 : Word).toInt (0 : Word).toInt v →
      InRange v := by
    intro v hv
    have hbound := hv.bounds (right := 256) le_rfl (by decide) (by omega) le_rfl (by decide) le_rfl
    rw [List.length_replicate] at hbound
    unfold InRange
    omega
  obtain ⟨m, hexec, hdraws⟩ := exec_drawText_next hs hsums
  refine ⟨_, hexec, fun px py hin => ?_⟩
  rw [redrawn_fb, (hdraws hwf).lit px py hin, hx, textCells_replicate hch (by omega) (by omega)]
  simp [List.any_map, Function.comp_def, Bool.or_assoc]

/-- Settles O49: the picture of FILL_RECT. -/
theorem fillRectResult : Obligations.FillRectResult := by
  intro x y w h on s hs hwf hc hsums
  obtain ⟨m, hexec, hdraws⟩ := exec_fillRect_next hs hsums on
  refine ⟨_, hexec, redrawn_frame s m, redrawn_returned s m, fun px py hin => ?_, (hdraws hwf).outside hc⟩
  rw [redrawn_fb, (hdraws hwf).lit px py hin]
  simp only [inRect, Bool.and_eq_true, decide_eq_true_eq, and_assoc]

/-- Settles O50: every pixel is on, so every bit of every framebuffer byte is; with every pixel off it is CLEAR's framebuffer. -/
theorem fillWholeDisplay : Obligations.FillWholeDisplay := by
  intro s hs hwf hc
  constructor
  · obtain ⟨m, hexec, -, hlit⟩ := exec_fillDisplay_next hs hc hwf true
    refine ⟨_, hexec, fun n hn => BitVec.eq_of_getLsbD_eq fun k hk => ?_⟩
    obtain ⟨px, py, hin, hbit⟩ := exists_pixel hc hn hk
    rw [redrawn_fb, hbit m, hlit px py hin]
    exact (BitVec.getLsbD_allOnes.trans (decide_eq_true hk)).symm
  · obtain ⟨m, hexec, hdraws, hlit⟩ := exec_fillDisplay_next hs hc hwf false
    have hclear := clearFb_draws hc hwf
    have hm : m = clearFb s.cfg s.fb :=
      Memory.eq_of_pixelLit hc hdraws.wf hclear.wf (hdraws.init.trans hclear.init.symm)
        (fun px py hin => (hlit px py hin).trans (hclear.lit px py hin).symm)
        (fun a ha => (hdraws.outside hc a ha).trans (hclear.outside hc a ha).symm)
    rw [hexec, exec_clear_next hs, hm]

/-- Settles O51: a sum out of range is an overflow, and the overflow guard refuses the request. -/
theorem overflowRefused : Obligations.OverflowRefused := by
  intro x y s v hs hv
  refine ⟨fun ch h => ?_, fun text h => ?_, fun w k on h => ?_⟩
  · exact show execDrawGlyph x y ch s = _ from
      runOp_refused hs (overflowGuard_some (glyph_overflows (coord_ge x) (coord_ge y) h hv))
  · exact show execDrawText x y text s = _ from
      runOp_refused hs (overflowGuard_some (text_overflows (coord_ge x) (coord_ge x) (coord_ge y) h hv))
  · exact show execFillRect x y w k on s = _ from
      runOp_refused hs (overflowGuard_some (rect_overflows (coord_ge x) (coord_ge y) h hv))
end

section
/-!
PROOFS. Outcomes (60_exceptions.md): the guard of every row lets through exactly the states in which what must be true before the row is
true (R264), so the row completes there and is refused everywhere else (R233); nothing faults (R231).
-/

namespace Sys2Proof.Machine

/-! ## Outcomes decided by a condition -/

/-- There is no fault (R231), so an outcome is a next state or a refusal. -/
theorem next_or_refused (o : Outcome) : (∃ t : State, o = .next t) ∨ ∃ r : Refusal, o = .refused r := by
  cases o with
  | next t => exact .inl ⟨t, rfl⟩
  | fault f => cases f
  | refused r => exact .inr ⟨r, rfl⟩

/-- `P` decides the outcome: a next state where `P` holds, a refusal where it does not. -/
def DecidedBy (P : Prop) (o : Outcome) : Prop :=
  (P → ∃ t : State, o = .next t) ∧ (¬ P → ∃ r : Refusal, o = .refused r)

/-- The condition under which an idle sequencer's guard lets an operation through decides the operation. -/
theorem runOp_decidedBy {P : Prop} {opc : Byte} {guard : Option Refusal} {body : State → Option Result × State} {s : State}
    (hs : s.seq = .idle) (hg : guard = none ↔ P) : DecidedBy P (runOp opc guard body s) := by
  refine ⟨fun hp => ⟨_, runOp_next hs (hg.2 hp)⟩, fun hp => ?_⟩
  obtain ⟨r, hr⟩ := Option.ne_none_iff_exists'.1 (mt hg.1 hp)
  exact ⟨r, runOp_refused hs hr⟩

/-- The condition under which its guard lets a piece through decides the piece. -/
theorem runPiece_decidedBy {P : Prop} {guard : Option Refusal} {body : State → Option Result × State} {s : State}
    (hg : guard = none ↔ P) : DecidedBy P (runPiece guard body s) := by
  refine ⟨fun hp => ⟨_, runPiece_next (hg.2 hp)⟩, fun hp => ?_⟩
  obtain ⟨r, hr⟩ := Option.ne_none_iff_exists'.1 (mt hg.1 hp)
  exact ⟨r, runPiece_refused hr⟩

/-! ## Guards as the conditions of R264 -/

/-- The overflow guard lets through exactly the requests all of whose sums are in range, for a test that finds every sum out of
range and nothing else (R204). -/
theorem overflowGuard_none_iff_inRange {overflows : Bool} {Sum : Int → Prop}
    (hin : (∀ v, Sum v → InRange v) → overflows = false) (hout : ∀ v, Sum v → ¬ InRange v → overflows = true) :
    overflowGuard overflows = none ↔ ∀ v, Sum v → InRange v := by
  rw [overflowGuard_none]
  refine ⟨fun hf v hv => ?_, hin⟩
  by_contra hr
  cases hf.symm.trans (hout v hv hr)

/-- PINMODE's guard (R82). -/
theorem pinmodeGuard_none {c : Params} {id : Nat} :
    (if c.pinCount ≤ id then some (Refusal.lineOutOfRange id) else none) = none ↔ id < c.pinCount := by
  simp

/-! ## Every row (R264) -/

theorem sendFrame_decidedBy (b : Byte) (s : State) : DecidedBy (BusReady s) (sendFrame b s) :=
  runPiece_decidedBy busGuard_none

theorem sendCommand_decidedBy (bs : List Byte) (s : State) : DecidedBy (CommandReady s) (sendCommand bs s) :=
  runPiece_decidedBy cmdGuard_none

/-- An operation of the host is decided by its conditions when the sequencer is idle; a piece in every state. -/
theorem exec_decidedBy_performed (i : Instr) (s : State) (hidle : i.format = .op → s.seq = .idle) :
    DecidedBy (Performed s i) (exec i s) := by
  cases i with dsimp only [exec, Performed]
  | configure c d f => exact runOp_decidedBy (hidle rfl) configureGuard_none
  | start | stop | writeByte _ | readByte _ | write _ _ | writeRegister _ _ _ =>
    exact runOp_decidedBy (hidle rfl) busGuard_none
  | initDisplay a c d => exact runOp_decidedBy (hidle rfl) initializeGuard_none
  | flush | setContrast _ | setPower _ | setInverted _ => exact runOp_decidedBy (hidle rfl) displayGuard_none
  | clear | setPixel _ _ _ => exact runOp_decidedBy (hidle rfl) (iff_true_intro rfl)
  | drawGlyph x y ch =>
    exact runOp_decidedBy (hidle rfl) (overflowGuard_none_iff_inRange glyph_not_overflows
      fun _ => glyph_overflows (coord_ge x) (coord_ge y))
  | drawText x y text =>
    exact runOp_decidedBy (hidle rfl) (overflowGuard_none_iff_inRange text_not_overflows
      fun _ => text_overflows (coord_ge x) (coord_ge x) (coord_ge y))
  | fillRect x y w h on =>
    exact runOp_decidedBy (hidle rfl) (overflowGuard_none_iff_inRange rect_not_overflows
      fun _ => rect_overflows (coord_ge x) (coord_ge y))
  | setline l v =>
    cases l with
    | scl | sda => exact runPiece_decidedBy needWritten_none
  | sample | delay => exact runPiece_decidedBy needWritten_none
  | pinmode id => exact runPiece_decidedBy pinmodeGuard_none
  | powerupWait => exact runPiece_decidedBy (iff_true_intro rfl)
  | addrWrite _ | addrRead _ | ctrlCommand | ctrlDataStream => exact sendFrame_decidedBy _ s
  | _ => exact sendCommand_decidedBy _ s

end Sys2Proof.Machine

open Sys2Proof.Machine in
/-- Settles O60: the conditions of each row are those its guard lets through; a step's outcome is no fault. -/
theorem performedOrRefused : Obligations.PerformedOrRefused :=
  ⟨exec_decidedBy_performed, fun s => next_or_refused (step s)⟩
end

section
/-!
PROOFS. Reset and hazards (70_reset_and_hazards.md): while an operation runs the host is refused whatever it presents (R271), and between
operations it may write the framebuffer itself (R270).
-/

namespace Sys2Proof.Machine

/-! ## While an operation runs (R271) -/

section
variable {s : State} {op : Byte} {pos : Nat} {todo : List Instr} (hs : s.seq = .running op pos todo)
include hs

/-- No operation begins before the one in progress has returned, whatever its guard and its body. -/
theorem runOp_busy {opc : Byte} {guard : Option Refusal} {body : State → Option Result × State} :
    runOp opc guard body s = .refused .busy := by
  simp [runOp, hs]

/-- Every row of format OP begins as `runOp` does. -/
theorem exec_op_busy {i : Instr} (hf : i.format = .op) : exec i s = .refused .busy := by
  cases i with dsimp only [exec]
  | configure _ _ _ | start | stop | writeByte _ | readByte _ | write _ _ | writeRegister _ _ _
  | initDisplay _ _ _ | clear | flush | setPixel _ _ _ | drawGlyph _ _ _ | drawText _ _ _ | fillRect _ _ _ _ _
  | setContrast _ | setPower _ | setInverted _ => exact runOp_busy hs
  | _ => cases hf

/-- An act of the host is refused before a request is decoded and before an index is looked at. -/
theorem hostAct_busy (a : HostAct) : hostAct a s = .refused .busy := by
  cases a with
  | request bytes => simp [hostAct, hostRequest, Seq.isRunning, hs]
  | writeFb index value => simp [hostAct, hostWrite, Seq.isRunning, hs]

end

/-! ## The host's own framebuffer write (R270) -/

section
variable {s : State} (hs : s.seq = .idle)
include hs

theorem hostWrite_idle {index : Nat} (hi : index < fbSize s.cfg) (value : Byte) :
    hostWrite index value s = .next { s with fb := s.fb.write index value } := by
  simp [hostWrite, Seq.isRunning, hs, hi]

theorem hostWrite_outside {index : Nat} (hi : fbSize s.cfg ≤ index) (value : Byte) :
    hostWrite index value s = .refused (.noSuchFbByte index) := by
  simp [hostWrite, Seq.isRunning, hs, hi]

end

end Sys2Proof.Machine

open Sys2Proof.Machine in
/-- Settles O7: an operation does not begin and an act of the host is not taken while the sequencer is not idle. -/
theorem busyIsRefused : Obligations.BusyIsRefused := by
  intro s op pos todo hs
  refine ⟨fun _ => exec_op_busy hs, fun a acts hc hh => ?_⟩
  exact (step_of_host hc hh).trans (hostAct_busy (s := { s with host := acts }) hs a)

open Sys2Proof.Machine in
/-- Settles O52: the act is taken off and the memory written; what the memory reads as then is the rule of a write to it. -/
theorem hostFramebufferWrite : Obligations.HostFramebufferWrite := by
  intro s index value acts hc hs hh
  have hstep : step s = hostWrite index value { s with host := acts } := step_of_host hc hh
  refine ⟨fun hi => ⟨_, hstep.trans (hostWrite_idle (s := { s with host := acts }) hs hi value), rfl, fun hwf => ?_⟩, fun hi => ?_⟩
  · exact ⟨Memory.write_wf hwf index value, Memory.read_write hwf index value⟩
  · exact hstep.trans (hostWrite_outside (s := { s with host := acts }) hs hi value)
end
